-- ==== Sys2Proof/Word.lean ====
section
/-! DEFINITION. The word types of the core: every port, register and memory word is 32 bits wide
(00_scope.md R10). -/

namespace Sys2Proof

/-- A 32-bit word on a port, bits numbered 31 down to 0 (R10). -/
abbrev Word := BitVec 32

/-- An IEEE 754 binary32 value, held as its bit pattern: `bitsOf` and `f32OfBits` of R10 are the
identity on it. The arithmetic stands in Sys2Proof/Machine/Float.lean. -/
abbrev F32 := BitVec 32

/-- An unsigned 32-bit integer (R10). -/
abbrev U32 := BitVec 32

end Sys2Proof
end

