-- ==== Sys2Proof/Syntax.lean ====
section
/-! DEFINITION. The syntax of the six host commands (30_encoding.md R94), one constructor per row of
spec/opcode_table.json, with their operands (R95). -/

namespace Sys2Proof

/-- The two channel contexts, left (index 0) and right (index 1) (R3). -/
inductive Chan where
  | left
  | right
  deriving DecidableEq, Repr

/-- The two ports a command can arrive on (R90). -/
inductive Port where
  | cmd
  | ctl
  deriving DecidableEq, Repr

/-- The six commands (R94). Numeric operands are naturals; `Instr.wellFormed` says which of them the
encoding admits. -/
inductive Instr where
  /-- `PREPARE fs, maxblk` (R111): sample rate and largest block length. -/
  | prepare (fs : F32) (maxblk : U32)
  /-- `RESET` (R118). -/
  | reset
  /-- `PBLOCK n` (R120): process `n` stereo sample pairs. -/
  | pblock (n : Nat)
  /-- `PSAMPLE` (R123). -/
  | psample
  /-- `RDENV ch` (R124). -/
  | rdenv (ch : Chan)
  /-- `WRPARAM k, value` (R126). -/
  | wrparam (k : Nat) (value : F32)
  deriving DecidableEq, Repr

/-- The port each command belongs to (R94). -/
def Instr.port : Instr → Port
  | .prepare _ _ => .cmd
  | .reset => .cmd
  | .pblock _ => .cmd
  | .psample => .cmd
  | .rdenv _ => .cmd
  | .wrparam _ _ => .ctl

end Sys2Proof
end

