-- ==== Sys2Proof/WellFormed.lean ====
section
/-! DEFINITION. Which terms of `Instr` an encoding exists for (30_encoding.md R93, R95). -/

namespace Sys2Proof

/-- `n` has 24 bits and `k` has 5; every other operand fits by its type. Indices 18 to 31 are
encodable (R95) and so well-formed: `WRPARAM` itself faults on them (R126). -/
def Instr.wellFormed : Instr → Bool
  | .prepare _ _ => true
  | .reset => true
  | .pblock n => decide (n < 2 ^ 24)
  | .psample => true
  | .rdenv _ => true
  | .wrparam k _ => decide (k < 2 ^ 5)

end Sys2Proof
end

