-- ==== Sys2Proof/Decode.lean ====
section
/-! DEFINITION. Framing, the total decoder and the encoder of the command words (30_encoding.md R91 to
R97), and the byte order of serialised words (20_memory.md R77). -/

namespace Sys2Proof

/-- The opcode field `OP = w[31:24]` of a head word (R92). -/
def opOf (w0 : Word) : Nat := w0.toNat / 2 ^ 24

/-- The field `ARG = w[23:0]` of a head word (R92). -/
def argOf (w0 : Word) : Nat := w0.toNat % 2 ^ 24

/-- How many words a command has, decided by the opcode alone; an undefined opcode has length 1
(R91, R94). -/
def cmdLength (w0 : Word) : Nat :=
  match opOf w0 with
  | 0x01 => 3
  | 0x10 => 2
  | _ => 1

/-- The channel of format `C`: bit 0 of `ARG` (R93). -/
def chanOfBit (b : Nat) : Chan := if b % 2 = 0 then .left else .right

/-- The index of a channel (R3). -/
def Chan.index : Chan → Nat
  | .left => 0
  | .right => 1

/-- Why an encoding is illegal: the three cases of R96. -/
inductive Illegal where
  /-- Case 1: an undefined opcode. -/
  | undefinedOp
  /-- Case 2: a reserved bit of `ARG` is set. -/
  | reservedBits
  /-- Case 3: a defined opcode on the wrong port. -/
  | wrongPort
  deriving DecidableEq, Repr

/-- What the decoder answers on a whole command (R97). -/
inductive Decoded where
  | legal (i : Instr)
  | illegal (why : Illegal)
  deriving DecidableEq, Repr

/-- The checks of R97 that follow the opcode: reserved bits, then the port. -/
def checked (p : Port) (reservedClear : Bool) (i : Instr) : Decoded :=
  if !reservedClear then .illegal .reservedBits
  else if p = i.port then .legal i
  else .illegal .wrongPort

/-- The decoder of R97 on a head word and the extension words that follow it, total on every word.
Extension words are data and are never decoded. -/
def decode (p : Port) (w0 : Word) (ext : List Word) : Decoded :=
  match opOf w0 with
  | 0x01 => checked p (argOf w0 == 0) (.prepare (ext.getD 0 0) (ext.getD 1 0))
  | 0x02 => checked p (argOf w0 == 0) .reset
  | 0x03 => checked p true (.pblock (argOf w0))
  | 0x04 => checked p (argOf w0 == 0) .psample
  | 0x05 => checked p (argOf w0 / 2 == 0) (.rdenv (chanOfBit (argOf w0)))
  | 0x10 => checked p (argOf w0 / 2 ^ 5 == 0) (.wrparam (argOf w0 % 2 ^ 5) (ext.getD 0 0))
  | _ => .illegal .undefinedOp

/-- Takes one whole command from the front of a port's words: what it decodes to and the words after
it; `none` while the port has not assembled all words of a command (R91). -/
def takeCommand (p : Port) : List Word → Option (Decoded × List Word)
  | [] => none
  | w0 :: ws =>
    if ws.length < cmdLength w0 - 1 then none
    else some (decode p w0 (ws.take (cmdLength w0 - 1)), ws.drop (cmdLength w0 - 1))

/-- The words of a command, head word first (R92 to R94). -/
def encode : Instr → List Word
  | .prepare fs maxblk => [0x01000000#32, fs, maxblk]
  | .reset => [0x02000000#32]
  | .pblock n => [BitVec.ofNat 32 (0x03000000 + n)]
  | .psample => [0x04000000#32]
  | .rdenv ch => [BitVec.ofNat 32 (0x05000000 + ch.index)]
  | .wrparam k value => [BitVec.ofNat 32 (0x10000000 + k), value]

/-- The four bytes of a word, byte 0 (`w[7:0]`) first: little-endian (R77). -/
def bytesOfWord (w : Word) : List (BitVec 8) :=
  [BitVec.ofNat 8 w.toNat, BitVec.ofNat 8 (w.toNat / 2 ^ 8),
   BitVec.ofNat 8 (w.toNat / 2 ^ 16), BitVec.ofNat 8 (w.toNat / 2 ^ 24)]

/-- The word of four bytes, byte 0 the least significant (R77). -/
def wordOfBytes (b0 b1 b2 b3 : BitVec 8) : Word :=
  BitVec.ofNat 32 (b0.toNat + 2 ^ 8 * b1.toNat + 2 ^ 16 * b2.toNat + 2 ^ 24 * b3.toNat)

/-- The words of an instruction whose bits are `w`, numbered as spec/opcode_table.json numbers them:
bit 0 is the least significant bit of the first word; every bit at or above `nbits` is 0. -/
def tableWords (nbits w : Nat) : List Word :=
  let v := w % 2 ^ nbits
  let w0 : Word := BitVec.ofNat 32 v
  [w0, BitVec.ofNat 32 (v / 2 ^ 32), BitVec.ofNat 32 (v / 2 ^ 64)].take (cmdLength w0)

/-- The instruction the decoder reads from a row of the table, on the port that takes it. -/
def decodeTableWord (nbits w : Nat) : Option Instr :=
  match takeCommand .cmd (tableWords nbits w) with
  | some (.legal i, _) => some i
  | _ =>
    match takeCommand .ctl (tableWords nbits w) with
    | some (.legal i, _) => some i
    | _ => none

end Sys2Proof
end

