-- ==== Sys2Proof/Config.lean ====
section
/-! DEFINITION. What an instance fixes (00_scope.md R8) and the free values: constants without a body,
of which nothing can be proved. -/

namespace Sys2Proof

/-- The data of the configuration record `CFG` (R8): every field is open. The record stands in
`State.cfg`, is never written, and so every statement about every state holds for every `CFG`
(log 2). `CFG.NUM` stands in Sys2Proof/Machine/Num.lean. -/
structure Cfg where
  fsMin : F32
  fsMax : F32
  iobufCap : Nat
  fdnBase : Vector Nat 8
  kHigh : F32
  kLow : F32
  driftDepthMs : F32
  degK : F32
  degThresh : F32
  seedL : U32
  seedR : U32
  deriving DecidableEq, Repr

/-- The defaults of the table of R8. -/
def Cfg.default : Cfg where
  fsMin := 0x45FA0000#32
  fsMax := 0x483B8000#32
  iobufCap := 8192
  fdnBase := #v[1103, 1249, 1399, 1567, 1733, 1901, 2087, 2269]
  kHigh := 0x3F800000#32
  kLow := 0x3F800000#32
  driftDepthMs := 0x3F800000#32
  degK := 0x3F666666#32
  degThresh := 0x3C23D70A#32
  seedL := 1#32
  seedR := 2#32

/-- `CFG.SEED[ch]` (R8). -/
def Cfg.seed (g : Cfg) : Chan → U32
  | .left => g.seedL
  | .right => g.seedR

/-- The operations whose result can be a NaN that no operand fixes (U9). -/
inductive NanOp where
  | add
  | sub
  | mul
  | div
  | floor
  | ceil
  | round
  deriving DecidableEq, Repr

/-- Free value (log 4): which NaN an operation yields on its operands (U9). -/
opaque Config.nanRaw : NanOp → F32 → F32 → F32

/-- Free value (log 3): the `fexp` of the instance, before the bounds of R17 are imposed. -/
opaque Config.expRaw : F32 → F32

/-- Free value (log 3): the `fsin` of the instance, before the bounds of R17 are imposed. -/
opaque Config.sinRaw : F32 → F32

/-- Free value (log 3): the `fcos` of the instance, before the bounds of R17 are imposed. -/
opaque Config.cosRaw : F32 → F32

/-- Free value (log 3): the `fpow10` of the instance, before the bounds of R17 are imposed. -/
opaque Config.pow10Raw : F32 → F32

/-- Free value (log 3): the `fexp2` of the instance, before the bounds of R17 are imposed. -/
opaque Config.exp2Raw : F32 → F32

/-- Free value (log 9): the `n`-th choice between agents that may act at the same time. -/
opaque Config.pick : Nat → Nat

/-- Free value (log 8): the word the `n`-th draw answers a load from an unmapped address with (U4). -/
opaque Config.freeWord : Nat → Word

/-- Free value (log 7): what an `IOBUF` word nobody has written holds, by power-on, channel and sample
index (U3). -/
opaque Config.iobufPor : Nat → Chan → Nat → Word

end Sys2Proof
end

