-- ==== Sys2Proof/Machine/Float.lean ====
section
/-! DEFINITION. Binary32 arithmetic (00_scope.md R11, R13, R16): operands are read as integers in units
of 2^-149, the result is computed exactly and rounded once, to nearest, ties to even. -/

namespace Sys2Proof.Machine

/-- The bits below the sign, as a natural. -/
def magBits (x : F32) : Nat := x.toNat % 2 ^ 31

/-- The sign bit. -/
def isNeg (x : F32) : Bool := x.toNat / 2 ^ 31 == 1

def isNan (x : F32) : Bool := decide (0x7F800000 < magBits x)

def isInf (x : F32) : Bool := magBits x == 0x7F800000

def isFinite (x : F32) : Bool := decide (magBits x < 0x7F800000)

def isZero (x : F32) : Bool := magBits x == 0

/-- A value of sign `neg` whose bits below the sign are `mag`. -/
def pack (neg : Bool) (mag : Nat) : F32 :=
  BitVec.ofNat 32 ((if neg then 2 ^ 31 else 0) + mag)

/-- Unary minus: flips the sign bit (R11). -/
def fneg (x : F32) : F32 := x ^^^ 0x80000000#32

/-- `|x|`: clears the sign bit (R11). -/
def fabs (x : F32) : F32 := BitVec.ofNat 32 (magBits x)

/-- The magnitude of a finite value, a whole number of units of 2^-149. -/
def magUnits (x : F32) : Nat :=
  if magBits x / 2 ^ 23 = 0 then magBits x
  else (magBits x % 2 ^ 23 + 2 ^ 23) * 2 ^ (magBits x / 2 ^ 23 - 1)

/-- A finite value as an integer, in units of 2^-149. -/
def units (x : F32) : Int := if isNeg x then -(magUnits x : Int) else (magUnits x : Int)

/-- `n / d` rounded to the nearest natural, ties to even. -/
def roundEven (n d : Nat) : Nat :=
  if d < 2 * (n % d) ∨ (2 * (n % d) = d ∧ n / d % 2 = 1) then n / d + 1 else n / d

/-- The bits below the sign of `n / d` units of 2^-149, rounded once to nearest, ties to even, with
gradual underflow; too large a value is an infinity (R11). The exponent field and the fraction stand
side by side, so a carry out of the fraction moves to the next exponent by itself. -/
def magRound (n d : Nat) : Nat :=
  let k := (n / d).log2 - 23
  min (k * 2 ^ 23 + roundEven n (d * 2 ^ k)) 0x7F800000

/-- Keeps a free value to a property the spec states of it: `raw` if it has the property, else
`fallback`, which has it. -/
def restrict (ok : F32 → Bool) (fallback raw : F32) : F32 := if ok raw then raw else fallback

/-- Some NaN: which one is free (U9, log 4). -/
def someNan (op : NanOp) (x y : F32) : F32 := restrict isNan 0x7FC00000#32 (Config.nanRaw op x y)

/-- Position on the number line of a value that is no NaN; both zeros are 0. -/
def key (x : F32) : Int := if isNeg x then -(magBits x : Int) else (magBits x : Int)

/-- `x < y` (R13): false if an operand is a NaN; `+0 = -0`. -/
def flt (x y : F32) : Bool := !isNan x && !isNan y && decide (key x < key y)

/-- `x ≤ y` (R13). -/
def fle (x y : F32) : Bool := !isNan x && !isNan y && decide (key x ≤ key y)

/-- `x > y` (R13). -/
def fgt (x y : F32) : Bool := flt y x

/-- `x ≥ y` (R13). -/
def fge (x y : F32) : Bool := fle y x

/-- `x = y` (R13). -/
def feq (x y : F32) : Bool := !isNan x && !isNan y && decide (key x = key y)

/-- The sum of two values that are no NaN, `op` and `a`, `b` naming a NaN result. -/
def addWith (op : NanOp) (a b x y : F32) : F32 :=
  if isInf x then (if isInf y && (isNeg x != isNeg y) then someNan op a b else x)
  else if isInf y then y
  else if units x + units y = 0 then pack (isNeg x && isNeg y) 0
  else pack (decide (units x + units y < 0)) (magRound (units x + units y).natAbs 1)

/-- `x + y` (R11). -/
def fadd (x y : F32) : F32 :=
  if isNan x || isNan y then someNan .add x y else addWith .add x y x y

/-- `x - y` (R11). -/
def fsub (x y : F32) : F32 :=
  if isNan x || isNan y then someNan .sub x y else addWith .sub x y x (fneg y)

/-- `x × y` (R11). -/
def fmul (x y : F32) : F32 :=
  if isNan x || isNan y then someNan .mul x y
  else if isInf x || isInf y then
    (if isZero x || isZero y then someNan .mul x y else pack (isNeg x != isNeg y) 0x7F800000)
  else pack (isNeg x != isNeg y) (magRound (magUnits x * magUnits y) (2 ^ 149))

/-- `x ÷ y` (R11). -/
def fdiv (x y : F32) : F32 :=
  if isNan x || isNan y then someNan .div x y
  else if isInf x then
    (if isInf y then someNan .div x y else pack (isNeg x != isNeg y) 0x7F800000)
  else if isInf y then pack (isNeg x != isNeg y) 0
  else if isZero y then
    (if isZero x then someNan .div x y else pack (isNeg x != isNeg y) 0x7F800000)
  else pack (isNeg x != isNeg y) (magRound (magUnits x * 2 ^ 149) (magUnits y))

/-- The integral value of `x`'s sign and magnitude `k`. -/
def integral (x : F32) (k : Nat) : F32 := pack (isNeg x) (magRound (k * 2 ^ 149) 1)

/-- `|x|` rounded down to a natural. -/
def wholeDown (x : F32) : Nat := magUnits x / 2 ^ 149

/-- `|x|` rounded up to a natural. -/
def wholeUp (x : F32) : Nat := (magUnits x + (2 ^ 149 - 1)) / 2 ^ 149

/-- `|x|` rounded to the nearest natural, halves up. -/
def wholeNear (x : F32) : Nat := (2 * magUnits x + 2 ^ 149) / 2 ^ 150

/-- `ffloor`: roundToIntegral toward −∞ (R16). -/
def ffloor (x : F32) : F32 :=
  if isNan x then someNan .floor x x
  else if isInf x then x
  else integral x (if isNeg x then wholeUp x else wholeDown x)

/-- `fceil`: roundToIntegral toward +∞ (R16). -/
def fceil (x : F32) : F32 :=
  if isNan x then someNan .ceil x x
  else if isInf x then x
  else integral x (if isNeg x then wholeDown x else wholeUp x)

/-- `fround`: roundToIntegral, halves away from zero (R16). -/
def fround (x : F32) : F32 :=
  if isNan x then someNan .round x x
  else if isInf x then x
  else integral x (wholeNear x)

/-- `toF32 n`, exact for `n < 2^24`; every use is within that (R16, log 17). -/
def toF32 (n : Nat) : F32 := pack false (magRound (n * 2 ^ 149) 1)

/-- `toNat x`, exact on non-negative integral values below 2^31; every use is within that (R16,
log 17). -/
def toNat (x : F32) : Nat := if isFinite x && !isNeg x then wholeDown x else 0

/-- `clamp` for samples: passes a NaN and `−0` unchanged (R14). -/
def clamp (x lo hi : F32) : F32 := if flt x lo then lo else if fgt x hi then hi else x

/-- `clampIdx` for delay lengths: a NaN gives `lo` (R15). -/
def clampIdx (x lo hi : F32) : F32 := if !fge x lo then lo else if fgt x hi then hi else x

/-- `popcount n`: the number of 1 bits (R18). -/
def popcount (n : Nat) : Nat := (List.range (n.log2 + 1)).countP (fun b => n.testBit b)

/-- The natural residue of `a` modulo `n`, in `[0, n)` for `n > 0` (R18). -/
def residue (a : Int) (n : Nat) : Nat := (a % (n : Int)).toNat

end Sys2Proof.Machine
end

