-- ==== Sys2Proof/Machine/Literals.lean ====
section
/-! DEFINITION. The decimal literals of the rules as their binary32 patterns (00_scope.md R12;
95_test_vectors.md section 2.1). `d0_01` is 0.01, `n3` is −3.0. -/

namespace Sys2Proof.Machine.Lit

def zero : F32 := 0x00000000#32
def d0_001 : F32 := 0x3A83126F#32
def d0_01 : F32 := 0x3C23D70A#32
def d0_05 : F32 := 0x3D4CCCCD#32
def d0_1 : F32 := 0x3DCCCCCD#32
def d0_3 : F32 := 0x3E99999A#32
def d0_35 : F32 := 0x3EB33333#32
def d0_382 : F32 := 0x3EC39581#32
def d0_4 : F32 := 0x3ECCCCCD#32
def d0_5 : F32 := 0x3F000000#32
def d0_618 : F32 := 0x3F1E353F#32
def d0_7 : F32 := 0x3F333333#32
def d0_8 : F32 := 0x3F4CCCCD#32
def d0_95 : F32 := 0x3F733333#32
def d0_995 : F32 := 0x3F7EB852#32
def d1 : F32 := 0x3F800000#32
def d1_07 : F32 := 0x3F88F5C3#32
def d1_15 : F32 := 0x3F933333#32
def d2 : F32 := 0x40000000#32
def d3 : F32 := 0x40400000#32
def d6 : F32 := 0x40C00000#32
def d8 : F32 := 0x41000000#32
def d10 : F32 := 0x41200000#32
def d12 : F32 := 0x41400000#32
def d15 : F32 := 0x41700000#32
def d16 : F32 := 0x41800000#32
def d30 : F32 := 0x41F00000#32
def d40 : F32 := 0x42200000#32
def d50 : F32 := 0x42480000#32
def d80 : F32 := 0x42A00000#32
def d300 : F32 := 0x43960000#32
def d400 : F32 := 0x43C80000#32
def d600 : F32 := 0x44160000#32
def d1000 : F32 := 0x447A0000#32
def d1500 : F32 := 0x44BB8000#32
def d32768 : F32 := 0x47000000#32
def d44100 : F32 := 0x472C4400#32
def n1 : F32 := 0xBF800000#32
def n2 : F32 := 0xC0000000#32
def n3 : F32 := 0xC0400000#32
def n10 : F32 := 0xC1200000#32
def n30 : F32 := 0xC1F00000#32
def n100 : F32 := 0xC2C80000#32

/-- `TWO_PI`, given by pattern (R12). -/
def twoPi : F32 := 0x40C90FDB#32

/-- `INV_SQRT8`, given by pattern (R12). -/
def invSqrt8 : F32 := 0x3EB504F3#32

/-- `2^-24` (45_vanishing_delay.md R188). -/
def twoPowNeg24 : F32 := 0x33800000#32

/-- `−2^-20` (R17). -/
def negTwoPowNeg20 : F32 := 0xB5800000#32

/-- `2^23` (R8: twice a rate below it is below `2^24`). -/
def twoPow23 : F32 := 0x4B000000#32

end Sys2Proof.Machine.Lit
end

