-- ==== Sys2Proof/Machine/Params.lean ====
section
/-! DEFINITION. The 18 parameters: names, ranges, defaults (00_scope.md R21) and their clamp (R22). -/

namespace Sys2Proof.Machine

/-- The index of a parameter, 0 to 17 (R21). -/
abbrev ParamIx := Fin 18

def piezoCorrect : ParamIx := 0
def bodyResonance : ParamIx := 1
def brightness : ParamIx := 2
def bowSensitivity : ParamIx := 3
def reverbDecay : ParamIx := 4
def reverbDampHigh : ParamIx := 5
def reverbDampLow : ParamIx := 6
def reverbModDepth : ParamIx := 7
def reverbModRate : ParamIx := 8
def detuneAmount : ParamIx := 9
def delayTime : ParamIx := 10
def delayFeedback : ParamIx := 11
def vanishRate : ParamIx := 12
def degradeAmount : ParamIx := 13
def driftAmount : ParamIx := 14
def reverbMix : ParamIx := 15
def delayMix : ParamIx := 16
def masterMix : ParamIx := 17

/-- All 18 indices in order. -/
def allParams : List ParamIx := [0, 1, 2, 3, 4, 5, 6, 7, 8, 9, 10, 11, 12, 13, 14, 15, 16, 17]

/-- A file of 18 values from a function of the index. -/
def tab18 {α : Type} (f : ParamIx → α) : Vector α 18 :=
  #v[f 0, f 1, f 2, f 3, f 4, f 5, f 6, f 7, f 8, f 9, f 10, f 11, f 12, f 13, f 14, f 15, f 16,
    f 17]

/-- `PLO[k]`, the lower bounds (R21). -/
def plo : Vector F32 18 :=
  #v[Lit.zero, Lit.zero, Lit.zero, Lit.zero, Lit.d0_5, Lit.zero, Lit.zero, Lit.zero, Lit.d0_05,
    Lit.zero, Lit.d50, Lit.zero, Lit.zero, Lit.zero, Lit.zero, Lit.zero, Lit.zero, Lit.zero]

/-- `PHI[k]`, the upper bounds (R21). -/
def phi : Vector F32 18 :=
  #v[Lit.d1, Lit.d1, Lit.d1, Lit.d1, Lit.d30, Lit.d0_95, Lit.d0_8, Lit.d3, Lit.d2,
    Lit.d1, Lit.d1500, Lit.d0_95, Lit.d0_8, Lit.d1, Lit.d10, Lit.d1, Lit.d1, Lit.d1]

/-- `PDEF[k]`, the defaults (R21). -/
def pdef : Vector F32 18 :=
  #v[Lit.d0_5, Lit.d0_5, Lit.d0_5, Lit.d0_5, Lit.d6, Lit.d0_7, Lit.d0_3, Lit.d0_5, Lit.d0_3,
    Lit.zero, Lit.d400, Lit.d0_5, Lit.d0_3, Lit.d0_3, Lit.d2, Lit.d0_4, Lit.d0_3, Lit.d0_5]

/-- `clampP(k, v)`: a NaN gives the default (R22). -/
def clampP (k : ParamIx) (v : F32) : F32 :=
  if isNan v then pdef[k]
  else if flt v plo[k] then plo[k]
  else if fgt v phi[k] then phi[k]
  else v

end Sys2Proof.Machine
end

