-- ==== Sys2Proof/Machine/State.lean ====
section
/-! DEFINITION. The state of the core: every element of 10_state.md R31 to R50, the port queues of
30_encoding.md R90, and the state after power-on reset (R51, 70_reset_and_hazards.md R255). -/

namespace Sys2Proof.Machine

/-- A memory of 32-bit words: (word address, word) pairs, addresses strictly rising. The core's
smallest addressable unit is the word (R70, R78), so a cell is a word and not a byte (log 14). -/
abbrev Cells := List (Nat × Word)

/-- One FDN delay line of one channel (R44, R45): its RAM, cursor, LFO phase and damper states. -/
@[ext]
structure Line where
  buf : Cells
  w : Nat
  ph : F32
  d1 : F32
  d2 : F32
  deriving DecidableEq, Repr

/-- One tap of the vanishing delay (R47). -/
@[ext]
structure Tap where
  gain : F32
  target : F32
  timer : U32
  dph : F32
  dlp : F32
  deriving DecidableEq, Repr

/-- The processing state of one channel (R42 to R49). -/
@[ext]
structure Channel where
  hp : F32
  x1 : F32
  x2 : F32
  y1 : F32
  y2 : F32
  env : F32
  envOut : F32
  lines : Vector Line 8
  vbuf : Cells
  wv : Nat
  taps : Vector Tap 3
  rng : U32
  dx1 : F32
  dy1 : F32
  deriving DecidableEq, Repr

/-- The configuration registers, written by `PREPARE` only (R38 to R41). -/
@[ext]
structure Conf where
  fs : F32
  maxblk : U32
  csm : F32
  chp : F32
  catt : F32
  crel : F32
  b0 : F32
  b1 : F32
  b2 : F32
  a1 : F32
  a2 : F32
  len : Vector Nat 8
  guard : Nat
  nbuf : Vector Nat 8
  nv : Nat
  driftAmp : F32
  deriving DecidableEq, Repr

/-- A transaction on the `MEM` port (R71, R90). -/
inductive MemReq where
  | load (a : Word)
  | store (a w : Word)
  deriving DecidableEq, Repr

/-- A transaction the audio host has presented on `MEM` and the core has not served yet. `after` says how
many of the words waiting on `CMD` the host had sent before it: the order of the host's own actions on
its two ports, which the issue of a command rests on (R80, item 2; log 27). -/
structure MemTurn where
  req : MemReq
  after : Nat
  deriving DecidableEq, Repr

/-- The state of the machine. `cfg` is the data of the instance (R8); `sched` and `por` are the model's
own counters for free values (log 9, log 7). -/
@[ext]
structure State where
  cfg : Cfg
  prm : Vector F32 18
  tgt : Vector F32 18
  sm : Vector F32 18
  status : U32
  busy : Bool
  sidx : Nat
  conf : Conf
  chL : Channel
  chR : Channel
  iobL : Cells
  iobR : Cells
  cmd : List Word
  ctl : List Word
  rsp : List Word
  mem : List MemTurn
  memOut : List Word
  sched : Nat
  por : Nat
  deriving DecidableEq, Repr

/-- Why the machine stops with a fault: never. The core has no traps, a malformed command sets a sticky
flag and the core keeps running (60_exceptions.md R230, R231), so there is no constructor (log 15). -/
inductive Fault where
  deriving DecidableEq, Repr

/-- Why the model has no meaning for a step. -/
inductive Refusal where
  /-- Raised by an arm of `exec` for an instruction without a meaning: no arm does. Safe. -/
  | notModelled (mnemonic : String)
  /-- Raised by `step` when `cfg` violates a constraint of R8: V13 asks the model to refuse. Safe. -/
  | badConfig
  deriving DecidableEq, Repr

/-- A delay line after power-on: unspecified (R51); the values are the model's (log 5, log 6). -/
def Line.reset : Line := ⟨[], 0, Lit.zero, Lit.zero, Lit.zero⟩

/-- A tap after power-on: unspecified (R51); the values are the model's (log 5). -/
def Tap.reset : Tap := ⟨Lit.zero, Lit.zero, 0#32, Lit.zero, Lit.zero⟩

/-- A channel after power-on: `ENVOUT` is `+0.0` (R51, R255), the rest is unspecified and the model's
(log 5, log 6). -/
def Channel.reset : Channel where
  hp := Lit.zero
  x1 := Lit.zero
  x2 := Lit.zero
  y1 := Lit.zero
  y2 := Lit.zero
  env := Lit.zero
  envOut := Lit.zero
  lines := #v[Line.reset, Line.reset, Line.reset, Line.reset, Line.reset, Line.reset, Line.reset,
    Line.reset]
  vbuf := []
  wv := 0
  taps := #v[Tap.reset, Tap.reset, Tap.reset]
  rng := 0#32
  dx1 := Lit.zero
  dy1 := Lit.zero

/-- The configuration registers after power-on: unspecified (R51); the values are the model's
(log 5). -/
def Conf.reset : Conf where
  fs := Lit.zero
  maxblk := 0#32
  csm := Lit.zero
  chp := Lit.zero
  catt := Lit.zero
  crel := Lit.zero
  b0 := Lit.zero
  b1 := Lit.zero
  b2 := Lit.zero
  a1 := Lit.zero
  a2 := Lit.zero
  len := #v[0, 0, 0, 0, 0, 0, 0, 0]
  guard := 0
  nbuf := #v[0, 0, 0, 0, 0, 0, 0, 0]
  nv := 0
  driftAmp := Lit.zero

/-- The state after a power-on reset of an instance with configuration `cfg` (R255, R51): `STATUS`,
`BUSY`, `PRM`, `ENVOUT` and the empty FIFOs are the spec's; every other value is unspecified there
and the model's here (log 5, log 6, log 7, log 19). `por` numbers the power-on. `sched` counts the free choices drawn so far:
DESIGN CHOICE, a power-on does not set it back, so that no draw is made twice (log 8, log 9). -/
def State.porState (cfg : Cfg) (por sched : Nat) : State where
  cfg := cfg
  prm := pdef
  tgt := tab18 fun _ => Lit.zero
  sm := tab18 fun _ => Lit.zero
  status := 0#32
  busy := false
  sidx := 0
  conf := Conf.reset
  chL := Channel.reset
  chR := Channel.reset
  iobL := []
  iobR := []
  cmd := []
  ctl := []
  rsp := []
  mem := []
  memOut := []
  sched := sched
  por := por

/-- The machine right after reset, with the default `CFG` of R8: the first power-on, nothing drawn
(log 7, log 9). -/
def State.reset : State := State.porState Cfg.default 0 0

end Sys2Proof.Machine
end

