-- ==== Sys2Proof/Machine/Flags.lean ====
section
/-! DEFINITION. The `STATUS` register: its bits (10_state.md R37), the flag masks (60_exceptions.md
R239) and every flag computation of the commands. -/

namespace Sys2Proof.Machine

/-- `STATUS.PREPARED`, bit 0 (R37). -/
def maskPrepared : U32 := 0x00000001#32

/-- `F_BADOP`, bit 8 (R232). -/
def maskBadOp : U32 := 0x00000100#32

/-- `F_NOTPREP`, bit 9 (R233). -/
def maskNotPrep : U32 := 0x00000200#32

/-- `F_BADFS`, bit 10 (R234). -/
def maskBadFs : U32 := 0x00000400#32

/-- `F_BADBLK`, bit 11 (R235). -/
def maskBadBlk : U32 := 0x00000800#32

/-- `F_BADLEN`, bit 12 (R236). -/
def maskBadLen : U32 := 0x00001000#32

/-- `F_BADIDX`, bit 13 (R237). -/
def maskBadIdx : U32 := 0x00002000#32

/-- `F_BADADDR`, bit 14 (R238). -/
def maskBadAddr : U32 := 0x00004000#32

/-- The reserved bits of `STATUS`, read as 0 (R37). -/
def maskReserved : U32 := 0xFFFF80FE#32

/-- `STATUS.PREPARED = 1`. -/
def State.prepared (s : State) : Bool := s.status &&& maskPrepared == maskPrepared

/-- Is the sample rate legal: a NaN, an infinity, zero and a negative rate are not (R112)? -/
def fsLegal (g : Cfg) (fs : F32) : Bool := fge fs g.fsMin && fle fs g.fsMax

/-- Is the maximum block size legal (R112)? The comparison is unsigned (R26). -/
def maxblkLegal (g : Cfg) (maxblk : U32) : Bool :=
  decide (1 ≤ maxblk.toNat) && decide (maxblk.toNat ≤ g.iobufCap)

/-- The flags a `PREPARE` raises, both checks always made; 0 if it is legal (R112). -/
def prepareFlags (g : Cfg) (fs : F32) (maxblk : U32) : U32 :=
  (if fsLegal g fs then 0#32 else maskBadFs) ||| (if maxblkLegal g maxblk then 0#32 else maskBadBlk)

/-- The flag a `PBLOCK` of `n` pairs raises, the first that applies; 0 if it is legal (R120). -/
def pblockFlags (s : State) (n : Nat) : U32 :=
  if !s.prepared then maskNotPrep
  else if n > s.conf.maxblk.toNat then maskBadLen
  else 0#32

/-- The constraints of the table of R8 on the data of an instance. -/
def cfgOk (g : Cfg) : Bool :=
  fgt g.fsMin Lit.d600 && fge g.fsMax g.fsMin && flt g.fsMax Lit.twoPow23 &&
  decide (1 ≤ g.iobufCap) && decide (g.iobufCap < 2 ^ 24) &&
  g.fdnBase.toList.all (fun b => decide (141 ≤ b) && decide (b ≤ 65535)) &&
  fge (fmul Lit.d0_95 g.kHigh) Lit.zero && flt (fmul Lit.d0_95 g.kHigh) Lit.d1 &&
  fge (fmul Lit.d0_8 g.kLow) Lit.zero && flt (fmul Lit.d0_8 g.kLow) Lit.d1 &&
  fge g.driftDepthMs Lit.zero && isFinite g.driftDepthMs &&
  fge g.degK Lit.zero && flt g.degK Lit.d1 &&
  fgt g.degThresh Lit.zero && flt g.degThresh Lit.d1

end Sys2Proof.Machine
end

