-- ==== Sys2Proof/Machine/Operands.lean ====
section
/-! DEFINITION. Every operand form: the parameter index of `WRPARAM`, the channel of `RDENV`, and the
address map of the `MEM` port (30_encoding.md R95, 20_memory.md R71). -/

namespace Sys2Proof.Machine

/-- The parameter an index names; 18 and above name none (R95, R237). -/
def paramOf (k : Nat) : Option ParamIx := if h : k < 18 then some ⟨k, h⟩ else none

/-- The word of `IOBUF` a `MEM` word address selects: left, then right, then nothing (R71). -/
def memTarget (g : Cfg) (a : Word) : Option (Chan × Nat) :=
  if a.toNat < g.iobufCap then some (.left, a.toNat)
  else if a.toNat < 2 * g.iobufCap then some (.right, a.toNat - g.iobufCap)
  else none

/-- The state of a channel. -/
def State.chan (s : State) : Chan → Channel
  | .left => s.chL
  | .right => s.chR

/-- The state with a channel replaced. -/
def State.setChan (s : State) (c : Chan) (x : Channel) : State :=
  match c with
  | .left => { s with chL := x }
  | .right => { s with chR := x }

/-- `IOBUF[ch]`. -/
def State.iob (s : State) : Chan → Cells
  | .left => s.iobL
  | .right => s.iobR

/-- The state with `IOBUF[ch]` replaced. -/
def State.setIob (s : State) (c : Chan) (m : Cells) : State :=
  match c with
  | .left => { s with iobL := m }
  | .right => { s with iobR := m }

end Sys2Proof.Machine
end

