-- ==== Sys2Proof/Machine/Ops.lean ====
section
/-! DEFINITION. The named operations over memories, registers and ports: reading and writing a word
(20_memory.md R70 to R78), raising a fault (60_exceptions.md R231), what the hosts may do while a
command is in flight (20_memory.md R75, R79, R80), and the frame of a command (40_host_commands.md
R110, 30_encoding.md R98). -/

namespace Sys2Proof.Machine

/-! ### Memories -/

/-- The word listed at an address, if one is. -/
def lookupCell : Cells → Nat → Option Word
  | [], _ => none
  | (b, v) :: m, a => if a = b then some v else lookupCell m a

/-- Lists a word at an address, in its place. -/
def insertCell (a : Nat) (v : Word) : Cells → Cells
  | [] => [(a, v)]
  | (b, u) :: m =>
    if a < b then (a, v) :: (b, u) :: m
    else if a = b then (a, v) :: m
    else (b, u) :: insertCell a v m

/-- Takes an address off the list. -/
def eraseCell (a : Nat) : Cells → Cells
  | [] => []
  | (b, u) :: m => if a = b then m else (b, u) :: eraseCell a m

/-- Every address of the list is above `a`. -/
def Memory.above (a : Nat) (m : Cells) : Bool := m.all fun c => decide (a < c.1)

/-- The canonical form of `IOBUF`: addresses strictly rising. An unlisted word holds no value (R52), so
no listed word equals it. -/
def Memory.wf : Cells → Bool
  | [] => true
  | (a, _) :: m => Memory.above a m && Memory.wf m

/-- The canonical form of a delay RAM: addresses strictly rising and no listed word `+0.0`, which is
what an unlisted word reads as (log 6). -/
def Memory.ramWf (m : Cells) : Bool := Memory.wf m && m.all fun c => c.2 != Lit.zero

/-- `MemRead` of a delay RAM (R70): an unlisted word is `+0.0`, the cleared value (R45, R46; log 6). -/
def ramRead (m : Cells) (a : Nat) : F32 := (lookupCell m a).getD Lit.zero

/-- `MemWrite` of a delay RAM (R70). -/
def ramWrite (m : Cells) (a : Nat) (v : F32) : Cells :=
  if v = Lit.zero then eraseCell a m else insertCell a v m

/-- `MemWrite` of `+0.0` to the words `0` to `n - 1` (R258). -/
def ramClear (n : Nat) (m : Cells) : Cells := m.filter fun c => decide (n ≤ c.1)

/-- `MemRead(IOBUF[ch], i)`: a word nobody has written is a free value (R52, R279; log 7). -/
def State.ioRead (s : State) (c : Chan) (i : Nat) : Word :=
  (lookupCell (s.iob c) i).getD (Config.iobufPor s.por c i)

/-- `MemWrite(IOBUF[ch], i, w)`. -/
def State.ioWrite (s : State) (c : Chan) (i : Nat) (w : Word) : State :=
  s.setIob c (insertCell i w (s.iob c))

/-- `Interp(buf, w, N, d)`: the interpolated read at delay `d` behind the cursor `w` (R74). -/
def interp (buf : Cells) (w n : Nat) (d : F32) : F32 :=
  let di := toNat (ffloor d)
  let df := fsub d (toF32 di)
  let a := ramRead buf (residue ((w : Int) - di) n)
  let b := ramRead buf (residue ((w : Int) - di - 1) n)
  fadd (fmul a (fsub Lit.d1 df)) (fmul b df)

/-! ### Faults and free values -/

/-- `raise Fault(F)`: the one fault primitive, a sticky flag and nothing else (R231). -/
def raiseFault (f : U32) (s : State) : State := { s with status := s.status ||| f }

/-- The state after a free choice has been drawn (log 9). -/
def State.drawn (s : State) : State := { s with sched := s.sched + 1 }

/-! ### What the hosts do -/

/-- `WRPARAM k, value`: one atomic store to `PRM[k]`, any bit pattern, or `F_BADIDX` (R126). -/
def writeParam (k : Nat) (v : F32) (s : State) : State :=
  match paramOf k with
  | some p => { s with prm := s.prm.set p v }
  | none => raiseFault maskBadIdx s

/-- A `MEM` transaction (R71): a load answers a word, a store replaces one; outside `IOBUF` the store
is dropped, the load answers a free word (U4, log 8), and `F_BADADDR` is set (R238). The core does
not look at `BUSY` (R75). -/
def memAccess (r : MemReq) (s : State) : State :=
  match r with
  | .load a =>
    match memTarget s.cfg a with
    | some (c, i) => { s with memOut := s.memOut ++ [s.ioRead c i] }
    | none =>
      raiseFault maskBadAddr { s.drawn with memOut := s.memOut ++ [Config.freeWord s.sched] }
  | .store a w =>
    match memTarget s.cfg a with
    | some (c, i) => s.ioWrite c i w
    | none => raiseFault maskBadAddr s

/-- Is a `MEM` transaction presented? -/
def State.memReady (s : State) : Bool := !s.mem.isEmpty

/-- Is a whole command waiting on `CTL`? -/
def State.ctlReady (s : State) : Bool := (takeCommand .ctl s.ctl).isSome

/-- Has every `MEM` transaction the audio host presented before it issued the next command of `CMD` been
served? A command is issued when its last word is sent (R91). -/
def State.memBefore (s : State) : Bool :=
  s.mem.all fun t => decide (cmdLength (s.cmd.headD 0) ≤ t.after)

/-- May a command be taken from `CMD`: a whole one is waiting, none is in flight (R110), and what the
audio host did on `MEM` before it issued the command has happened (R80, item 2)? -/
def State.cmdReady (s : State) : Bool :=
  (takeCommand .cmd s.cmd).isSome && !s.busy && s.memBefore

/-- The state whose next command has been taken off `CMD`, `rest` being the words after it: the
transactions still waiting follow that many words less. -/
def State.tookCmd (rest : List Word) (s : State) : State :=
  { s with
    cmd := rest
    mem := s.mem.map fun t => { t with after := t.after - (s.cmd.length - rest.length) } }

/-- No host waits to act on `MEM` or `CTL`. -/
def State.quiet (s : State) : Bool := !s.memReady && !s.ctlReady

/-- The effect of what the decoder reads on `CTL`: `WRPARAM`, or `F_BADOP` (R96). No other command is
legal there (R97), so the middle arm is never taken. -/
def ctlEffect : Decoded → State → State
  | .legal (.wrparam k v), s => writeParam k v s
  | .legal _, s => s
  | .illegal _, s => raiseFault maskBadOp s

/-- Serves one `MEM` transaction, if one is presented. -/
def serveMem (s : State) : State :=
  match s.mem with
  | [] => s
  | r :: rs => memAccess r.req { s with mem := rs }

/-- Takes one command from `CTL`, if a whole one waits (R110: independently of `BUSY`). -/
def serveCtl (s : State) : State :=
  match takeCommand .ctl s.ctl with
  | none => s
  | some (d, rest) => ctlEffect d { s with ctl := rest }

/-- One action of a host: which host, if both wait, is free (log 9). -/
def hostAct (s : State) : State :=
  if s.memReady && s.ctlReady then
    (if Config.pick s.sched % 2 = 0 then serveMem s.drawn else serveCtl s.drawn)
  else if s.memReady then serveMem s
  else serveCtl s

/-- `n` actions of the hosts. -/
def hostActs : Nat → State → State
  | 0, s => s
  | n + 1, s => hostActs n (hostAct s)

/-- An interleaving point of a command in flight: the hosts that wait act, any number of times, the
number being free (R75, R79, R80; log 9, log 10). -/
def hostPoint (s : State) : State :=
  if s.quiet then s else hostActs (Config.pick s.sched) s.drawn

/-! ### The snapshot of the parameters -/

/-- Which of `n` remaining reads comes next: free where a host could tell (R79, U5; log 9). -/
def latchChoice (s : State) (n : Nat) : Nat := if s.quiet then 0 else Config.pick s.sched % n

/-- The state after that choice. -/
def latchDrawn (s : State) : State := if s.quiet then s else s.drawn

/-- `TGT[k] <- clampP(k, PRM[k])` (R131). -/
def latchOne (k : ParamIx) (s : State) : State := { s with tgt := s.tgt.set k (clampP k s.prm[k]) }

/-- Reads of `PRM` for the parameters `ks`, at most `n` of them, in a free order, each read atomic, the
hosts acting before each (R79). -/
def latchFrom : Nat → List ParamIx → State → State
  | 0, _, s => s
  | n + 1, ks, s =>
    let h := hostPoint s
    let j := latchChoice h ks.length
    match ks[j]? with
    | none => h
    | some k => latchFrom n (ks.eraseIdx j) (latchOne k (latchDrawn h))

/-- The 18 reads of `PRM` into `TGT`, each made once (R79, R131, R258). -/
def latchAll (s : State) : State := latchFrom 18 allParams s

/-! ### The clearing sequence -/

/-- A delay line after the clearing sequence (R258), `n` its `NBUF[i]`. -/
def Line.cleared (n : Nat) (l : Line) : Line :=
  ⟨ramClear n l.buf, 0, Lit.zero, Lit.zero, Lit.zero⟩

/-- Eight values from a function of the line index. -/
def tab8 {α : Type} (f : Fin 8 → α) : Vector α 8 := #v[f 0, f 1, f 2, f 3, f 4, f 5, f 6, f 7]

/-- Three values from a function of the tap index. -/
def tab3 {α : Type} (f : Fin 3 → α) : Vector α 3 := #v[f 0, f 1, f 2]

/-- A channel after the clearing sequence (R258). -/
def Channel.cleared (k : Conf) (seed : U32) (c : Channel) : Channel where
  hp := Lit.zero
  x1 := Lit.zero
  x2 := Lit.zero
  y1 := Lit.zero
  y2 := Lit.zero
  env := Lit.zero
  envOut := Lit.zero
  lines := tab8 fun i => Line.cleared k.nbuf[i] c.lines[i]
  vbuf := ramClear k.nv c.vbuf
  wv := 0
  taps := tab3 fun _ => ⟨Lit.zero, Lit.zero, 0#32, Lit.zero, Lit.zero⟩
  rng := seed
  dx1 := Lit.zero
  dy1 := Lit.zero

/-- `SM[k] <- TGT[k]` for all `k`, the snap of the smoother (R135, R258). -/
def snapSmoother (s : State) : State := { s with sm := s.tgt }

/-- Both channels cleared with the geometry in force (R258). -/
def clearChannels (s : State) : State :=
  { s with
    chL := s.chL.cleared s.conf s.cfg.seedL
    chR := s.chR.cleared s.conf s.cfg.seedR }

/-- `ClearAll()` (R258). -/
def clearAll (s : State) : State := clearChannels (snapSmoother (latchAll s))

/-! ### The frame of a command on `CMD` -/

/-- Taking a command sets `BUSY` (R110). -/
def beginCommand (s : State) : State := { s with busy := true }

/-- The command's end: `BUSY` clears and its one response word goes to `RSP` (R98, R110; log 16). -/
def endCommand (w : Word) (s : State) : State := { s with busy := false, rsp := s.rsp ++ [w] }

/-- A command on `CMD`: `BUSY`, its body, what concurrent hosts still do before the response (U6), the
response word read from the state then (R98). -/
def runCommand (body : State → State) (response : State → Word) (s : State) : State :=
  let t := hostPoint (body (beginCommand s))
  endCommand (response t) t

/-- The response of every command but a legal `RDENV`: `STATUS` after the command's effects (R98). -/
def statusWord (s : State) : Word := s.status

/-- An illegal encoding taken from `CMD`: `F_BADOP`, nothing else, and a response (R96, R232). -/
def illegalCommand (s : State) : State := runCommand (raiseFault maskBadOp) statusWord s

end Sys2Proof.Machine
end

