-- ==== Sys2Proof/Machine/Smoother.lean ====
section
/-! DEFINITION. ParameterSmoother: `uLATCH` and `uSMOOTH` (41_parameter_smoother.md). -/

namespace Sys2Proof.Machine

/-- `onepole(y, x, c)`, the form of every one-pole but the FDN dampers (00_scope.md R19). -/
def onepole (y x c : F32) : F32 := fadd y (fmul (fsub x y) (fsub Lit.d1 c))

/-- `uLATCH()` (R131): the snapshot of `PRM` into `TGT`, clamped. -/
def uLatch (s : State) : State := latchAll s

/-- The smoothed file after one step toward `tgt` (R133). -/
def smoothed (csm : F32) (tgt sm : Vector F32 18) : Vector F32 18 :=
  tab18 fun k => onepole sm[k] tgt[k] csm

/-- `uSMOOTH()` (R133). -/
def uSmooth (s : State) : State := { s with sm := smoothed s.conf.csm s.tgt s.sm }

end Sys2Proof.Machine
end

