-- ==== Sys2Proof/Machine/Conditioner.lean ====
section
/-! DEFINITION. InputConditioner: `uCOND` (42_input_conditioner.md). -/

namespace Sys2Proof.Machine

/-- Stage (a), the state: `HP` after the input `x` (R141). -/
def condHp (k : Conf) (c : Channel) (x : F32) : F32 := onepole c.hp x k.chp

/-- Stage (a), the corrected signal: the input minus the updated state, scaled (R141). -/
def condCor (k : Conf) (sm : Vector F32 18) (c : Channel) (x : F32) : F32 :=
  fsub x (fmul sm[piezoCorrect] (condHp k c x))

/-- Stage (b), the biquad in direct form I on the corrected signal `cor` (R142). -/
def condBiquad (k : Conf) (c : Channel) (cor : F32) : F32 :=
  fsub (fsub (fadd (fadd (fmul k.b0 cor) (fmul k.b1 c.x1)) (fmul k.b2 c.x2)) (fmul k.a1 c.y1))
    (fmul k.a2 c.y2)

/-- Stage (b), the cross-fade and the clamp to ±10 (R143). -/
def condMix (sm : Vector F32 18) (cor bq : F32) : F32 :=
  clamp (fadd (fmul cor (fsub Lit.d1 sm[bodyResonance])) (fmul bq sm[bodyResonance]))
    Lit.n10 Lit.d10

/-- Stage (c), the brightness gain and the clamp to ±1 (R144). -/
def condOut (sm : Vector F32 18) (mix : F32) : F32 :=
  clamp (fmul mix (fadd Lit.d1 (fmul sm[brightness] Lit.d0_3))) Lit.n1 Lit.d1

/-- `uCOND(ch, x)` (R140): the channel with its filter state and shifted history, and the conditioned
sample. -/
def uCond (k : Conf) (sm : Vector F32 18) (c : Channel) (x : F32) : Channel × F32 :=
  let cor := condCor k sm c x
  let bq := condBiquad k c cor
  ({ c with hp := condHp k c x, x2 := c.x1, x1 := cor, y2 := c.y1, y1 := bq },
    condOut sm (condMix sm cor bq))

end Sys2Proof.Machine
end

