-- ==== Sys2Proof/Machine/DcBlock.lean ====
section
/-! DEFINITION. DCBlocker: `uDCB` (46_dc_blocker.md). -/

namespace Sys2Proof.Machine

/-- `uDCB(ch, x)` (R210): the channel with its previous input and output, and the DC-blocked wet
sample. -/
def uDcb (c : Channel) (x : F32) : Channel × F32 :=
  let y := fadd (fsub x c.dx1) (fmul Lit.d0_995 c.dy1)
  ({ c with dx1 := x, dy1 := y }, y)

end Sys2Proof.Machine
end

