-- ==== Sys2Proof/Machine/Num.lean ====
section
/-! DEFINITION. `CFG.NUM`: the five functions the spec does not fix to the last bit, and the named
properties a model may assume of them (00_scope.md R17). -/

namespace Sys2Proof.Machine

/-- Five total functions on binary32 (R17). -/
structure NumFns where
  fexp : F32 → F32
  fsin : F32 → F32
  fcos : F32 → F32
  fpow10 : F32 → F32
  fexp2 : F32 → F32

/-- `lo < y < hi`. -/
def strictlyBetween (lo hi y : F32) : Bool := flt lo y && flt y hi

/-- `lo ≤ y ≤ hi`. -/
def within (lo hi y : F32) : Bool := fle lo y && fle y hi

/-- `NUM.exp_unit`: what `fexp x` may be. -/
def expAllowed (x y : F32) : Bool :=
  if flt x Lit.zero && fge x Lit.n100 then strictlyBetween Lit.zero Lit.d1 y else true

/-- `NUM.sin_bound`: what `fsin x` may be; `fsin(+0) = +0`. -/
def sinAllowed (x y : F32) : Bool :=
  if x = Lit.zero then y == Lit.zero
  else if isFinite x then within Lit.n1 Lit.d1 y else true

/-- `NUM.cos_bound`: what `fcos x` may be. -/
def cosAllowed (x y : F32) : Bool := if isFinite x then within Lit.n1 Lit.d1 y else true

/-- `NUM.pow10_unit`: what `fpow10 x` may be. -/
def pow10Allowed (x y : F32) : Bool :=
  if fge x Lit.n30 && fle x Lit.negTwoPowNeg20 then strictlyBetween Lit.zero Lit.d1 y
  else if isFinite x && fle x Lit.zero then within Lit.zero Lit.d1 y else true

/-- `2^n` as a binary32, for `n` from 3 to 15. -/
def powerOfTwo (n : Nat) : F32 := pack false ((127 + n) * 2 ^ 23)

/-- `NUM.exp2_pos`: what `fexp2 x` may be; exact at integral arguments. -/
def exp2Allowed (x y : F32) : Bool :=
  if within Lit.d3 Lit.d15 x then
    (if feq x (toF32 (toNat (ffloor x))) then y == powerOfTwo (toNat (ffloor x))
     else within Lit.d8 Lit.d32768 y)
  else true

/-- The `CFG.NUM` of the instance: free functions kept to the properties of R17 (log 3). The property
`NUM.finite` follows from the bounds. -/
def Config.num : NumFns where
  fexp x := restrict (expAllowed x) Lit.d0_5 (Config.expRaw x)
  fsin x := restrict (sinAllowed x) Lit.zero (Config.sinRaw x)
  fcos x := restrict (cosAllowed x) Lit.zero (Config.cosRaw x)
  fpow10 x := restrict (pow10Allowed x) Lit.d0_5 (Config.pow10Raw x)
  fexp2 x := restrict (exp2Allowed x) (powerOfTwo (toNat (ffloor x))) (Config.exp2Raw x)

end Sys2Proof.Machine
end

