-- ==== Sys2Proof/Machine/Reverb.lean ====
section
/-! DEFINITION. FeedbackDelayNetworkReverb: `uFDN` (44_fdn_reverb.md). -/

namespace Sys2Proof.Machine

/-- A phase advanced by `inc` and wrapped by one conditional subtraction (R164, 45 R195). -/
def phaseAdvance (ph inc : F32) : F32 :=
  if fge (fadd ph inc) Lit.d1 then fsub (fadd ph inc) Lit.d1 else fadd ph inc

/-- The LFO increment of line `i` (R164). -/
def lfoIncrement (k : Conf) (sm : Vector F32 18) (i : Nat) : F32 :=
  fdiv (fmul sm[reverbModRate]
    (fadd Lit.d1 (fmul (fmul sm[detuneAmount] (toF32 i)) Lit.d0_1))) k.fs

/-- `PH[i]` after step 1 (R164). -/
def linePhase (k : Conf) (sm : Vector F32 18) (i : Nat) (l : Line) : F32 :=
  phaseAdvance l.ph (lfoIncrement k sm i)

/-- The modulation in samples at a phase (R165). -/
def lineMod (N : NumFns) (k : Conf) (sm : Vector F32 18) (ph : F32) : F32 :=
  fdiv (fmul (fmul (N.fsin (fmul Lit.twoPi ph)) sm[reverbModDepth]) k.fs) Lit.d1000

/-- The read delay of line `i`, clamped into the buffer (R166). -/
def lineDelay (N : NumFns) (k : Conf) (sm : Vector F32 18) (i : Fin 8) (l : Line) : F32 :=
  clampIdx (fadd (toF32 k.len[i]) (lineMod N k sm (linePhase k sm i l))) Lit.d1
    (toF32 (k.nbuf[i] - 1))

/-- `r[i]`, the pre-feedback read value of line `i` (R167). -/
def lineRead (N : NumFns) (k : Conf) (sm : Vector F32 18) (i : Fin 8) (l : Line) : F32 :=
  interp l.buf l.w k.nbuf[i] (lineDelay N k sm i l)

/-- Is entry `(i, j)` of the sign matrix `+1` (R168)? -/
def hadamardPlus (i j : Nat) : Bool := popcount (i &&& j) % 2 == 0

/-- Lines 1 to 7, in order. -/
def linesAfter0 : List (Fin 8) := [1, 2, 3, 4, 5, 6, 7]

/-- Row `i` of the sign matrix on `r`, summed from `r[0]` in order, without multiplications (R169). -/
def hadamardRow (r : Vector F32 8) (i : Fin 8) : F32 :=
  linesAfter0.foldl
    (fun (acc : F32) (j : Fin 8) => if hadamardPlus i j then fadd acc r[j] else fsub acc r[j]) r[0]

/-- `fbk[i]`, the matrix output of line `i` (R169). -/
def feedback (r : Vector F32 8) (i : Fin 8) : F32 := fmul (hadamardRow r i) Lit.invSqrt8

/-- `decE`, the decay with its floor; a NaN gives 0.5 (R170). -/
def decayFloor (dec : F32) : F32 := if fge dec Lit.d0_5 then dec else Lit.d0_5

/-- `g`, the decay gain of a line of length `len` (R171). -/
def decayGain (N : NumFns) (k : Conf) (sm : Vector F32 18) (len : Nat) : F32 :=
  N.fpow10 (fdiv (fmul Lit.n3 (toF32 len)) (fmul (decayFloor sm[reverbDecay]) k.fs))

/-- A damper's blend: the new value weighted `1 − c`, the old state `c` (R173, R174). -/
def damper (state input c : F32) : F32 := fadd (fmul input (fsub Lit.d1 c)) (fmul state c)

/-- `v`, the new input of line `i` for a reverb input `x` (R172). -/
def lineInput (N : NumFns) (k : Conf) (sm : Vector F32 18) (r : Vector F32 8) (x : F32) (i : Fin 8) :
    F32 :=
  fadd (fmul (feedback r i) (decayGain N k sm k.len[i])) (fdiv x Lit.d8)

/-- Line `i` after steps 5 and 6: dampers, write-back, cursor (R172 to R175). -/
def lineNext (N : NumFns) (g : Cfg) (k : Conf) (sm : Vector F32 18) (r : Vector F32 8) (x : F32)
    (i : Fin 8) (l : Line) : Line :=
  let d1 := damper l.d1 (lineInput N k sm r x i) (fmul sm[reverbDampHigh] g.kHigh)
  let d2 := damper l.d2 d1 (fmul sm[reverbDampLow] g.kLow)
  { buf := ramWrite l.buf l.w d2
    w := (l.w + 1) % k.nbuf[i]
    ph := linePhase k sm i l
    d1 := d1
    d2 := d2 }

/-- The eight pre-feedback read values of a channel, all made before any write (R162). -/
def lineReads (N : NumFns) (k : Conf) (sm : Vector F32 18) (c : Channel) : Vector F32 8 :=
  tab8 fun i => lineRead N k sm i c.lines[i]

/-- The sum of the eight reads, left to right, scaled (R176). -/
def reverbSum (r : Vector F32 8) : F32 :=
  fmul (linesAfter0.foldl (fun (s : F32) (i : Fin 8) => fadd s r[i]) r[0]) Lit.invSqrt8

/-- `uFDN(ch, x)` (R162): the channel with its eight lines served, and the reverb output. -/
def uFdn (N : NumFns) (g : Cfg) (k : Conf) (sm : Vector F32 18) (c : Channel) (x : F32) :
    Channel × F32 :=
  let r := lineReads N k sm c
  ({ c with lines := tab8 fun i => lineNext N g k sm r x i c.lines[i] }, reverbSum r)

end Sys2Proof.Machine
end

