-- ==== Sys2Proof/Machine/Delay.lean ====
section
/-! DEFINITION. VanishingDelay: `uVDLY` and `rand` (45_vanishing_delay.md). -/

namespace Sys2Proof.Machine

/-- The generator's next state (R188): wraps modulo 2^32 (00_scope.md R26). -/
def rngNext (r : U32) : U32 := r * 1664525#32 + 1013904223#32

/-- The uniform value a generator state stands for, in `[0, 1)` (R188). -/
def uniform (r : U32) : F32 := fmul (toF32 (r.toNat / 2 ^ 8)) Lit.twoPowNeg24

/-- The target of a returning tap for a draw `u` (R191). -/
def returnTarget (u : F32) : F32 := fadd Lit.d0_3 (fmul Lit.d0_7 u)

/-- The countdown for a draw `u` (R192). -/
def countdown (fs u : F32) : U32 :=
  BitVec.ofNat 32 (toNat (ffloor (fmul (fadd Lit.d0_05 (fmul Lit.d0_35 u)) fs)))

/-- Does a re-roll from generator state `r` vanish (R191)? -/
def vanishes (vr : F32) (r : U32) : Bool := flt (uniform (rngNext r)) vr

/-- A re-roll: the tap with its new target and countdown (R191, R192). -/
def rerolled (fs vr : F32) (r : U32) (t : Tap) : Tap :=
  if vanishes vr r then
    { t with target := Lit.zero, timer := countdown fs (uniform (rngNext (rngNext r))) }
  else
    { t with
      target := returnTarget (uniform (rngNext (rngNext r)))
      timer := countdown fs (uniform (rngNext (rngNext (rngNext r)))) }

/-- The generator after a re-roll: two draws if the tap vanishes, three if it returns (R192, R194). -/
def rerolledRng (vr : F32) (r : U32) : U32 :=
  if vanishes vr r then rngNext (rngNext r) else rngNext (rngNext (rngNext r))

/-- Step 1 on a tap: re-roll when the countdown is 0, else decrement (R190). -/
def tapTick (fs vr : F32) (r : U32) (t : Tap) : Tap :=
  if t.timer = 0#32 then rerolled fs vr r t else { t with timer := t.timer - 1#32 }

/-- Step 1 on the generator (R190). -/
def tapTickRng (vr : F32) (r : U32) (t : Tap) : U32 :=
  if t.timer = 0#32 then rerolledRng vr r else r

/-- Step 2: the gain moves toward the target (R193). -/
def gainNext (gain target : F32) : F32 := fadd gain (fmul (fsub target gain) Lit.d0_001)

/-- Step 3: the drift phase (R195). -/
def driftPhase (fs dr dph : F32) : F32 := phaseAdvance dph (fdiv (fmul dr Lit.d0_1) fs)

/-- Steps 1 to 3 on a tap: everything the audio does not touch (R190 to R195). -/
def tapDrive (k : Conf) (vr dr : F32) (r : U32) (t : Tap) : Tap :=
  let u := tapTick k.fs vr r t
  { u with gain := gainNext u.gain u.target, dph := driftPhase k.fs dr u.dph }

/-- Step 4: the effective delay of a tap of ratio `ratio` at drift phase `dph` (R187, R195, R196). -/
def tapDelay (N : NumFns) (k : Conf) (ratio dt dph : F32) : F32 :=
  clampIdx (fadd (fmul ratio (fdiv (fmul dt k.fs) Lit.d1000))
    (fmul (N.fsin (fmul Lit.twoPi dph)) k.driftAmp)) Lit.d1 (toF32 (k.nv - 1))

/-- Step 5, the degrade low-pass (R199). -/
def degraded (g : Cfg) (dg dlp raw : F32) : F32 := onepole dlp raw (fmul dg g.degK)

/-- The quantiser's scale for a degrade amount (R200). -/
def quantScale (N : NumFns) (dg : F32) : F32 :=
  N.fexp2 (fsub (fsub Lit.d16 (fmul Lit.d12 dg)) Lit.d1)

/-- Step 5, the quantiser (R200). -/
def quantised (N : NumFns) (g : Cfg) (dg o : F32) : F32 :=
  if fgt dg g.degThresh then fdiv (fround (fmul o (quantScale N dg))) (quantScale N dg) else o

/-- `RATIO[t]` (R185, R186). -/
def tapRatio : Vector F32 3 := #v[Lit.d1, Lit.d0_618, Lit.d0_382]

/-- `raw`: the interpolated read of a driven tap, times its gain (R197, R198). -/
def tapRaw (N : NumFns) (k : Conf) (dt : F32) (c : Channel) (i : Fin 3) (t : Tap) : F32 :=
  fmul (interp c.vbuf c.wv k.nv (tapDelay N k tapRatio[i] dt t.dph)) t.gain

/-- A driven tap after step 5. -/
def tapFiltered (N : NumFns) (g : Cfg) (k : Conf) (sm : Vector F32 18) (dt : F32) (c : Channel)
    (i : Fin 3) (t : Tap) : Tap :=
  { t with dlp := degraded g sm[degradeAmount] t.dlp (tapRaw N k dt c i t) }

/-- Tap `i`'s turn in a sample step, from the generator state `r`: the tap after step 5 and the
generator after its draws (R185). -/
def tapTurn (N : NumFns) (g : Cfg) (k : Conf) (sm : Vector F32 18) (dt dr : F32) (c : Channel)
    (i : Fin 3) (r : U32) : Tap × U32 :=
  (tapFiltered N g k sm dt c i (tapDrive k sm[vanishRate] dr r c.taps[i]),
    tapTickRng sm[vanishRate] r c.taps[i])

/-- The average of the three tap outputs (R201). -/
def tapAverage (N : NumFns) (g : Cfg) (sm : Vector F32 18) (t0 t1 t2 : Tap) : F32 :=
  fdiv (fadd (fadd (quantised N g sm[degradeAmount] t0.dlp) (quantised N g sm[degradeAmount] t1.dlp))
    (quantised N g sm[degradeAmount] t2.dlp)) Lit.d3

/-- `uVDLY(ch, x, dt, dr)` (R185): the taps are served in the order 0, 1, 2 and share one generator
(R194); then the average is fed back and written with the input (R202), and returned (R203). -/
def uVdly (N : NumFns) (g : Cfg) (k : Conf) (sm : Vector F32 18) (c : Channel) (x dt dr : F32) :
    Channel × F32 :=
  let t0 := tapTurn N g k sm dt dr c 0 c.rng
  let t1 := tapTurn N g k sm dt dr c 1 t0.2
  let t2 := tapTurn N g k sm dt dr c 2 t1.2
  let avg := tapAverage N g sm t0.1 t1.1 t2.1
  ({ c with
      taps := #v[t0.1, t1.1, t2.1]
      rng := t2.2
      vbuf := ramWrite c.vbuf c.wv (fadd x (fmul avg sm[delayFeedback]))
      wv := (c.wv + 1) % k.nv }, avg)

end Sys2Proof.Machine
end

