-- ==== Sys2Proof/Machine/Envelope.lean ====
section
/-! DEFINITION. EnvelopeFollower: `uENV` (43_envelope_follower.md). -/

namespace Sys2Proof.Machine

/-- The pole for a rectified input `a`: attack above the envelope, else release (R155). -/
def envPole (k : Conf) (env a : F32) : F32 := if fgt a env then k.catt else k.crel

/-- `ENV` after the conditioned sample `x` (R155). -/
def envNext (k : Conf) (env x : F32) : F32 := onepole env (fabs x) (envPole k env (fabs x))

/-- `ENVOUT` for an envelope (R155). -/
def envScaled (sm : Vector F32 18) (env : F32) : F32 :=
  fmul env (fadd Lit.d0_5 (fmul sm[bowSensitivity] Lit.d0_5))

/-- `uENV(ch, x)` (R155): a side channel, it returns nothing. -/
def uEnv (k : Conf) (sm : Vector F32 18) (x : F32) (c : Channel) : Channel :=
  { c with env := envNext k c.env x, envOut := envScaled sm (envNext k c.env x) }

end Sys2Proof.Machine
end

