-- ==== Sys2Proof/Machine/Router.lean ====
section
/-! DEFINITION. SignalRouter: `chanParams`, `uROUTE` and `SampleStep` (47_signal_router.md). -/

namespace Sys2Proof.Machine

/-- The channel's delay time in milliseconds (R219). -/
def chanDelayTime (sm : Vector F32 18) : Chan → F32
  | .left => sm[delayTime]
  | .right => fmul sm[delayTime] Lit.d1_07

/-- The channel's drift amount (R219). -/
def chanDrift (sm : Vector F32 18) : Chan → F32
  | .left => sm[driftAmount]
  | .right => fmul sm[driftAmount] Lit.d1_15

/-- The output blend of a dry and a DC-blocked wet sample (R222). -/
def blend (sm : Vector F32 18) (dry w : F32) : F32 :=
  fadd (fmul dry (fsub Lit.d1 sm[masterMix])) (fmul w sm[masterMix])

/-- `uROUTE(ch, dry)` (R218): the micro-operations of a channel's turn in their fixed order, each once
(R217): the channel after them, and the output sample. -/
def uRoute (N : NumFns) (g : Cfg) (k : Conf) (sm : Vector F32 18) (ch : Chan) (c : Channel)
    (dry : F32) : Channel × F32 :=
  let cnd := uCond k sm c dry
  let dly := uVdly N g k sm (uEnv k sm cnd.2 cnd.1) cnd.2 (chanDelayTime sm ch) (chanDrift sm ch)
  let dm := fmul dly.2 sm[delayMix]
  let rv := uFdn N g k sm dly.1 (fadd cnd.2 dm)
  let w := uDcb rv.1 (fadd (fmul rv.2 sm[reverbMix]) dm)
  (w.1, blend sm dry w.2)

/-- One channel's turn of a sample step: read the word, process it, write it back (R216). The hosts may
act before each of the two accesses to `IOBUF` (R75, log 10). -/
def channelTurn (N : NumFns) (ch : Chan) (i : Nat) (s : State) : State :=
  let h := hostPoint s
  let out := uRoute N h.cfg h.conf h.sm ch (h.chan ch) (h.ioRead ch i)
  (hostPoint (h.setChan ch out.1)).ioWrite ch i out.2

/-- `SampleStep(i)`: `SIDX`, the smoother once, the left channel, the right channel (R216). -/
def sampleStep (N : NumFns) (i : Nat) (s : State) : State :=
  channelTurn N .right i (channelTurn N .left i (uSmooth { s with sidx := i }))

/-- `n` sample steps from index `i` upward (R120). -/
def sampleSteps (N : NumFns) : Nat → Nat → State → State
  | 0, _, s => s
  | n + 1, i, s => sampleSteps N n (i + 1) (sampleStep N i s)

end Sys2Proof.Machine
end

