-- ==== Sys2Proof/Machine/Setup.lean ====
section
/-! DEFINITION. The configuration registers `PREPARE` computes (40_host_commands.md R113 to R116). -/

namespace Sys2Proof.Machine

/-- `CSM`, the smoother's pole, 10 ms (R113). -/
def coefSmoother (N : NumFns) (fs : F32) : F32 := N.fexp (fdiv Lit.n1 (fmul fs Lit.d0_01))

/-- `CHP`, the conditioner's corner, 80 Hz (R113). -/
def coefHighPass (N : NumFns) (fs : F32) : F32 := N.fexp (fdiv (fneg (fmul Lit.twoPi Lit.d80)) fs)

/-- `CATT`, the envelope's attack, 1 ms (R113). -/
def coefAttack (N : NumFns) (fs : F32) : F32 := N.fexp (fdiv Lit.n1 (fmul fs Lit.d0_001))

/-- `CREL`, the envelope's release, 100 ms (R113). -/
def coefRelease (N : NumFns) (fs : F32) : F32 := N.fexp (fdiv Lit.n1 (fmul fs Lit.d0_1))

/-- The gain `A = 10^(6/40)` of the peaking filter (R114). -/
def peakA (N : NumFns) : F32 := N.fpow10 (fdiv Lit.d6 Lit.d40)

/-- `w0`, the peaking filter's angular frequency, 300 Hz (R114). -/
def peakW0 (fs : F32) : F32 := fdiv (fmul Lit.twoPi Lit.d300) fs

/-- `alpha = sin(w0) / (2·Q)`, `Q = 2` (R114). -/
def peakAlpha (N : NumFns) (fs : F32) : F32 := fdiv (N.fsin (peakW0 fs)) (fmul Lit.d2 Lit.d2)

/-- `a0`, the peaking filter's normaliser (R114). -/
def peakNorm (N : NumFns) (fs : F32) : F32 := fadd Lit.d1 (fdiv (peakAlpha N fs) (peakA N))

/-- `B0` (R114). -/
def coefB0 (N : NumFns) (fs : F32) : F32 :=
  fdiv (fadd Lit.d1 (fmul (peakAlpha N fs) (peakA N))) (peakNorm N fs)

/-- `B1` (R114). -/
def coefB1 (N : NumFns) (fs : F32) : F32 :=
  fdiv (fmul Lit.n2 (N.fcos (peakW0 fs))) (peakNorm N fs)

/-- `B2` (R114). -/
def coefB2 (N : NumFns) (fs : F32) : F32 :=
  fdiv (fsub Lit.d1 (fmul (peakAlpha N fs) (peakA N))) (peakNorm N fs)

/-- `A1` (R114). -/
def coefA1 (N : NumFns) (fs : F32) : F32 :=
  fdiv (fmul Lit.n2 (N.fcos (peakW0 fs))) (peakNorm N fs)

/-- `A2` (R114). -/
def coefA2 (N : NumFns) (fs : F32) : F32 :=
  fdiv (fsub Lit.d1 (fdiv (peakAlpha N fs) (peakA N))) (peakNorm N fs)

/-- `LEN[i]`: a base length rescaled to the sample rate (R115). -/
def lineLength (base : Nat) (fs : F32) : Nat :=
  toNat (fround (fmul (toF32 base) (fdiv fs Lit.d44100)))

/-- `GUARD`: head-room for the largest modulation, 3 ms and two samples (R115). -/
def guardLength (fs : F32) : Nat := toNat (fceil (fdiv (fmul Lit.d3 fs) Lit.d1000)) + 2

/-- `NV`: two seconds of samples (R116). -/
def delayLength (fs : F32) : Nat := toNat (fround (fmul Lit.d2 fs))

/-- `DRIFTAMP`, in samples (R116). -/
def driftAmplitude (g : Cfg) (fs : F32) : F32 := fdiv (fmul g.driftDepthMs fs) Lit.d1000

/-- The configuration registers a legal `PREPARE fs, maxblk` leaves (R111, R113 to R116). -/
def Conf.computed (N : NumFns) (g : Cfg) (fs : F32) (maxblk : U32) : Conf where
  fs := fs
  maxblk := maxblk
  csm := coefSmoother N fs
  chp := coefHighPass N fs
  catt := coefAttack N fs
  crel := coefRelease N fs
  b0 := coefB0 N fs
  b1 := coefB1 N fs
  b2 := coefB2 N fs
  a1 := coefA1 N fs
  a2 := coefA2 N fs
  len := tab8 fun i => lineLength g.fdnBase[i] fs
  guard := guardLength fs
  nbuf := tab8 fun i => lineLength g.fdnBase[i] fs + guardLength fs
  nv := delayLength fs
  driftAmp := driftAmplitude g fs

end Sys2Proof.Machine
end

