-- ==== Sys2Proof/Machine/Commands.lean ====
section
/-! DEFINITION. The meanings of the six host commands (40_host_commands.md). -/

namespace Sys2Proof.Machine

/-- The configuration registers written by a legal `PREPARE` (R111). -/
def configure (N : NumFns) (fs : F32) (maxblk : U32) (s : State) : State :=
  { s with conf := Conf.computed N s.cfg fs maxblk }

/-- `STATUS.PREPARED <- 1` (R111). -/
def markPrepared (s : State) : State := { s with status := s.status ||| maskPrepared }

/-- The body of `PREPARE` (R111, R112): faults change nothing but `STATUS`. -/
def prepareBody (N : NumFns) (fs : F32) (maxblk : U32) (s : State) : State :=
  if prepareFlags s.cfg fs maxblk ≠ 0#32 then raiseFault (prepareFlags s.cfg fs maxblk) s
  else markPrepared (clearAll (configure N fs maxblk s))

/-- The body of `RESET` (R118). -/
def resetBody (s : State) : State :=
  if !s.prepared then raiseFault maskNotPrep s else clearAll s

/-- The body of `PBLOCK n` (R120). -/
def pblockBody (N : NumFns) (n : Nat) (s : State) : State :=
  if pblockFlags s n ≠ 0#32 then raiseFault (pblockFlags s n) s
  else sampleSteps N n 0 (uLatch s)

/-- The body of `RDENV`: it writes no state and no flag (R124). -/
def rdenvBody (s : State) : State := s

/-- The response of a legal `RDENV ch`: `bitsOf(ENVOUT[ch])` (R98, R124). -/
def envWord (ch : Chan) (s : State) : Word := (s.chan ch).envOut

/-- `PREPARE fs, maxblk` (R111 to R117). -/
def execPrepare (fs : F32) (maxblk : U32) (s : State) : Host.Outcome State Fault Refusal :=
  .next (runCommand (prepareBody Config.num fs maxblk) statusWord s)

/-- `RESET` (R118). -/
def execReset (s : State) : Host.Outcome State Fault Refusal :=
  .next (runCommand resetBody statusWord s)

/-- `PBLOCK n` (R120, R121). -/
def execPblock (n : Nat) (s : State) : Host.Outcome State Fault Refusal :=
  .next (runCommand (pblockBody Config.num n) statusWord s)

/-- `PSAMPLE` (R123): exactly as `PBLOCK 1`. -/
def execPsample (s : State) : Host.Outcome State Fault Refusal :=
  .next (runCommand (pblockBody Config.num 1) statusWord s)

/-- `RDENV ch` (R124). -/
def execRdenv (ch : Chan) (s : State) : Host.Outcome State Fault Refusal :=
  .next (runCommand rdenvBody (envWord ch) s)

/-- `WRPARAM k, value` (R126): no response, `BUSY` not looked at. -/
def execWrparam (k : Nat) (value : F32) (s : State) : Host.Outcome State Fault Refusal :=
  .next (writeParam k value s)

end Sys2Proof.Machine
end

