-- ==== Sys2Proof/Machine/Dispatch.lean ====
section
/-! DEFINITION. One arm per command: which definition is its meaning. -/

namespace Sys2Proof.Machine

def exec (i : Instr) (s : State) : Host.Outcome State Fault Refusal :=
  match i with
  | .prepare fs maxblk => Sys2Proof.Machine.execPrepare fs maxblk s
  | .reset => Sys2Proof.Machine.execReset s
  | .pblock n => Sys2Proof.Machine.execPblock n s
  | .psample => Sys2Proof.Machine.execPsample s
  | .rdenv ch => Sys2Proof.Machine.execRdenv ch s
  | .wrparam k value => Sys2Proof.Machine.execWrparam k value s

end Sys2Proof.Machine
end

