-- ==== Sys2Proof/Machine/Ports.lean ====
section
/-! DEFINITION. What stands at the ports: fetching the next command, and the actions of the world
outside, which happen between two steps (60_exceptions.md R245, R246; 70_reset_and_hazards.md R255). -/

namespace Sys2Proof.Machine

/-- A port that has something for the core. -/
inductive Source where
  | mem
  | ctl
  | cmd
  deriving DecidableEq, Repr

/-- The ports that have something for the core, `MEM`, `CTL`, `CMD` in this order. -/
def State.sources (s : State) : List Source :=
  (if s.memReady then [Source.mem] else []) ++ (if s.ctlReady then [Source.ctl] else []) ++
    (if s.cmdReady then [Source.cmd] else [])

/-- The port served next, and the state after the choice: the ports are independent (R90, R242), so
where several are ready the choice is free (log 9). -/
def arbitrate (a : Source) (rest : List Source) (s : State) : Source × State :=
  match rest with
  | [] => (a, s)
  | b :: more => ((a :: b :: more).getD (Config.pick s.sched % (more.length + 2)) a, s.drawn)

/-- The next command of a port, off its queue: what it decodes to, and the state without its words. -/
def fetch (p : Port) (s : State) : Option (Decoded × State) :=
  match p with
  | .cmd => (takeCommand .cmd s.cmd).map fun t => (t.1, s.tookCmd t.2)
  | .ctl => (takeCommand .ctl s.ctl).map fun t => (t.1, { s with ctl := t.2 })

/-- What an illegal encoding does, by port: on `CTL` there is no response (R96). -/
def illegalOn (p : Port) (s : State) : State :=
  match p with
  | .cmd => illegalCommand s
  | .ctl => raiseFault maskBadOp s

/-- The actions of the hosts on the ports, and the power-on reset. -/
inductive HostAction where
  /-- The audio host puts words on `CMD` (R245). -/
  | sendCmd (ws : List Word)
  /-- The control host puts words on `CTL` (R246). -/
  | sendCtl (ws : List Word)
  /-- The audio host presents a transaction on `MEM` (R71). -/
  | access (r : MemReq)
  /-- The audio host takes the oldest response word (R98). -/
  | takeRsp
  /-- The audio host takes the oldest loaded word (R71). -/
  | takeMem
  /-- Power-on reset (R255). -/
  | powerOn
  deriving DecidableEq, Repr

/-- The state after an action of the world outside. Power-on keeps the instance, begins a new
history of unwritten `IOBUF` words (log 7) and goes on with the free choices (log 9). -/
def State.host (a : HostAction) (s : State) : State :=
  match a with
  | .sendCmd ws => { s with cmd := s.cmd ++ ws }
  | .sendCtl ws => { s with ctl := s.ctl ++ ws }
  | .access r => { s with mem := s.mem ++ [⟨r, s.cmd.length⟩] }
  | .takeRsp => { s with rsp := s.rsp.tail }
  | .takeMem => { s with memOut := s.memOut.tail }
  | .powerOn => State.porState s.cfg (s.por + 1) s.sched

/-- Does the head word of an instruction belong to `CTL` (R94)? -/
def onCtl (ws : List Word) : Bool := opOf (ws.headD 0) == 0x10

end Sys2Proof.Machine
end

