-- ==== Sys2Proof/Machine/Step.lean ====
section
/-! DEFINITION. One step of the machine: one command or one `MEM` transaction, as a whole (10_state.md
R36). -/

namespace Sys2Proof.Machine

/-- Takes the next command of a port and runs it; nothing happens without one. -/
def commandTurn (p : Port) (s : State) : Host.Outcome State Fault Refusal :=
  match fetch p s with
  | none => .next s
  | some (.legal i, t) => exec i t
  | some (.illegal _, t) => .next (illegalOn p t)

/-- Serves one port. -/
def serve (src : Source) (s : State) : Host.Outcome State Fault Refusal :=
  match src with
  | .mem => .next (serveMem s)
  | .ctl => commandTurn .ctl s
  | .cmd => commandTurn .cmd s

/-- One step: without anything at its ports the core is idle and nothing changes (R257, log 12);
otherwise one port is served. An instance that breaks a constraint of R8 is refused (V13, log 13). -/
def step (s : State) : Host.Outcome State Fault Refusal :=
  match s.sources with
  | [] => .next s
  | a :: rest =>
    if cfgOk s.cfg then serve (arbitrate a rest s).1 (arbitrate a rest s).2
    else .refused .badConfig

/-- `s` with an instruction's words at the head of the port it belongs to and nothing else waiting, so
that the very next step runs it (log 11). -/
def State.withFetchWord (s : State) (nbits w : Nat) : State :=
  let ws := tableWords nbits w
  if onCtl ws then { s with ctl := ws, cmd := [], mem := [] }
  else { s with cmd := ws, ctl := [], mem := [], busy := false }

end Sys2Proof.Machine
end

