-- ==== Sys2Proof/Safety.lean ====
section
/-! DEFINITION. What claims are stated in: the invariant of a run, and the relations between two states
that the noninterference claims use. -/

namespace Sys2Proof.Machine

/-- The cursors of a channel point into the buffers in use (10_state.md R53). -/
structure CursorsInUse (k : Conf) (c : Channel) : Prop where
  line : ∀ i : Fin 8, c.lines[i].w < k.nbuf[i]
  delay : c.wv < k.nv

/-- Every delay RAM of a channel is in canonical form. -/
structure RamsCanonical (c : Channel) : Prop where
  line : ∀ i : Fin 8, Memory.ramWf c.lines[i].buf = true
  delay : Memory.ramWf c.vbuf = true

/-- The invariant of a run: what holds between two steps. `cursors` and `tgt` are clauses of R53, and
`conf` gives its `NBUF[i] = LEN[i] + GUARD`: the configuration registers are those of the last
`PREPARE`. Its clause on the phases stands on the smoothed values staying in range, which no rule asserts
of binary32 (41_parameter_smoother.md R134 (d)): it is not in here. `cfg` is the premise on the instance
(V13). -/
structure State.Inv (s : State) : Prop where
  cfg : cfgOk s.cfg = true
  idle : s.busy = false
  reserved : s.status &&& maskReserved = 0#32
  iob : ∀ c, Memory.wf (s.iob c) = true
  iobBound : ∀ c, ∀ e ∈ s.iob c, e.1 < s.cfg.iobufCap
  rams : ∀ c, RamsCanonical (s.chan c)
  conf : s.prepared = true → s.conf = Conf.computed Config.num s.cfg s.conf.fs s.conf.maxblk
  legal : s.prepared = true → prepareFlags s.cfg s.conf.fs s.conf.maxblk = 0#32
  cursors : s.prepared = true → ∀ c, CursorsInUse s.conf (s.chan c)
  tgt : s.prepared = true → ∀ k : ParamIx, within plo[k] phi[k] s.tgt[k] = true

/-- `LatchPath s ks t`: from `s` to `t` by actions of the hosts and reads of exactly the parameters `ks`,
in this order (20_memory.md R79). -/
inductive LatchPath (s : State) : List ParamIx → State → Prop where
  | start : LatchPath s [] s
  | mem {ks : List ParamIx} {t : State} : LatchPath s ks t → LatchPath s ks (serveMem t)
  | ctl {ks : List ParamIx} {t : State} : LatchPath s ks t → LatchPath s ks (serveCtl t)
  | drawn {ks : List ParamIx} {t : State} : LatchPath s ks t → LatchPath s ks t.drawn
  | read {ks : List ParamIx} {t : State} (k : ParamIx) :
      LatchPath s ks t → LatchPath s (ks ++ [k]) (latchOne k t)

/-- Two channels agree on all that is not audio: cursors, phases, tap machinery, generator (R273). -/
structure SameControl (c d : Channel) : Prop where
  w : ∀ i : Fin 8, d.lines[i].w = c.lines[i].w
  ph : ∀ i : Fin 8, d.lines[i].ph = c.lines[i].ph
  wv : d.wv = c.wv
  rng : d.rng = c.rng
  gain : ∀ t : Fin 3, d.taps[t].gain = c.taps[t].gain
  target : ∀ t : Fin 3, d.taps[t].target = c.taps[t].target
  timer : ∀ t : Fin 3, d.taps[t].timer = c.taps[t].timer
  dph : ∀ t : Fin 3, d.taps[t].dph = c.taps[t].dph

/-- Two states agree on every element the table of 10_state.md R51 specifies after power-on, on `IOBUF`
and on the ports. -/
structure SameSpecified (s t : State) : Prop where
  cfg : t.cfg = s.cfg
  prm : t.prm = s.prm
  status : t.status = s.status
  busy : t.busy = s.busy
  envL : t.chL.envOut = s.chL.envOut
  envR : t.chR.envOut = s.chR.envOut
  iobL : t.iobL = s.iobL
  iobR : t.iobR = s.iobR
  cmd : t.cmd = s.cmd
  ctl : t.ctl = s.ctl
  rsp : t.rsp = s.rsp
  mem : t.mem = s.mem
  memOut : t.memOut = s.memOut
  sched : t.sched = s.sched
  por : t.por = s.por

/-- Two channels agree but for the RAM words at or beyond the lengths in use (R45, U8). -/
structure SameInUse (k : Conf) (c d : Channel) : Prop where
  hp : d.hp = c.hp
  x1 : d.x1 = c.x1
  x2 : d.x2 = c.x2
  y1 : d.y1 = c.y1
  y2 : d.y2 = c.y2
  env : d.env = c.env
  envOut : d.envOut = c.envOut
  w : ∀ i : Fin 8, d.lines[i].w = c.lines[i].w
  ph : ∀ i : Fin 8, d.lines[i].ph = c.lines[i].ph
  d1 : ∀ i : Fin 8, d.lines[i].d1 = c.lines[i].d1
  d2 : ∀ i : Fin 8, d.lines[i].d2 = c.lines[i].d2
  buf : ∀ i : Fin 8, ∀ a < k.nbuf[i], ramRead d.lines[i].buf a = ramRead c.lines[i].buf a
  vbuf : ∀ a < k.nv, ramRead d.vbuf a = ramRead c.vbuf a
  wv : d.wv = c.wv
  taps : d.taps = c.taps
  rng : d.rng = c.rng
  dx1 : d.dx1 = c.dx1
  dy1 : d.dy1 = c.dy1

/-- Two prepared states agree on all that processing may read. -/
structure SamePrepared (s t : State) : Prop where
  conf : t.conf = s.conf
  tgt : t.tgt = s.tgt
  sm : t.sm = s.sm
  chL : SameInUse s.conf s.chL t.chL
  chR : SameInUse s.conf s.chR t.chR

/-- Two states no rule can tell apart, if no rule reads an unspecified element (10_state.md R52). -/
structure SameToRules (s t : State) : Prop where
  specified : SameSpecified s t
  prepared : s.prepared = true → SamePrepared s t

end Sys2Proof.Machine
end

