-- ==== Sys2Proof/Certificates/Slice0/Obligations.lean ====
section
/-! DEFINITION. The statements for the provers. Each docstring names the rules it formalises;
OBLIGATIONS.json lists them. -/

open Sys2Proof Sys2Proof.Machine

/-! ### Decoding and encoding -/

/-- The worked encodings of R100: the words and what they decode to, and `PBLOCK 4` as bytes. -/
def Obligations.WorkedEncodingsDecode : Prop :=
  takeCommand .cmd [0x01000000#32, 0x472C4400#32, 0x00000200#32]
      = some (.legal (.prepare 0x472C4400#32 512#32), []) ∧
  takeCommand .cmd [0x02000000#32] = some (.legal .reset, []) ∧
  takeCommand .cmd [0x03000004#32] = some (.legal (.pblock 4), []) ∧
  takeCommand .cmd [0x04000000#32] = some (.legal .psample, []) ∧
  takeCommand .cmd [0x05000001#32] = some (.legal (.rdenv .right), []) ∧
  takeCommand .ctl [0x10000011#32, 0x00000000#32] = some (.legal (.wrparam 17 0x00000000#32), []) ∧
  takeCommand .ctl [0x1000000A#32, 0x43C80000#32] = some (.legal (.wrparam 10 0x43C80000#32), []) ∧
  bytesOfWord 0x03000004#32 = [0x04#8, 0x00#8, 0x00#8, 0x03#8]

/-- Decode and encode agree, all commands at all operands the encoding admits: on its own port, the
words of a well-formed command decode to it and to nothing else of the queue (R94, R95, R97). -/
def Obligations.DecodeInvertsEncode : Prop :=
  ∀ (i : Instr) (rest : List Word), i.wellFormed = true →
    takeCommand i.port (encode i ++ rest) = some (.legal i, rest)

/-- The other direction: words that decode to a command are its one encoding, on its own port
(R94, R96, R97). -/
def Obligations.LegalWordsAreEncodings : Prop :=
  ∀ (p : Port) (ws : List Word) (i : Instr) (rest : List Word),
    takeCommand p ws = some (.legal i, rest) →
      i.wellFormed = true ∧ i.port = p ∧ ws = encode i ++ rest

/-- An encoding is illegal in exactly the three cases of R96: an undefined opcode, a reserved bit set,
the wrong port. -/
def Obligations.IllegalEncodingCases : Prop :=
  ∀ (p : Port) (w0 : Word) (ext : List Word),
    (∃ why, decode p w0 ext = .illegal why) ↔
      (opOf w0 ∉ [0x01, 0x02, 0x03, 0x04, 0x05, 0x10]) ∨
      (opOf w0 ∈ [0x01, 0x02, 0x04] ∧ argOf w0 ≠ 0) ∨
      (opOf w0 = 0x05 ∧ argOf w0 / 2 ≠ 0) ∨
      (opOf w0 = 0x10 ∧ argOf w0 / 32 ≠ 0) ∨
      (opOf w0 = 0x10 ∧ p = .cmd) ∨
      (opOf w0 ∈ [0x01, 0x02, 0x03, 0x04, 0x05] ∧ p = .ctl)

/-- Framing: the opcode of the head word alone says how many words a command takes, on either port and
whether or not it is legal; a command whose words have not all arrived is not there yet (R91). -/
def Obligations.OpcodeAloneFramesCommands : Prop :=
  (∀ p, takeCommand p [] = none) ∧
  (∀ (p : Port) (w0 : Word) (ws : List Word),
    (1 + ws.length < cmdLength w0 → takeCommand p (w0 :: ws) = none) ∧
    (cmdLength w0 ≤ 1 + ws.length →
      ∃ d, takeCommand p (w0 :: ws) = some (d, (w0 :: ws).drop (cmdLength w0)))) ∧
  (∀ w0 : Word, cmdLength w0 = if opOf w0 = 0x01 then 3 else if opOf w0 = 0x10 then 2 else 1)

/-! ### Steps -/

/-- A step runs the decoded command: when one port alone has something and its next words decode to a
well-formed command, the step is `exec` of it, its words taken off the queue. That it takes one whole
command is the model's reading of R36 (DEDUCED, log 1). Serving `CMD` or `CTL` does the same with others
waiting. In the third clause every transaction waiting on `MEM` then counts as sent after that many words
less: that count is the model's own bookkeeping of the audio host's order, from R80, item 2, and R91
(DEDUCED, log 27). -/
def Obligations.StepRunsDecodedCommand : Prop :=
  ∀ (s : State) (i : Instr) (rest : List Word),
    (cfgOk s.cfg = true → s.sources = [.cmd] → takeCommand .cmd s.cmd = some (.legal i, rest) →
      step s = exec i { s with cmd := rest }) ∧
    (cfgOk s.cfg = true → s.sources = [.ctl] → takeCommand .ctl s.ctl = some (.legal i, rest) →
      step s = exec i { s with ctl := rest }) ∧
    (takeCommand .cmd s.cmd = some (.legal i, rest) →
      serve .cmd s = exec i { s with
        cmd := rest
        mem := s.mem.map fun t => { t with after := t.after - (s.cmd.length - rest.length) } }) ∧
    (takeCommand .ctl s.ctl = some (.legal i, rest) → serve .ctl s = exec i { s with ctl := rest })

/-- A step serves a port that has something, whichever where several have: nothing else happens but that
a choice has been drawn (log 9). `CMD` is not ready while a transaction waits on `MEM` that the audio host
presented before it issued the command (R80, item 2; R81; log 27). With nothing at its ports the core does
nothing on its own (R257); the step that changes nothing is the model's way to say so (log 12). -/
def Obligations.StepServesAReadyPortOrWaits : Prop :=
  ∀ s : State,
    (cfgOk s.cfg = true → s.sources ≠ [] →
      ∃ src ∈ s.sources, ∃ r, (r = s ∨ (2 ≤ s.sources.length ∧ r = s.drawn)) ∧
        step s = serve src r) ∧
    (∀ t ∈ s.mem, t.after < cmdLength (s.cmd.headD 0) → Source.cmd ∉ s.sources) ∧
    (takeCommand .cmd s.cmd = none → ∀ (r : MemReq) (ws : List Word),
      Source.cmd ∉ ((s.host (.access r)).host (.sendCmd ws)).sources) ∧
    (s.mem = [] → s.cmd = [] → s.ctl = [] → step s = .next s)

/-- An illegal encoding sets `F_BADOP` and changes nothing else; on `CMD` it answers one word, on `CTL`
none (R96, R232). -/
def Obligations.IllegalEncodingSetsBadOp : Prop :=
  ∀ (s : State) (why : Illegal) (rest : List Word), cfgOk s.cfg = true →
    (s.sources = [.cmd] → takeCommand .cmd s.cmd = some (.illegal why, rest) →
      step s = .next { s with
        cmd := rest
        status := s.status ||| 0x00000100#32
        rsp := s.rsp ++ [s.status ||| 0x00000100#32] }) ∧
    (s.sources = [.ctl] → takeCommand .ctl s.ctl = some (.illegal why, rest) →
      step s = .next { s with ctl := rest, status := s.status ||| 0x00000100#32 })

/-- The invariant holds at reset. -/
def Obligations.InvariantHoldsAtReset : Prop := State.reset.Inv

/-- Every step keeps the invariant, from every state that has it (R53). -/
def Obligations.StepKeepsInvariant : Prop :=
  ∀ s t : State, s.Inv → step s = .next t → t.Inv

/-- From a state with the invariant every step answers a next state: nothing a host sends, and no data,
stops the machine (R230, R280). -/
def Obligations.NoStepStops : Prop :=
  ∀ s : State, s.Inv → ∃ t, step s = .next t

/-- A set flag, and `PREPARED`, stays set through every step (R37, R231). -/
def Obligations.FlagsAreSticky : Prop :=
  ∀ s t : State, step s = .next t → s.status &&& t.status = s.status

/-- Power-on: `STATUS` 0, `BUSY` 0, `PRM` the defaults, `ENVOUT` `+0.0`, the FIFOs empty, on every
instance and from every state; and `State.reset` is such a state (R255). -/
def Obligations.PowerOnValues : Prop :=
  (∀ s : State, (s.host .powerOn).status = 0x00000000#32 ∧ (s.host .powerOn).busy = false ∧
    (∀ k : ParamIx, (s.host .powerOn).prm[k] = pdef[k]) ∧
    (s.host .powerOn).chL.envOut = 0x00000000#32 ∧ (s.host .powerOn).chR.envOut = 0x00000000#32 ∧
    (s.host .powerOn).cmd = [] ∧ (s.host .powerOn).ctl = [] ∧ (s.host .powerOn).rsp = []) ∧
  State.reset.status = 0x00000000#32 ∧ State.reset.busy = false ∧
  (∀ k : ParamIx, State.reset.prm[k] = pdef[k]) ∧
  State.reset.chL.envOut = 0x00000000#32 ∧ State.reset.chR.envOut = 0x00000000#32 ∧
  State.reset.cmd = [] ∧ State.reset.ctl = [] ∧ State.reset.rsp = []

/-! ### The commands, where no host acts at the same time: the whole next state -/

/-- A legal `PREPARE` (R111, R112): the registers, the cleared state, `PREPARED`, the response; every
other element is as before. -/
def Obligations.LegalPrepareCompletes : Prop :=
  ∀ (fs : F32) (maxblk : U32) (s : State), s.quiet = true →
    fge fs s.cfg.fsMin = true → fle fs s.cfg.fsMax = true →
    1 ≤ maxblk.toNat → maxblk.toNat ≤ s.cfg.iobufCap →
    exec (.prepare fs maxblk) s = .next { s with
      conf := Conf.computed Config.num s.cfg fs maxblk
      tgt := tab18 fun k => clampP k s.prm[k]
      sm := tab18 fun k => clampP k s.prm[k]
      chL := s.chL.cleared (Conf.computed Config.num s.cfg fs maxblk) s.cfg.seedL
      chR := s.chR.cleared (Conf.computed Config.num s.cfg fs maxblk) s.cfg.seedR
      status := s.status ||| 0x00000001#32
      busy := false
      rsp := s.rsp ++ [s.status ||| 0x00000001#32] }

/-- An illegal `PREPARE` sets `F_BADFS` if the rate is not in range (a NaN is not) and `F_BADBLK` if the
block size is not, both checks always made, and changes nothing else (R112, R234, R235). -/
def Obligations.IllegalPrepareOnlyFlags : Prop :=
  ∀ (fs : F32) (maxblk : U32) (s : State), s.quiet = true →
    ¬ (fge fs s.cfg.fsMin = true ∧ fle fs s.cfg.fsMax = true ∧
      1 ≤ maxblk.toNat ∧ maxblk.toNat ≤ s.cfg.iobufCap) →
    exec (.prepare fs maxblk) s = .next { s with
      status := s.status |||
        ((if fge fs s.cfg.fsMin = true ∧ fle fs s.cfg.fsMax = true then 0#32 else 0x00000400#32) |||
        (if 1 ≤ maxblk.toNat ∧ maxblk.toNat ≤ s.cfg.iobufCap then 0#32 else 0x00000800#32))
      busy := false
      rsp := s.rsp ++ [s.status |||
        ((if fge fs s.cfg.fsMin = true ∧ fle fs s.cfg.fsMax = true then 0#32 else 0x00000400#32) |||
        (if 1 ≤ maxblk.toNat ∧ maxblk.toNat ≤ s.cfg.iobufCap then 0#32 else 0x00000800#32))] }

/-- The one-pole and the peaking filter's coefficients a legal `PREPARE` computes, whatever the hosts do
meanwhile (R113, R114). -/
def Obligations.PrepareCoefficients : Prop :=
  ∀ (fs : F32) (maxblk : U32) (s : State), prepareFlags s.cfg fs maxblk = 0#32 →
    let a := Config.num.fpow10 (fdiv Lit.d6 Lit.d40)
    let w0 := fdiv (fmul Lit.twoPi Lit.d300) fs
    let alpha := fdiv (Config.num.fsin w0) (fmul Lit.d2 Lit.d2)
    let a0 := fadd Lit.d1 (fdiv alpha a)
    ∃ t, exec (.prepare fs maxblk) s = .next t ∧ t.conf.fs = fs ∧ t.conf.maxblk = maxblk ∧
      t.conf.csm = Config.num.fexp (fdiv (fneg Lit.d1) (fmul fs Lit.d0_01)) ∧
      t.conf.chp = Config.num.fexp (fdiv (fneg (fmul Lit.twoPi Lit.d80)) fs) ∧
      t.conf.catt = Config.num.fexp (fdiv (fneg Lit.d1) (fmul fs Lit.d0_001)) ∧
      t.conf.crel = Config.num.fexp (fdiv (fneg Lit.d1) (fmul fs Lit.d0_1)) ∧
      t.conf.b0 = fdiv (fadd Lit.d1 (fmul alpha a)) a0 ∧
      t.conf.b1 = fdiv (fmul (fneg Lit.d2) (Config.num.fcos w0)) a0 ∧
      t.conf.b2 = fdiv (fsub Lit.d1 (fmul alpha a)) a0 ∧
      t.conf.a1 = t.conf.b1 ∧
      t.conf.a2 = fdiv (fsub Lit.d1 (fdiv alpha a)) a0

/-- The geometry a legal `PREPARE` computes (R115, R116). -/
def Obligations.PrepareGeometry : Prop :=
  ∀ (fs : F32) (maxblk : U32) (s : State), prepareFlags s.cfg fs maxblk = 0#32 →
    ∃ t, exec (.prepare fs maxblk) s = .next t ∧
      (∀ i : Fin 8, t.conf.len[i] =
        toNat (fround (fmul (toF32 s.cfg.fdnBase[i]) (fdiv fs Lit.d44100)))) ∧
      t.conf.guard = toNat (fceil (fdiv (fmul Lit.d3 fs) Lit.d1000)) + 2 ∧
      (∀ i : Fin 8, t.conf.nbuf[i] = t.conf.len[i] + t.conf.guard) ∧
      t.conf.nv = toNat (fround (fmul Lit.d2 fs)) ∧
      t.conf.driftAmp = fdiv (fmul s.cfg.driftDepthMs fs) Lit.d1000

/-- `RESET` (R118, R233): unprepared it sets `F_NOTPREP` and changes nothing else; prepared it runs the
clearing sequence and nothing else. -/
def Obligations.ResetCompletes : Prop :=
  ∀ s : State, s.quiet = true →
    (s.prepared = false → exec .reset s = .next { s with
      status := s.status ||| 0x00000200#32
      busy := false
      rsp := s.rsp ++ [s.status ||| 0x00000200#32] }) ∧
    (s.prepared = true → exec .reset s = .next { s with
      tgt := tab18 fun k => clampP k s.prm[k]
      sm := tab18 fun k => clampP k s.prm[k]
      chL := s.chL.cleared s.conf s.cfg.seedL
      chR := s.chR.cleared s.conf s.cfg.seedR
      busy := false
      rsp := s.rsp ++ [s.status] })

/-- What the clearing sequence leaves in a channel: `+0.0` and 0 throughout, the seed, and every delay
RAM word in use `+0.0` (R258). -/
def Obligations.ClearingZeroesChannel : Prop :=
  ∀ (k : Conf) (seed : U32) (c : Channel),
    let d := c.cleared k seed
    d.hp = 0x00000000#32 ∧ d.x1 = 0x00000000#32 ∧ d.x2 = 0x00000000#32 ∧ d.y1 = 0x00000000#32 ∧
    d.y2 = 0x00000000#32 ∧ d.env = 0x00000000#32 ∧ d.envOut = 0x00000000#32 ∧
    (∀ i : Fin 8, d.lines[i].w = 0 ∧ d.lines[i].ph = 0x00000000#32 ∧
      d.lines[i].d1 = 0x00000000#32 ∧ d.lines[i].d2 = 0x00000000#32 ∧
      ∀ a < k.nbuf[i], ramRead d.lines[i].buf a = 0x00000000#32) ∧
    (∀ a < k.nv, ramRead d.vbuf a = 0x00000000#32) ∧ d.wv = 0 ∧
    (∀ t : Fin 3, d.taps[t].gain = 0x00000000#32 ∧ d.taps[t].target = 0x00000000#32 ∧
      d.taps[t].timer = 0#32 ∧ d.taps[t].dph = 0x00000000#32 ∧ d.taps[t].dlp = 0x00000000#32) ∧
    d.rng = seed ∧ d.dx1 = 0x00000000#32 ∧ d.dy1 = 0x00000000#32

/-- `PBLOCK n` that faults sets one flag, the first that applies, and changes nothing else: no latch, no
smoothing, `IOBUF` untouched (R120, R233, R236, R242). -/
def Obligations.PblockFaults : Prop :=
  ∀ (n : Nat) (s : State), s.quiet = true →
    (s.prepared = false → exec (.pblock n) s = .next { s with
      status := s.status ||| 0x00000200#32
      busy := false
      rsp := s.rsp ++ [s.status ||| 0x00000200#32] }) ∧
    (s.prepared = true → s.conf.maxblk.toNat < n → exec (.pblock n) s = .next { s with
      status := s.status ||| 0x00001000#32
      busy := false
      rsp := s.rsp ++ [s.status ||| 0x00001000#32] })

/-- A legal `PBLOCK n` latches the snapshot once, runs `n` sample steps from index 0 upward and answers
`STATUS`, which it has not changed (R120). -/
def Obligations.LegalPblockCompletes : Prop :=
  ∀ (n : Nat) (s : State), s.quiet = true → s.prepared = true → n ≤ s.conf.maxblk.toNat →
    exec (.pblock n) s = .next {
      sampleSteps Config.num n 0 { s with busy := true, tgt := tab18 fun k => clampP k s.prm[k] } with
      busy := false
      rsp := s.rsp ++ [s.status] }

/-- The frame of a legal `PBLOCK n`: outside `TGT`, `SM`, `SIDX`, the channels, the first `n` words of
each `IOBUF` and the response nothing changes; `PBLOCK 0` changes `TGT` only (R76, R121). -/
def Obligations.PblockFrame : Prop :=
  ∀ (n : Nat) (s : State), s.quiet = true → s.prepared = true → n ≤ s.conf.maxblk.toNat →
    ∃ t, exec (.pblock n) s = .next t ∧
      t.cfg = s.cfg ∧ t.prm = s.prm ∧ t.status = s.status ∧ t.conf = s.conf ∧ t.cmd = s.cmd ∧
      t.ctl = s.ctl ∧ t.mem = s.mem ∧ t.memOut = s.memOut ∧ t.sched = s.sched ∧ t.por = s.por ∧
      t.busy = false ∧ t.rsp = s.rsp ++ [s.status] ∧
      (∀ k : ParamIx, t.tgt[k] = clampP k s.prm[k]) ∧
      (∀ (c : Chan) (i : Nat), n ≤ i → t.ioRead c i = s.ioRead c i) ∧
      (n = 0 → t.sidx = s.sidx ∧ t.sm = s.sm ∧ t.chL = s.chL ∧ t.chR = s.chR ∧
        t.iobL = s.iobL ∧ t.iobR = s.iobR) ∧
      (0 < n → t.sidx = n - 1)

/-- One sample step: the smoother moves once, then each channel reads its word of `IOBUF`, processes it
and writes it back; both see the same smoothed file (R216). -/
def Obligations.SampleStepRunsBothChannels : Prop :=
  ∀ (N : NumFns) (i : Nat) (s : State), s.quiet = true →
    let sm := smoothed s.conf.csm s.tgt s.sm
    let l := uRoute N s.cfg s.conf sm .left s.chL (s.ioRead .left i)
    let r := uRoute N s.cfg s.conf sm .right s.chR (s.ioRead .right i)
    sampleStep N i s = { s with
      sidx := i
      sm := sm
      chL := l.1
      chR := r.1
      iobL := insertCell i l.2 s.iobL
      iobR := insertCell i r.2 s.iobR }

/-- `PSAMPLE` behaves exactly as `PBLOCK 1`, in every state; on a prepared core of a run it processes
one pair, since `F_BADLEN` cannot arise there (R123). -/
def Obligations.PsampleIsPblockOne : Prop :=
  (∀ s : State, exec .psample s = exec (.pblock 1) s) ∧
  (∀ s : State, s.Inv → s.quiet = true → s.prepared = true →
    exec .psample s = .next {
      sampleStep Config.num 0 { s with busy := true, tgt := tab18 fun k => clampP k s.prm[k] } with
      busy := false
      rsp := s.rsp ++ [s.status] })

/-- `RDENV ch` answers `ENVOUT[ch]` and writes no state and no flag, prepared or not (R124). -/
def Obligations.RdenvAnswersEnvelope : Prop :=
  ∀ (ch : Chan) (s : State), s.quiet = true →
    exec (.rdenv ch) s = .next { s with
      busy := false
      rsp := s.rsp ++ [(match ch with | .left => s.chL | .right => s.chR).envOut] }

/-- `WRPARAM k, value` stores the bit pattern unchanged in `PRM[k]`, or for `k > 17` sets `F_BADIDX`;
nothing else changes, there is no response, and neither `BUSY` nor other hosts matter (R126). -/
def Obligations.WrparamStoresOrFaults : Prop :=
  ∀ (k : Nat) (v : F32) (s : State),
    (∀ h : k < 18, exec (.wrparam k v) s = .next { s with prm := s.prm.set k v h }) ∧
    (18 ≤ k → exec (.wrparam k v) s = .next { s with status := s.status ||| 0x00002000#32 })

/-- A `MEM` load answers the word of the left or the right `IOBUF` its address selects, and changes
nothing; elsewhere it answers some word and sets `F_BADADDR` (R71, R238). -/
def Obligations.MemLoadReadsIobuf : Prop :=
  ∀ (s : State) (a : Word) (p : Nat) (rest : List MemTurn), cfgOk s.cfg = true → s.sources = [.mem] →
    s.mem = ⟨.load a, p⟩ :: rest →
    (a.toNat < s.cfg.iobufCap → step s = .next { s with
      mem := rest, memOut := s.memOut ++ [s.ioRead .left a.toNat] }) ∧
    (s.cfg.iobufCap ≤ a.toNat → a.toNat < 2 * s.cfg.iobufCap → step s = .next { s with
      mem := rest, memOut := s.memOut ++ [s.ioRead .right (a.toNat - s.cfg.iobufCap)] }) ∧
    (2 * s.cfg.iobufCap ≤ a.toNat → ∃ w, step s = .next { s with
      mem := rest, memOut := s.memOut ++ [w], sched := s.sched + 1,
      status := s.status ||| 0x00004000#32 })

/-- A `MEM` store replaces the one word its address selects, which then reads as stored, and every other
word of both channels reads as before; elsewhere the store is dropped and sets `F_BADADDR` (R71,
R238). -/
def Obligations.MemStoreWritesOneWord : Prop :=
  ∀ (s : State) (a w : Word) (p : Nat) (rest : List MemTurn), cfgOk s.cfg = true → s.sources = [.mem] →
    s.mem = ⟨.store a w, p⟩ :: rest →
    (∀ c i, memTarget s.cfg a = some (c, i) →
      ∃ t, step s = .next t ∧ t.ioRead c i = w ∧
        (∀ d j, (d, j) ≠ (c, i) → t.ioRead d j = s.ioRead d j) ∧
        t = { s with mem := rest, iobL := t.iobL, iobR := t.iobR }) ∧
    (a.toNat < s.cfg.iobufCap → memTarget s.cfg a = some (.left, a.toNat)) ∧
    (s.cfg.iobufCap ≤ a.toNat → a.toNat < 2 * s.cfg.iobufCap →
      memTarget s.cfg a = some (.right, a.toNat - s.cfg.iobufCap)) ∧
    (2 * s.cfg.iobufCap ≤ a.toNat → step s = .next { s with
      mem := rest, status := s.status ||| 0x00004000#32 })

/-- What the audio host stored it loads back, in two steps, with no command between: the word a read of
`IOBUF` returns is the one last written (R70). That transactions waiting on `MEM` are served in the order
presented is the model's choice (log 19). And a command issued after the store waits for it: the one step
that may come first stores the word (R80, item 2; log 27). -/
def Obligations.StoreThenLoadReturnsWord : Prop :=
  ∀ (s : State) (a w : Word) (p q : Nat), cfgOk s.cfg = true → s.ctl = [] →
    a.toNat < 2 * s.cfg.iobufCap →
    (s.mem = [⟨.store a w, p⟩, ⟨.load a, q⟩] → s.cmd = [] →
      ∃ t u, step s = .next t ∧ step t = .next u ∧ u.memOut = s.memOut ++ [w] ∧ u.mem = [] ∧
        u.status = s.status) ∧
    (s.mem = [⟨.store a w, p⟩] → p < cmdLength (s.cmd.headD 0) →
      ∃ t, step s = .next t ∧ t.cmd = s.cmd ∧ t.mem = [] ∧ t.status = s.status ∧
        ∀ c i, memTarget s.cfg a = some (c, i) → t.ioRead c i = w)

/-! ### The commands, whatever the hosts do meanwhile -/

/-- Every command on `CMD` answers exactly one word, `ENVOUT` for `RDENV` and else the `STATUS` it
leaves, and ends with `BUSY` clear; `WRPARAM` answers none (R98, R110). -/
def Obligations.OneResponsePerCommand : Prop :=
  ∀ (i : Instr) (s : State), ∃ t, exec i s = .next t ∧
    (i.port = .cmd → t.busy = false ∧ ∃ w, t.rsp = s.rsp ++ [w] ∧
      (∀ ch, i = .rdenv ch → w = (s.chan ch).envOut) ∧
      ((∀ ch, i ≠ .rdenv ch) → w = t.status)) ∧
    (i.port = .ctl → t.rsp = s.rsp)

/-- The configuration registers change at `PREPARE` only, and only at a legal one; the instance never
(R38, R83, R112). -/
def Obligations.OnlyLegalPrepareConfigures : Prop :=
  ∀ (i : Instr) (s : State), ∃ t, exec i s = .next t ∧ t.cfg = s.cfg ∧
    ((∀ fs maxblk, i = .prepare fs maxblk → prepareFlags s.cfg fs maxblk ≠ 0#32) → t.conf = s.conf)

/-- No command on `CMD` writes `PRM`: where the control host is silent it is unchanged (R31). -/
def Obligations.OnlyWrparamWritesPrm : Prop :=
  ∀ (i : Instr) (s : State), i.port = .cmd → s.ctlReady = false →
    ∃ t, exec i s = .next t ∧ t.prm = s.prm

/-- The snapshot under concurrent `WRPARAM`s: on the way from `s` to the state the latch answers, made of
actions of the hosts and of the 18 reads, each made once in some order, there is for every `k` a state `u`
in which `PRM[k]` is read, and `TGT[k]` is the clamp of what it held there (R79, R131). -/
def Obligations.SnapshotTakesValuesPrmHeld : Prop :=
  ∀ (s : State) (k : ParamIx), ∃ (before after : List ParamIx) (u : State),
    LatchPath s before u ∧ LatchPath (latchOne k u) after (uLatch s) ∧
    (before ++ k :: after).Perm allParams ∧ (uLatch s).tgt[k] = clampP k u.prm[k]

/-! ### The arithmetic helpers -/

/-- The 18 rows of the table of R21, names by index, bounds and defaults as patterns; and `clampP`: a NaN
gives the default, `+∞` the upper and `−∞` the lower bound, a value in range is returned bit for bit; the
result is always in range (R22). -/
def Obligations.ParamClampTotal : Prop :=
  ([piezoCorrect, bodyResonance, brightness, bowSensitivity, reverbDecay, reverbDampHigh, reverbDampLow,
      reverbModDepth, reverbModRate, detuneAmount, delayTime, delayFeedback, vanishRate, degradeAmount,
      driftAmount, reverbMix, delayMix, masterMix] : List ParamIx)
    = [0, 1, 2, 3, 4, 5, 6, 7, 8, 9, 10, 11, 12, 13, 14, 15, 16, 17] ∧
  plo = #v[0x00000000#32, 0x00000000#32, 0x00000000#32, 0x00000000#32, 0x3F000000#32, 0x00000000#32,
      0x00000000#32, 0x00000000#32, 0x3D4CCCCD#32, 0x00000000#32, 0x42480000#32, 0x00000000#32,
      0x00000000#32, 0x00000000#32, 0x00000000#32, 0x00000000#32, 0x00000000#32, 0x00000000#32] ∧
  phi = #v[0x3F800000#32, 0x3F800000#32, 0x3F800000#32, 0x3F800000#32, 0x41F00000#32, 0x3F733333#32,
      0x3F4CCCCD#32, 0x40400000#32, 0x40000000#32, 0x3F800000#32, 0x44BB8000#32, 0x3F733333#32,
      0x3F4CCCCD#32, 0x3F800000#32, 0x41200000#32, 0x3F800000#32, 0x3F800000#32, 0x3F800000#32] ∧
  pdef = #v[0x3F000000#32, 0x3F000000#32, 0x3F000000#32, 0x3F000000#32, 0x40C00000#32, 0x3F333333#32,
      0x3E99999A#32, 0x3F000000#32, 0x3E99999A#32, 0x00000000#32, 0x43C80000#32, 0x3F000000#32,
      0x3E99999A#32, 0x3E99999A#32, 0x40000000#32, 0x3ECCCCCD#32, 0x3E99999A#32, 0x3F000000#32] ∧
  ∀ (k : ParamIx) (v : F32),
    (isNan v = true → clampP k v = pdef[k]) ∧
    (v = 0x7F800000#32 → clampP k v = phi[k]) ∧
    (v = 0xFF800000#32 → clampP k v = plo[k]) ∧
    (flt v plo[k] = true → clampP k v = plo[k]) ∧
    (fgt v phi[k] = true → clampP k v = phi[k]) ∧
    (within plo[k] phi[k] v = true → clampP k v = v) ∧
    within plo[k] phi[k] (clampP k v) = true

/-- `clampIdx` gives a value in `[lo, hi]`, finite between finite bounds, for every input, a NaN included (R15). -/
def Obligations.IndexClampInRange : Prop :=
  ∀ x lo hi : F32, fle lo hi = true →
    within lo hi (clampIdx x lo hi) = true ∧
    (isFinite lo = true → isFinite hi = true → isFinite (clampIdx x lo hi) = true) ∧
    (isNan x = true → clampIdx x lo hi = lo) ∧
    (flt x lo = true → clampIdx x lo hi = lo) ∧
    (fgt x hi = true → clampIdx x lo hi = hi) ∧
    (within lo hi x = true → clampIdx x lo hi = x)

/-- The functions of the instance have the named properties of R17. -/
def Obligations.NumProperties : Prop :=
  (∀ x, flt x Lit.zero = true → fge x Lit.n100 = true →
    flt Lit.zero (Config.num.fexp x) = true ∧ flt (Config.num.fexp x) Lit.d1 = true) ∧
  (∀ x, isFinite x = true →
    fle Lit.n1 (Config.num.fsin x) = true ∧ fle (Config.num.fsin x) Lit.d1 = true) ∧
  Config.num.fsin Lit.zero = Lit.zero ∧
  (∀ x, isFinite x = true →
    fle Lit.n1 (Config.num.fcos x) = true ∧ fle (Config.num.fcos x) Lit.d1 = true) ∧
  (∀ x, isFinite x = true → fle x Lit.zero = true →
    fle Lit.zero (Config.num.fpow10 x) = true ∧ fle (Config.num.fpow10 x) Lit.d1 = true) ∧
  (∀ x, fle Lit.n30 x = true → fle x Lit.negTwoPowNeg20 = true →
    flt Lit.zero (Config.num.fpow10 x) = true ∧ flt (Config.num.fpow10 x) Lit.d1 = true) ∧
  (∀ x, fle Lit.d3 x = true → fle x Lit.d15 = true →
    fle Lit.d8 (Config.num.fexp2 x) = true ∧ fle (Config.num.fexp2 x) Lit.d32768 = true) ∧
  (∀ n : Nat, 3 ≤ n → n ≤ 15 → Config.num.fexp2 (toF32 n) = toF32 (2 ^ n)) ∧
  (∀ x, (flt x Lit.zero = true → fge x Lit.n100 = true → isFinite (Config.num.fexp x) = true) ∧
    (isFinite x = true → isFinite (Config.num.fsin x) = true ∧ isFinite (Config.num.fcos x) = true) ∧
    (isFinite x = true → fle x Lit.zero = true → isFinite (Config.num.fpow10 x) = true) ∧
    (fle Lit.d3 x = true → fle x Lit.d15 = true → isFinite (Config.num.fexp2 x) = true))

/-- `rand`: the generator wraps modulo 2^32 and the draw is exactly `RNG[31:8]` times 2^-24, so it lies
in `[0, 1)` (R26, R188). In units of 2^-149, 2^-24 is 2^125. -/
def Obligations.UniformDrawExact : Prop :=
  ∀ r : U32,
    (rngNext r).toNat = (r.toNat * 1664525 + 1013904223) % 2 ^ 32 ∧
    isNeg (uniform r) = false ∧ isFinite (uniform r) = true ∧
    magUnits (uniform r) = r.toNat / 256 * 2 ^ 125 ∧
    flt (uniform r) Lit.d1 = true

/-- The target of a returning tap lies between 0.3 and one unit in the last place below 1.0 (R191,
90_conflicts.md C6). -/
def Obligations.ReturnTargetRange : Prop :=
  ∀ r : U32, fle Lit.d0_3 (returnTarget (uniform r)) = true ∧
    fle (returnTarget (uniform r)) 0x3F7FFFFF#32 = true

/-- One conditional subtraction wraps a phase: from `[0, 1)`, by an increment in `[0, 1)`, back into
`[0, 1)` (R53, R164, R195). -/
def Obligations.PhaseStaysInUnit : Prop :=
  ∀ ph inc : F32, fle Lit.zero ph = true → flt ph Lit.d1 = true →
    fle Lit.zero inc = true → flt inc Lit.d1 = true →
    fle Lit.zero (phaseAdvance ph inc) = true ∧ flt (phaseAdvance ph inc) Lit.d1 = true

/-- The interpolated read (R74): the words `di` and `di + 1` behind the cursor, modulo the length in use,
weighted `1 − df` and `df`. For a delay the callers guarantee, `di` is from 1 to `N − 1` and `df` exact and
in `[0, 1)`; and whatever the delay, no word beyond those in use is read. -/
def Obligations.InterpBlendsTwoWords : Prop :=
  (∀ (m : Cells) (w n : Nat) (d : F32),
    let di := toNat (ffloor d)
    let df := fsub d (toF32 di)
    interp m w n d =
      fadd (fmul (ramRead m (((w : Int) - di) % n).toNat) (fsub Lit.d1 df))
        (fmul (ramRead m (((w : Int) - di - 1) % n).toNat) df)) ∧
  (∀ (n : Nat) (d : F32), 3 ≤ n → n < 2 ^ 24 → within Lit.d1 (toF32 (n - 1)) d = true →
    let di := toNat (ffloor d)
    let df := fsub d (toF32 di)
    1 ≤ di ∧ di ≤ n - 1 ∧ units df = units d - units (toF32 di) ∧
      fle Lit.zero df = true ∧ flt df Lit.d1 = true) ∧
  (∀ (m m' : Cells) (w n : Nat) (d : F32), 0 < n → (∀ a < n, ramRead m a = ramRead m' a) →
    interp m w n d = interp m' w n d)

/-! ### The micro-operations -/

/-- `uSMOOTH` moves each `SM[k]` toward `TGT[k]`, in this association, and writes nothing else (R133). -/
def Obligations.SmootherMovesTowardTarget : Prop :=
  ∀ (s : State), ∃ sm : Vector F32 18, uSmooth s = { s with sm := sm } ∧
    ∀ k : ParamIx, sm[k] =
      fadd s.sm[k] (fmul (fsub s.tgt[k] s.sm[k]) (fsub Lit.d1 s.conf.csm))

/-- A smoothed value equal to its target stays equal to it, and keeps its bits unless it is `−0` (R134,
clause (a); there the spec calls `−0` against `+0` the only case, `−0` against `−0` moves as well). -/
def Obligations.SmootherRestsAtTarget : Prop :=
  ∀ y x c : F32, isFinite y = true → feq y x = true → isFinite (fsub Lit.d1 c) = true →
    feq (onepole y x c) x = true ∧ (y ≠ 0x80000000#32 → onepole y x c = y)

/-- `uCOND`: the high-pass state first, the correction with the updated state, the biquad in direct
form I, the shifted history with the unclamped output; and every output that is not a NaN is in
`[−1, 1]`, whatever the input and the state (R140, R144). -/
def Obligations.ConditionerStateAndOutput : Prop :=
  ∀ (k : Conf) (sm : Vector F32 18) (c : Channel) (x : F32),
    let hp := fadd c.hp (fmul (fsub x c.hp) (fsub Lit.d1 k.chp))
    let cor := fsub x (fmul sm[0] hp)
    let bq := fsub (fsub (fadd (fadd (fmul k.b0 cor) (fmul k.b1 c.x1)) (fmul k.b2 c.x2))
      (fmul k.a1 c.y1)) (fmul k.a2 c.y2)
    let mix := clamp (fadd (fmul cor (fsub Lit.d1 sm[1])) (fmul bq sm[1])) (fneg Lit.d10) Lit.d10
    uCond k sm c x =
      ({ c with hp := hp, x1 := cor, x2 := c.x1, y1 := bq, y2 := c.y1 },
        clamp (fmul mix (fadd Lit.d1 (fmul sm[2] Lit.d0_3))) (fneg Lit.d1) Lit.d1) ∧
    (isNan (uCond k sm c x).2 = true ∨ within (fneg Lit.d1) Lit.d1 (uCond k sm c x).2 = true)

/-- `uENV`: attack above the envelope and release otherwise, then the scaled output; a side channel that
writes nothing else (R155, R156). -/
def Obligations.EnvelopeFollowsInput : Prop :=
  ∀ (k : Conf) (sm : Vector F32 18) (c : Channel) (x : F32),
    let pole := if fgt (fabs x) c.env then k.catt else k.crel
    let env := fadd c.env (fmul (fsub (fabs x) c.env) (fsub Lit.d1 pole))
    uEnv k sm x c =
      { c with env := env, envOut := fmul env (fadd Lit.d0_5 (fmul sm[3] Lit.d0_5)) }

/-- The envelope never becomes negative: from a finite envelope that is not, a finite input leads to one
that is not (R157, clause (b), for finite inputs). -/
def Obligations.EnvelopeNonNegative : Prop :=
  ∀ (k : Conf) (env x : F32), isFinite x = true → isFinite env = true → fle Lit.zero env = true →
    strictlyBetween Lit.zero Lit.d1 k.catt = true → strictlyBetween Lit.zero Lit.d1 k.crel = true →
    fle Lit.zero (envNext k env x) = true

/-- The sign matrix is the table of R168; it is symmetric, its first row and column are all plus, and its
square is 8 times the identity. The matrix output of line `i` is the sum from `r[0]` with the signs of row
`i`, in order and without multiplications, scaled once (R169). -/
def Obligations.SignMatrixAndFeedback : Prop :=
  (∀ i j : Fin 8, hadamardPlus i j =
    (#v[#v[true, true, true, true, true, true, true, true],
      #v[true, false, true, false, true, false, true, false],
      #v[true, true, false, false, true, true, false, false],
      #v[true, false, false, true, true, false, false, true],
      #v[true, true, true, true, false, false, false, false],
      #v[true, false, true, false, false, true, false, true],
      #v[true, true, false, false, false, false, true, true],
      #v[true, false, false, true, false, true, true, false]] : Vector (Vector Bool 8) 8)[i][j]) ∧
  (∀ i j : Fin 8, hadamardPlus i j = hadamardPlus j i) ∧
  (∀ i : Fin 8, hadamardPlus i 0 = true) ∧
  (∀ i j : Fin 8,
    ((List.finRange 8).map fun k : Fin 8 =>
      (if hadamardPlus i k then (1 : Int) else -1) * (if hadamardPlus k j then (1 : Int) else -1)).sum
      = if i = j then 8 else 0) ∧
  ∀ (r : Vector F32 8) (i : Fin 8),
    let next := fun (acc : F32) (j : Fin 8) =>
      if hadamardPlus i j then fadd acc r[j] else fsub acc r[j]
    feedback r i =
      fmul (next (next (next (next (next (next (next r[0] 1) 2) 3) 4) 5) 6) 7) 0x3EB504F3#32

/-- `uFDN` on one line: phase, modulated and clamped read, dampers, write-back at the cursor, cursor; every
other word of the line and everything of the channel outside the lines is as before (R164 to R167, R170 to
R175). -/
def Obligations.ReverbUpdatesLines : Prop :=
  ∀ (N : NumFns) (g : Cfg) (k : Conf) (sm : Vector F32 18) (c : Channel) (x : F32) (i : Fin 8),
    Memory.wf c.lines[i].buf = true →
    let l := c.lines[i]
    let l' := (uFdn N g k sm c x).1.lines[i]
    let inc := fdiv (fmul sm[8] (fadd Lit.d1 (fmul (fmul sm[9] (toF32 i)) Lit.d0_1))) k.fs
    let v := fadd (fmul (feedback (lineReads N k sm c) i)
      (N.fpow10 (fdiv (fmul (fneg Lit.d3) (toF32 k.len[i]))
        (fmul (if fge sm[4] Lit.d0_5 then sm[4] else Lit.d0_5) k.fs)))) (fdiv x Lit.d8)
    let kh := fmul sm[5] g.kHigh
    let kl := fmul sm[6] g.kLow
    l'.ph = (if fge (fadd l.ph inc) Lit.d1 then fsub (fadd l.ph inc) Lit.d1 else fadd l.ph inc) ∧
    (lineReads N k sm c)[i] = interp l.buf l.w k.nbuf[i]
      (clampIdx (fadd (toF32 k.len[i])
        (fdiv (fmul (fmul (N.fsin (fmul Lit.twoPi l'.ph)) sm[7]) k.fs) Lit.d1000))
        Lit.d1 (toF32 (k.nbuf[i] - 1))) ∧
    l'.d1 = fadd (fmul v (fsub Lit.d1 kh)) (fmul l.d1 kh) ∧
    l'.d2 = fadd (fmul l'.d1 (fsub Lit.d1 kl)) (fmul l.d2 kl) ∧
    ramRead l'.buf l.w = l'.d2 ∧ (∀ a, a ≠ l.w → ramRead l'.buf a = ramRead l.buf a) ∧
    l'.w = (l.w + 1) % k.nbuf[i] ∧
    (uFdn N g k sm c x).1 = { c with lines := (uFdn N g k sm c x).1.lines }

/-- The reverb's output is the scaled sum of the eight reads, which is the first row of the matrix output
bit for bit, and does not depend on the input of the same sample (R176). -/
def Obligations.ReverbOutputIsFirstRow : Prop :=
  ∀ (N : NumFns) (g : Cfg) (k : Conf) (sm : Vector F32 18) (c : Channel) (x y : F32),
    let r := lineReads N k sm c
    (uFdn N g k sm c x).2 =
      fmul (fadd (fadd (fadd (fadd (fadd (fadd (fadd r[0] r[1]) r[2]) r[3]) r[4]) r[5]) r[6]) r[7])
        0x3EB504F3#32 ∧
    (uFdn N g k sm c x).2 = feedback r 0 ∧
    (uFdn N g k sm c x).2 = (uFdn N g k sm c y).2

/-- A silent reverb stays silent: from zero lines and dampers, `+0.0` in gives `+0.0` out and zero lines
and dampers again; only phases and cursors move (R177, clause (a)). -/
def Obligations.SilentReverbStaysSilent : Prop :=
  ∀ (N : NumFns) (g : Cfg) (k : Conf) (sm : Vector F32 18) (c : Channel),
    (∀ i : Fin 8, 3 ≤ k.nbuf[i] ∧ k.nbuf[i] < 2 ^ 24) →
    (∀ i : Fin 8, Memory.wf c.lines[i].buf = true ∧ c.lines[i].d1 = 0x00000000#32 ∧
      c.lines[i].d2 = 0x00000000#32 ∧
      ∀ a < k.nbuf[i], ramRead c.lines[i].buf a = 0x00000000#32) →
    (∀ i : Fin 8, isFinite (decayGain N k sm k.len[i]) = true) →
    isFinite (fmul sm[reverbDampHigh] g.kHigh) = true →
    isFinite (fmul sm[reverbDampLow] g.kLow) = true →
    (uFdn N g k sm c 0x00000000#32).2 = 0x00000000#32 ∧
    ∀ i : Fin 8,
      (uFdn N g k sm c 0x00000000#32).1.lines[i].d1 = 0x00000000#32 ∧
      (uFdn N g k sm c 0x00000000#32).1.lines[i].d2 = 0x00000000#32 ∧
      ∀ a < k.nbuf[i], ramRead (uFdn N g k sm c 0x00000000#32).1.lines[i].buf a = 0x00000000#32

/-- A tap's countdown: at 0 it re-rolls, with one draw deciding, a second for the target only if it
returns, and a last for the countdown; otherwise it is decremented and no draw is made (R190, R191,
R192, R194). -/
def Obligations.TapRerollsAtZero : Prop :=
  ∀ (fs vr : F32) (r : U32) (t : Tap),
    let r1 := rngNext r
    let r2 := rngNext r1
    let r3 := rngNext r2
    let load := fun q : U32 => BitVec.ofNat 32
      (toNat (ffloor (fmul (fadd Lit.d0_05 (fmul Lit.d0_35 (uniform q))) fs)))
    (t.timer = 0#32 → flt (uniform r1) vr = true →
      tapTick fs vr r t = { t with target := 0x00000000#32, timer := load r2 } ∧
      tapTickRng vr r t = r2) ∧
    (t.timer = 0#32 → flt (uniform r1) vr = false →
      tapTick fs vr r t =
        { t with target := fadd Lit.d0_3 (fmul Lit.d0_7 (uniform r2)), timer := load r3 } ∧
      tapTickRng vr r t = r3) ∧
    (t.timer ≠ 0#32 → (tapTick fs vr r t).timer.toNat = t.timer.toNat - 1 ∧
      tapTick fs vr r t = { t with timer := (tapTick fs vr r t).timer } ∧ tapTickRng vr r t = r)

/-- `uVDLY`: the three taps share one generator in the order 0, 1, 2 (R194), each ticks as `tapTick` says
(TapRerollsAtZero), its gain moves toward the target, its drift phase advances, its effective delay is
clamped and read, and the degrade low-pass takes the read times the gain (R186, R187, R193, R195 to R199);
the output is the average of the tap outputs, quantised above the threshold (R200, R201, R203). The input
and the fed-back average are written at the cursor, which advances; every other word is as before, and so is
everything of the channel outside the delay (R202). -/
def Obligations.DelayServesTapsAndWrites : Prop :=
  ∀ (N : NumFns) (g : Cfg) (k : Conf) (sm : Vector F32 18) (c : Channel) (x dt dr : F32),
    Memory.wf c.vbuf = true →
    let d := (uVdly N g k sm c x dt dr).1
    let avg := (uVdly N g k sm c x dt dr).2
    let rng1 := tapTickRng sm[12] c.rng c.taps[0]
    let rng2 := tapTickRng sm[12] rng1 c.taps[1]
    let base := fdiv (fmul dt k.fs) Lit.d1000
    let inc := fdiv (fmul dr Lit.d0_1) k.fs
    let served := fun (t : Fin 3) (r : U32) (ratio : F32) =>
      let u := tapTick k.fs sm[12] r c.taps[t]
      let v := d.taps[t]
      let off := fmul (N.fsin (fmul Lit.twoPi v.dph)) k.driftAmp
      let raw := fmul (interp c.vbuf c.wv k.nv
        (clampIdx (fadd (fmul ratio base) off) Lit.d1 (toF32 (k.nv - 1)))) v.gain
      v.target = u.target ∧ v.timer = u.timer ∧
      v.gain = fadd c.taps[t].gain (fmul (fsub u.target c.taps[t].gain) 0x3A83126F#32) ∧
      v.dph = (if fge (fadd c.taps[t].dph inc) Lit.d1 then fsub (fadd c.taps[t].dph inc) Lit.d1
        else fadd c.taps[t].dph inc) ∧
      v.dlp = fadd c.taps[t].dlp
        (fmul (fsub raw c.taps[t].dlp) (fsub Lit.d1 (fmul sm[13] g.degK)))
    let scale := N.fexp2 (fsub (fsub Lit.d16 (fmul Lit.d12 sm[13])) Lit.d1)
    let out := fun t : Fin 3 =>
      if fgt sm[13] g.degThresh then fdiv (fround (fmul d.taps[t].dlp scale)) scale
      else d.taps[t].dlp
    served 0 c.rng 0x3F800000#32 ∧ served 1 rng1 0x3F1E353F#32 ∧ served 2 rng2 0x3EC39581#32 ∧
    d.rng = tapTickRng sm[12] rng2 c.taps[2] ∧
    avg = fdiv (fadd (fadd (out 0) (out 1)) (out 2)) Lit.d3 ∧
    avg = (uVdly N g k sm c Lit.zero dt dr).2 ∧
    ramRead d.vbuf c.wv = fadd x (fmul avg sm[11]) ∧
    (∀ a, a ≠ c.wv → ramRead d.vbuf a = ramRead c.vbuf a) ∧
    d.wv = (c.wv + 1) % k.nv ∧
    d = { c with vbuf := d.vbuf, wv := d.wv, rng := d.rng, taps := d.taps }

/-- `uDCB` (R210), and its first sample after a clearing: it passes unchanged, `−0` as `+0` (R212,
clause (b)). -/
def Obligations.DcBlockerFirstSample : Prop :=
  (∀ (c : Channel) (x : F32),
    let y := fadd (fsub x c.dx1) (fmul 0x3F7EB852#32 c.dy1)
    uDcb c x = ({ c with dx1 := x, dy1 := y }, y)) ∧
  (∀ (c : Channel) (x : F32), c.dx1 = 0x00000000#32 → c.dy1 = 0x00000000#32 → isNan x = false →
    (uDcb c x).2 = if x = 0x80000000#32 then 0x00000000#32 else x)

/-- `uROUTE`: the modules of a channel's turn in their fixed order, each once, with the reverb input, the
wet signal and the output blend; the right channel's delay time and drift are the smoothed values times
1.07 and 1.15, the left's the smoothed values themselves (R218, R219). -/
def Obligations.RouterComposesModules : Prop :=
  ∀ (N : NumFns) (g : Cfg) (k : Conf) (sm : Vector F32 18) (ch : Chan) (c : Channel) (dry : F32),
    let cnd := uCond k sm c dry
    let dt := match ch with | .left => sm[10] | .right => fmul sm[10] 0x3F88F5C3#32
    let dr := match ch with | .left => sm[14] | .right => fmul sm[14] 0x3F933333#32
    let dly := uVdly N g k sm (uEnv k sm cnd.2 cnd.1) cnd.2 dt dr
    let dm := fmul dly.2 sm[16]
    let rv := uFdn N g k sm dly.1 (fadd cnd.2 dm)
    let w := uDcb rv.1 (fadd (fmul rv.2 sm[15]) dm)
    uRoute N g k sm ch c dry =
      (w.1, fadd (fmul dry (fsub Lit.d1 sm[17])) (fmul w.2 sm[17]))

/-- With the master mix exactly `+0.0` and a finite wet signal, the output is the dry input bit for bit
for every dry input that is neither a zero nor a NaN, and a zero for a zero (R222, R223). -/
def Obligations.MasterMixZeroIsDry : Prop :=
  ∀ (sm : Vector F32 18) (dry w : F32), sm[masterMix] = 0x00000000#32 → isFinite w = true →
    (isNan dry = false → isZero dry = false → blend sm dry w = dry) ∧
    (isZero dry = true → isZero (blend sm dry w) = true)

/-! ### Whole-machine rules over two runs -/

/-- Stereo independence: what the right channel holds and is fed does not reach the left channel, its
output, the smoother, `STATUS` or the response, and the same with the sides exchanged (R225). -/
def Obligations.StereoChannelsIndependent : Prop :=
  ∀ (n : Nat) (s : State) (c : Channel) (m : Cells), s.quiet = true →
    (∃ u v, exec (.pblock n) s = .next u ∧ exec (.pblock n) { s with chR := c, iobR := m } = .next v ∧
      v.chL = u.chL ∧ v.iobL = u.iobL ∧ v.sm = u.sm ∧ v.status = u.status ∧ v.rsp = u.rsp) ∧
    (∃ u v, exec (.pblock n) s = .next u ∧ exec (.pblock n) { s with chL := c, iobL := m } = .next v ∧
      v.chR = u.chR ∧ v.iobR = u.iobR ∧ v.sm = u.sm ∧ v.status = u.status ∧ v.rsp = u.rsp)

/-- The audio never reaches cursors, phases, timers, tap gains, the generator, the parameter files or
`STATUS`: two runs that differ in samples, filter and delay state only keep these equal (R194, R273). -/
def Obligations.AudioNeverReachesControl : Prop :=
  ∀ (n : Nat) (s : State) (cL cR : Channel) (mL mR : Cells), s.quiet = true →
    SameControl s.chL cL → SameControl s.chR cR →
    ∃ u v, exec (.pblock n) s = .next u ∧
      exec (.pblock n) { s with chL := cL, chR := cR, iobL := mL, iobR := mR } = .next v ∧
      SameControl u.chL v.chL ∧ SameControl u.chR v.chR ∧ v.prm = u.prm ∧ v.tgt = u.tgt ∧
      v.sm = u.sm ∧ v.status = u.status

/-- No command reads an element that is unspecified after power-on: two states of runs that agree on all
that is specified, and once prepared on all that is in use, are never told apart (R52). -/
def Obligations.UnspecifiedNeverRead : Prop :=
  ∀ (i : Instr) (s t : State), s.Inv → t.Inv → SameToRules s t →
    ∃ u v, exec i s = .next u ∧ exec i t = .next v ∧ SameToRules u v

/-- On a prepared core of a run, `RESET` is the `PREPARE` of the rate and block size in force, whatever
the hosts do meanwhile (R118, R259). -/
def Obligations.ResetIsPrepareAgain : Prop :=
  ∀ s : State, s.Inv → s.prepared = true →
    exec .reset s = exec (.prepare s.conf.fs s.conf.maxblk) s

/-- The clearing sequence is idempotent: a second `RESET` changes nothing but for its response (R259,
clause (a)). -/
def Obligations.ResetIdempotent : Prop :=
  ∀ s : State, s.quiet = true → s.prepared = true →
    ∃ t, exec .reset s = .next t ∧ exec .reset t = .next { t with rsp := t.rsp ++ [t.status] }

/-- Two blocks of lengths `a` and `b` give the same outputs and the same end state as one block of length
`a + b` over the same samples, wherever the host puts the second block's samples (R121, clause (f)). -/
def Obligations.BlocksCanBeSplit : Prop :=
  ∀ (a b : Nat) (s : State), s.quiet = true → s.prepared = true →
    a + b ≤ s.conf.maxblk.toNat →
    ∃ u v, exec (.pblock (a + b)) s = .next u ∧ exec (.pblock a) s = .next v ∧
      (∀ (c : Chan) (j : Nat), j < a → v.ioRead c j = u.ioRead c j) ∧
      ∀ mL mR : Cells,
        (∀ (c : Chan) (j : Nat), j < b →
          ({ v with iobL := mL, iobR := mR } : State).ioRead c j = s.ioRead c (a + j)) →
        ∃ w, exec (.pblock b) { v with iobL := mL, iobR := mR } = .next w ∧
          w.chL = u.chL ∧ w.chR = u.chR ∧ w.sm = u.sm ∧ w.tgt = u.tgt ∧ w.status = u.status ∧
          ∀ (c : Chan) (j : Nat), j < b → w.ioRead c j = u.ioRead c (a + j)
end

