-- ==== Sys2Proof/Laws/Float.lean ====
section
/-! SUPPORT. The small lemmas of binary32 arithmetic: packing, the order of bit patterns against the order
of values, and rounding: exact on representable values, and monotone. -/

-- Proofs one after another: elaborated at once, they ask for more threads than the check allows.
set_option Elab.async false

namespace Sys2Proof.Machine

/-! ### Sign and magnitude -/

theorem magBits_lt (x : F32) : magBits x < 2 ^ 31 := Nat.mod_lt _ (by decide)

theorem toNat_eq (x : F32) : x.toNat = (if isNeg x then 2 ^ 31 else 0) + magBits x := by
  have h := x.isLt
  simp only [isNeg, magBits, beq_iff_eq]
  split <;> omega

theorem pack_self (x : F32) : pack (isNeg x) (magBits x) = x := by
  apply BitVec.eq_of_toNat_eq
  have h := x.isLt
  simp only [pack, ← toNat_eq, BitVec.toNat_ofNat]
  omega

theorem pack_toNat (b : Bool) {m : Nat} (h : m < 2 ^ 31) :
    (pack b m).toNat = (if b then 2 ^ 31 else 0) + m := by
  simp only [pack, BitVec.toNat_ofNat]
  cases b <;> simp <;> omega

theorem magBits_pack (b : Bool) {m : Nat} (h : m < 2 ^ 31) : magBits (pack b m) = m := by
  simp only [magBits, pack_toNat b h]
  cases b <;> simp <;> omega

theorem isNeg_pack (b : Bool) {m : Nat} (h : m < 2 ^ 31) : isNeg (pack b m) = b := by
  simp only [isNeg, pack_toNat b h]
  cases b <;> simp <;> omega

theorem ext_sign_mag {x y : F32} (hs : isNeg x = isNeg y) (hm : magBits x = magBits y) : x = y := by
  rw [← pack_self x, ← pack_self y, hs, hm]

@[simp] theorem magBits_fneg (x : F32) : magBits (fneg x) = magBits x := by
  have h : (fneg x).toNat = x.toNat ^^^ 2 ^ 31 := by simp [fneg, BitVec.toNat_xor]
  simp only [magBits, h, Nat.xor_mod_two_pow]
  simp

@[simp] theorem isNeg_fneg (x : F32) : isNeg (fneg x) = !isNeg x := by
  have h : (fneg x).toNat = x.toNat ^^^ 2 ^ 31 := by simp [fneg, BitVec.toNat_xor]
  have hx := x.isLt
  have hd : x.toNat / 2 ^ 31 = 0 ∨ x.toNat / 2 ^ 31 = 1 := by omega
  simp only [isNeg, h, Nat.xor_div_two_pow]
  rcases hd with hd | hd <;> rw [hd] <;> decide

@[simp] theorem magBits_fabs (x : F32) : magBits (fabs x) = magBits x := by
  have h := magBits_lt x
  simp only [fabs, magBits, BitVec.toNat_ofNat] at *
  omega

@[simp] theorem isNeg_fabs (x : F32) : isNeg (fabs x) = false := by
  have h := magBits_lt x
  simp only [fabs, isNeg, magBits, BitVec.toNat_ofNat, beq_eq_false_iff_ne, ne_eq] at *
  omega

@[simp] theorem magUnits_fneg (x : F32) : magUnits (fneg x) = magUnits x := by simp [magUnits]

@[simp] theorem units_fneg (x : F32) : units (fneg x) = -units x := by
  simp only [units, isNeg_fneg, magUnits_fneg]
  cases isNeg x <;> simp

@[simp] theorem isNan_fneg (x : F32) : isNan (fneg x) = isNan x := by simp [isNan]
@[simp] theorem isInf_fneg (x : F32) : isInf (fneg x) = isInf x := by simp [isInf]

theorem finite_cases {x : F32} (h : isFinite x = true) : isNan x = false ∧ isInf x = false := by
  simp only [isFinite, isNan, isInf, decide_eq_true_eq, decide_eq_false_iff_not, beq_eq_false_iff_ne]
    at *
  omega

theorem magUnits_zero_iff {x : F32} : magUnits x = 0 ↔ magBits x = 0 := by
  simp only [magUnits]
  split
  · exact Iff.rfl
  · have : 0 < (magBits x % 2 ^ 23 + 2 ^ 23) * 2 ^ (magBits x / 2 ^ 23 - 1) := by positivity
    omega

/-! ### Rounding -/

/-- The magnitude a pattern of bits below the sign stands for, in units. -/
def unitsOfBits (m : Nat) : Nat :=
  if m / 2 ^ 23 = 0 then m else (m % 2 ^ 23 + 2 ^ 23) * 2 ^ (m / 2 ^ 23 - 1)

theorem magUnits_eq (x : F32) : magUnits x = unitsOfBits (magBits x) := rfl

theorem roundEven_exact (n : Nat) {d : Nat} (h : 0 < d) : roundEven (n * d) d = n := by
  simp only [roundEven, Nat.mul_mod_left, Nat.mul_div_cancel n h]
  split <;> omega

theorem roundEven_bounds (n d : Nat) : n / d ≤ roundEven n d ∧ roundEven n d ≤ n / d + 1 := by
  unfold roundEven; split <;> omega

/-- Rounding to a natural is monotone in the value of the fraction. -/
theorem roundEven_mono {n d n' d' : Nat} (hd : 0 < d) (hd' : 0 < d') (h : n * d' ≤ n' * d) :
    roundEven n d ≤ roundEven n' d' := by
  have hq : n / d ≤ n' / d' := by
    rw [Nat.le_div_iff_mul_le hd']
    have h1 : n / d * d ≤ n := Nat.div_mul_le_self n d
    have h2 : n / d * d' * d ≤ n' * d := by nlinarith
    exact Nat.le_of_mul_le_mul_right h2 hd
  rcases Nat.lt_or_eq_of_le hq with hlt | heq
  · have := (roundEven_bounds n d).2
    have := (roundEven_bounds n' d').1
    omega
  · have e := Nat.div_add_mod n d
    have e' := Nat.div_add_mod n' d'
    rw [heq] at e
    have hf : (n % d) * d' ≤ (n' % d') * d := by nlinarith
    simp only [roundEven, heq]
    by_cases c : d < 2 * (n % d) ∨ (2 * (n % d) = d ∧ n' / d' % 2 = 1)
    · have c' : d' < 2 * (n' % d') ∨ (2 * (n' % d') = d' ∧ n' / d' % 2 = 1) := by
        rcases c with c | ⟨c, o⟩
        · left; by_contra hc
          have hc : 2 * (n' % d') ≤ d' := by omega
          nlinarith
        · have : d' ≤ 2 * (n' % d') := by
            by_contra hc
            have hc : 2 * (n' % d') < d' := by omega
            nlinarith
          omega
      simp [c, c']
    · simp only [c, if_false]
      split <;> omega

/-- The shift of the binade of a whole number of units. -/
theorem shift_bounds (q : Nat) :
    q < 2 ^ (24 + (q.log2 - 23)) ∧ (0 < q.log2 - 23 → 2 ^ (23 + (q.log2 - 23)) ≤ q) := by
  constructor
  · exact lt_of_lt_of_le Nat.lt_log2_self (Nat.pow_le_pow_right (by decide) (by omega))
  · intro h
    have hq : q ≠ 0 := by rintro rfl; simp at h
    exact le_trans (Nat.pow_le_pow_right (by decide) (by omega)) (Nat.log2_self_le hq)

/-- Rounding to binary32 is monotone in the magnitude `n / d`. -/
theorem magRound_mono {n d n' d' : Nat} (hd : 0 < d) (hd' : 0 < d') (h : n * d' ≤ n' * d) :
    magRound n d ≤ magRound n' d' := by
  have hq : n / d ≤ n' / d' := by
    rw [Nat.le_div_iff_mul_le hd']
    have h1 : n / d * d ≤ n := Nat.div_mul_le_self n d
    have h2 : n / d * d' * d ≤ n' * d := by nlinarith
    exact Nat.le_of_mul_le_mul_right h2 hd
  simp only [magRound]
  apply min_le_min_right
  obtain ⟨ha, -⟩ := shift_bounds (n / d)
  obtain ⟨-, hb⟩ := shift_bounds (n' / d')
  have hk : (n / d).log2 ≤ (n' / d').log2 := by
    rcases Nat.eq_zero_or_pos (n / d) with h0 | h0
    · simp [h0]
    · exact (Nat.le_log2 (by omega)).2 (le_trans (Nat.log2_self_le (by omega)) hq)
  rcases Nat.lt_or_eq_of_le (Nat.sub_le_sub_right hk 23) with hlt | heq
  · generalize (n / d).log2 - 23 = k at *
    generalize (n' / d').log2 - 23 = k' at *
    have h1 : roundEven n (d * 2 ^ k) ≤ 2 ^ 24 := by
      have := (roundEven_bounds n (d * 2 ^ k)).2
      have : n / (d * 2 ^ k) < 2 ^ 24 := by
        rw [← Nat.div_div_eq_div_mul, Nat.div_lt_iff_lt_mul (by positivity), ← pow_add]
        exact ha
      omega
    have h2 : 2 ^ 23 ≤ roundEven n' (d' * 2 ^ k') := by
      refine le_trans ?_ (roundEven_bounds n' (d' * 2 ^ k')).1
      rw [← Nat.div_div_eq_div_mul, Nat.le_div_iff_mul_le (by positivity), ← pow_add]
      exact hb (by omega)
    have : (k + 1) * 2 ^ 23 ≤ k' * 2 ^ 23 := Nat.mul_le_mul_right _ hlt
    omega
  · rw [heq]
    apply Nat.add_le_add_left
    apply roundEven_mono (by positivity) (by positivity)
    calc n * (d' * 2 ^ ((n' / d').log2 - 23)) = n * d' * 2 ^ ((n' / d').log2 - 23) := by ring
      _ ≤ n' * d * 2 ^ ((n' / d').log2 - 23) := Nat.mul_le_mul_right _ h
      _ = n' * (d * 2 ^ ((n' / d').log2 - 23)) := by ring

/-- A representable magnitude rounds to itself, written over any denominator. -/
theorem magRound_exact {m : Nat} (h : m ≤ 0x7F800000) {d : Nat} (hd : 0 < d) :
    magRound (unitsOfBits m * d) d = m := by
  simp only [magRound, Nat.mul_div_cancel _ hd]
  by_cases h0 : m / 2 ^ 23 = 0
  · have hu : unitsOfBits m = m := by rw [unitsOfBits, if_pos h0]
    have hk : (unitsOfBits m).log2 - 23 = 0 := by
      rw [hu]
      rcases Nat.eq_zero_or_pos m with hm | hm
      · simp [hm]
      · have : m.log2 < 24 := (Nat.log2_lt (by omega)).2 (by omega)
        omega
    rw [hk, hu]
    simp only [Nat.zero_mul, Nat.pow_zero, Nat.mul_one, Nat.zero_add, roundEven_exact m hd]
    omega
  · have hu : unitsOfBits m = (m % 2 ^ 23 + 2 ^ 23) * 2 ^ (m / 2 ^ 23 - 1) := by
      rw [unitsOfBits, if_neg h0]
    have hk : (unitsOfBits m).log2 - 23 = m / 2 ^ 23 - 1 := by
      have hl : (unitsOfBits m).log2 = 23 + (m / 2 ^ 23 - 1) := by
        rw [hu, Nat.log2_eq_iff (by positivity)]
        have : m % 2 ^ 23 < 2 ^ 23 := Nat.mod_lt _ (by decide)
        constructor
        · rw [pow_add]; exact Nat.mul_le_mul_right _ (by omega)
        · rw [show 23 + (m / 2 ^ 23 - 1) + 1 = 24 + (m / 2 ^ 23 - 1) by omega, pow_add]
          exact Nat.mul_lt_mul_of_pos_right (by omega) (by positivity)
      omega
    rw [hk, hu, show (m % 2 ^ 23 + 2 ^ 23) * 2 ^ (m / 2 ^ 23 - 1) * d
      = (m % 2 ^ 23 + 2 ^ 23) * (d * 2 ^ (m / 2 ^ 23 - 1)) by ring,
      roundEven_exact _ (by positivity)]
    omega

theorem magRound_le (n d : Nat) : magRound n d ≤ 0x7F800000 := Nat.min_le_right _ _

theorem magRound_lt (n d : Nat) : magRound n d < 2 ^ 31 :=
  lt_of_le_of_lt (magRound_le n d) (by decide)

theorem magRound_zero {d : Nat} : magRound 0 d = 0 := by simp [magRound, roundEven]

/-- A finite value's magnitude rounds to its own bits. -/
theorem magRound_magUnits {x : F32} (h : isNan x = false) {d : Nat} (hd : 0 < d) :
    magRound (magUnits x * d) d = magBits x := by
  refine magRound_exact ?_ hd
  simpa [isNan] using h

/-- A magnitude at most that of a representable one rounds to at most its bits. -/
theorem magRound_le_of_le {n d : Nat} {x : F32} (hx : isNan x = false) (hd : 0 < d)
    (h : n ≤ magUnits x * d) : magRound n d ≤ magBits x := by
  rw [← magRound_magUnits hx hd]
  exact magRound_mono hd hd (Nat.mul_le_mul_right _ h)

/-- A magnitude at least that of a representable one rounds to at least its bits. -/
theorem le_magRound_of_le {n d : Nat} {x : F32} (hx : isNan x = false) (hd : 0 < d)
    (h : magUnits x * d ≤ n) : magBits x ≤ magRound n d := by
  rw [← magRound_magUnits hx hd]
  exact magRound_mono hd hd (Nat.mul_le_mul_right _ h)

/-- The order of magnitudes is the order of the bits below the sign. -/
theorem unitsOfBits_lt {a b : Nat} (hb : b ≤ 0x7F800000) (h : a < b) :
    unitsOfBits a < unitsOfBits b := by
  by_contra hc
  have hm : magRound (unitsOfBits b * 1) 1 ≤ magRound (unitsOfBits a * 1) 1 :=
    magRound_mono Nat.one_pos Nat.one_pos (by omega)
  rw [magRound_exact hb Nat.one_pos, magRound_exact (by omega) Nat.one_pos] at hm
  omega

theorem magUnits_lt_iff {x y : F32} (hx : isNan x = false) (hy : isNan y = false) :
    magUnits x < magUnits y ↔ magBits x < magBits y := by
  simp only [isNan, decide_eq_false_iff_not, Nat.not_lt] at hx hy
  refine ⟨fun h => ?_, fun h => unitsOfBits_lt hy h⟩
  by_contra hc
  rcases Nat.lt_or_eq_of_le (Nat.le_of_not_lt hc) with hlt | heq
  · have := unitsOfBits_lt hx hlt
    rw [magUnits_eq, magUnits_eq] at h; omega
  · rw [magUnits_eq, magUnits_eq, heq] at h; omega

/-! ### Comparisons as comparisons of values -/

theorem flt_iff {x y : F32} (hx : isNan x = false) (hy : isNan y = false) :
    flt x y = true ↔ units x < units y := by
  have h1 := magUnits_lt_iff hx hy
  have h2 := magUnits_lt_iff hy hx
  have z1 := magUnits_zero_iff (x := x)
  have z2 := magUnits_zero_iff (x := y)
  simp only [flt, hx, hy, Bool.not_false, Bool.true_and, decide_eq_true_eq]
  simp only [key, units]
  cases isNeg x <;> cases isNeg y <;> simp only [Bool.false_eq_true, if_false, if_true] <;> omega

theorem fle_iff {x y : F32} (hx : isNan x = false) (hy : isNan y = false) :
    fle x y = true ↔ units x ≤ units y := by
  have h : fle x y = !flt y x := by
    simp only [fle, flt, hx, hy, Bool.not_false, Bool.true_and]
    by_cases hk : key x ≤ key y
    · simp [hk, Int.not_lt.2 hk]
    · simp [hk, Int.not_le.1 hk]
  have hf := flt_iff hy hx
  rw [h]
  cases hc : flt y x
  · simp only [Bool.not_false, true_iff]; rw [hc] at hf; simp at hf; omega
  · simp only [Bool.not_true, Bool.false_eq_true, false_iff]; rw [hc] at hf; simp at hf; omega

/-! ### Exact operations -/

/-- A sum of two finite values, the exact sum not zero. -/
theorem addWith_finite {x y : F32} (hx : isFinite x = true) (hy : isFinite y = true) (op : NanOp)
    (a b : F32) (h : units x + units y ≠ 0) :
    addWith op a b x y =
      pack (decide (units x + units y < 0)) (magRound (units x + units y).natAbs 1) := by
  simp [addWith, (finite_cases hx).2, (finite_cases hy).2, h]

theorem natAbs_units (x : F32) : (units x).natAbs = magUnits x := by
  simp only [units]; split <;> simp

theorem units_neg_iff {x : F32} (h : magUnits x ≠ 0) : units x < 0 ↔ isNeg x = true := by
  simp only [units]; split <;> simp_all; omega

/-- Adding a zero to a finite value that is no zero leaves its bits. -/
theorem addWith_zero {x z : F32} (hx : isFinite x = true) (hz : magBits z = 0) (hn : magBits x ≠ 0)
    (op : NanOp) (a b : F32) : addWith op a b x z = x := by
  have hu : units z = 0 := by
    simp [units, magUnits_zero_iff.2 hz]
  have hm : magUnits x ≠ 0 := fun h => hn (magUnits_zero_iff.1 h)
  have hx' := finite_cases hx
  have hz' : isFinite z = true := by simp [isFinite, hz]
  have hne : units x + units z ≠ 0 := by
    rw [hu, Int.add_zero]; intro h0
    exact hm (by rw [← natAbs_units, h0]; rfl)
  rw [addWith_finite hx hz' op a b hne, hu, Int.add_zero, natAbs_units]
  have := magRound_magUnits hx'.1 (d := 1) Nat.one_pos
  rw [Nat.mul_one] at this
  rw [this]
  have hd : decide (units x < 0) = isNeg x := by
    have := units_neg_iff hm
    cases hs : isNeg x <;> simp [this, hs]
  rw [hd, pack_self]

/-- Multiplying by `1.0` leaves the bits of every value that is no NaN. -/
theorem fmul_one {x : F32} (h : isNan x = false) : fmul x Lit.d1 = x := by
  have h1 : isNan Lit.d1 = false := by decide
  have h2 : isInf Lit.d1 = false := by decide
  have h3 : isNeg Lit.d1 = false := by decide
  have h4 : isZero Lit.d1 = false := by decide
  have h5 : magUnits Lit.d1 = 2 ^ 149 := by decide
  simp only [fmul, h, h1, h2, h3, h4, h5, Bool.or_false, Bool.false_eq_true, if_false,
    magRound_magUnits h (Nat.two_pow_pos 149), Bool.bne_false]
  split
  · next hi =>
    have hb : magBits x = 0x7F800000 := by
      exact beq_iff_eq.1 hi
    have hz : isZero x = false := by rw [isZero, hb]; rfl
    rw [hz]
    simp only [Bool.false_eq_true, if_false]
    rw [← hb, pack_self]
  · exact pack_self x

/-- A product with a zero of a finite value is a zero, of the product of the signs. -/
theorem fmul_zero {x z : F32} (hx : isFinite x = true) (hz : magBits z = 0) :
    fmul x z = pack (isNeg x != isNeg z) 0 := by
  have hx' := finite_cases hx
  have hz' : isFinite z = true := by simp [isFinite, hz]
  have hz'' := finite_cases hz'
  simp [fmul, hx'.1, hx'.2, hz''.1, hz''.2, magUnits_zero_iff.2 hz, magRound_zero]

/-- `toF32` is exact below `2^24`. -/
theorem magUnits_toF32 {n : Nat} (h : n < 2 ^ 24) : magUnits (toF32 n) = n * 2 ^ 149 := by
  obtain ⟨m, hm, hu⟩ : ∃ m, m ≤ 0x7F800000 ∧ unitsOfBits m = n * 2 ^ 149 := by
    rcases Nat.eq_zero_or_pos n with rfl | hn
    · exact ⟨0, by decide, by decide⟩
    · have hl : n.log2 < 24 := (Nat.log2_lt (by omega)).2 h
      have h1 := Nat.log2_self_le (n := n) (by omega)
      have h2 := Nat.lt_log2_self (n := n)
      have hp : n * 2 ^ (23 - n.log2) < 2 ^ 24 := by
        calc n * 2 ^ (23 - n.log2) < 2 ^ (n.log2 + 1) * 2 ^ (23 - n.log2) :=
              Nat.mul_lt_mul_of_pos_right h2 (by positivity)
          _ = 2 ^ 24 := by rw [← pow_add]; congr 1; omega
      have hp' : 2 ^ 23 ≤ n * 2 ^ (23 - n.log2) := by
        calc 2 ^ 23 = 2 ^ n.log2 * 2 ^ (23 - n.log2) := by rw [← pow_add]; congr 1; omega
          _ ≤ _ := Nat.mul_le_mul_right _ h1
      refine ⟨(127 + n.log2) * 2 ^ 23 + (n * 2 ^ (23 - n.log2) - 2 ^ 23), by omega, ?_⟩
      have e1 : ((127 + n.log2) * 2 ^ 23 + (n * 2 ^ (23 - n.log2) - 2 ^ 23)) / 2 ^ 23
          = 127 + n.log2 := by omega
      have e2 : ((127 + n.log2) * 2 ^ 23 + (n * 2 ^ (23 - n.log2) - 2 ^ 23)) % 2 ^ 23 + 2 ^ 23
          = n * 2 ^ (23 - n.log2) := by omega
      rw [unitsOfBits, e1, e2, if_neg (by omega), Nat.mul_assoc, ← pow_add,
        show 23 - n.log2 + (127 + n.log2 - 1) = 149 by omega]
  have hr : magRound (n * 2 ^ 149) 1 = m := by
    rw [← hu]; simpa using magRound_exact hm Nat.one_pos
  rw [toF32, hr, magUnits_eq, magBits_pack _ (lt_of_le_of_lt hm (by decide)), hu]

end Sys2Proof.Machine
end

