-- ==== Sys2Proof/Laws/State.lean ====
section
/-! SUPPORT. For each update of the state, one lemma per field: what the field is afterwards. Later
proofs cite these and never unfold a record update. -/

-- Proofs one after another: elaborated at once, they ask for more threads than the check allows.
set_option Elab.async false

namespace Sys2Proof.Machine

/-! ### raiseFault -/

@[simp] theorem raiseFault_cfg (f : U32) (s : State) : (raiseFault f s).cfg = s.cfg := rfl
@[simp] theorem raiseFault_prm (f : U32) (s : State) : (raiseFault f s).prm = s.prm := rfl
@[simp] theorem raiseFault_tgt (f : U32) (s : State) : (raiseFault f s).tgt = s.tgt := rfl
@[simp] theorem raiseFault_sm (f : U32) (s : State) : (raiseFault f s).sm = s.sm := rfl
@[simp] theorem raiseFault_status (f : U32) (s : State) :
    (raiseFault f s).status = s.status ||| f := rfl
@[simp] theorem raiseFault_busy (f : U32) (s : State) : (raiseFault f s).busy = s.busy := rfl
@[simp] theorem raiseFault_sidx (f : U32) (s : State) : (raiseFault f s).sidx = s.sidx := rfl
@[simp] theorem raiseFault_conf (f : U32) (s : State) : (raiseFault f s).conf = s.conf := rfl
@[simp] theorem raiseFault_chL (f : U32) (s : State) : (raiseFault f s).chL = s.chL := rfl
@[simp] theorem raiseFault_chR (f : U32) (s : State) : (raiseFault f s).chR = s.chR := rfl
@[simp] theorem raiseFault_iobL (f : U32) (s : State) : (raiseFault f s).iobL = s.iobL := rfl
@[simp] theorem raiseFault_iobR (f : U32) (s : State) : (raiseFault f s).iobR = s.iobR := rfl
@[simp] theorem raiseFault_cmd (f : U32) (s : State) : (raiseFault f s).cmd = s.cmd := rfl
@[simp] theorem raiseFault_ctl (f : U32) (s : State) : (raiseFault f s).ctl = s.ctl := rfl
@[simp] theorem raiseFault_rsp (f : U32) (s : State) : (raiseFault f s).rsp = s.rsp := rfl
@[simp] theorem raiseFault_mem (f : U32) (s : State) : (raiseFault f s).mem = s.mem := rfl
@[simp] theorem raiseFault_memOut (f : U32) (s : State) : (raiseFault f s).memOut = s.memOut := rfl
@[simp] theorem raiseFault_sched (f : U32) (s : State) : (raiseFault f s).sched = s.sched := rfl
@[simp] theorem raiseFault_por (f : U32) (s : State) : (raiseFault f s).por = s.por := rfl

/-! ### drawn -/

@[simp] theorem drawn_cfg (s : State) : (s.drawn).cfg = s.cfg := rfl
@[simp] theorem drawn_prm (s : State) : (s.drawn).prm = s.prm := rfl
@[simp] theorem drawn_tgt (s : State) : (s.drawn).tgt = s.tgt := rfl
@[simp] theorem drawn_sm (s : State) : (s.drawn).sm = s.sm := rfl
@[simp] theorem drawn_status (s : State) : (s.drawn).status = s.status := rfl
@[simp] theorem drawn_busy (s : State) : (s.drawn).busy = s.busy := rfl
@[simp] theorem drawn_sidx (s : State) : (s.drawn).sidx = s.sidx := rfl
@[simp] theorem drawn_conf (s : State) : (s.drawn).conf = s.conf := rfl
@[simp] theorem drawn_chL (s : State) : (s.drawn).chL = s.chL := rfl
@[simp] theorem drawn_chR (s : State) : (s.drawn).chR = s.chR := rfl
@[simp] theorem drawn_iobL (s : State) : (s.drawn).iobL = s.iobL := rfl
@[simp] theorem drawn_iobR (s : State) : (s.drawn).iobR = s.iobR := rfl
@[simp] theorem drawn_cmd (s : State) : (s.drawn).cmd = s.cmd := rfl
@[simp] theorem drawn_ctl (s : State) : (s.drawn).ctl = s.ctl := rfl
@[simp] theorem drawn_rsp (s : State) : (s.drawn).rsp = s.rsp := rfl
@[simp] theorem drawn_mem (s : State) : (s.drawn).mem = s.mem := rfl
@[simp] theorem drawn_memOut (s : State) : (s.drawn).memOut = s.memOut := rfl
@[simp] theorem drawn_sched (s : State) : (s.drawn).sched = s.sched + 1 := rfl
@[simp] theorem drawn_por (s : State) : (s.drawn).por = s.por := rfl

/-! ### latchOne -/

@[simp] theorem latchOne_cfg (k : ParamIx) (s : State) : (latchOne k s).cfg = s.cfg := rfl
@[simp] theorem latchOne_prm (k : ParamIx) (s : State) : (latchOne k s).prm = s.prm := rfl
@[simp] theorem latchOne_tgt (k : ParamIx) (s : State) :
    (latchOne k s).tgt = s.tgt.set k (clampP k s.prm[k]) := rfl
@[simp] theorem latchOne_sm (k : ParamIx) (s : State) : (latchOne k s).sm = s.sm := rfl
@[simp] theorem latchOne_status (k : ParamIx) (s : State) : (latchOne k s).status = s.status := rfl
@[simp] theorem latchOne_busy (k : ParamIx) (s : State) : (latchOne k s).busy = s.busy := rfl
@[simp] theorem latchOne_sidx (k : ParamIx) (s : State) : (latchOne k s).sidx = s.sidx := rfl
@[simp] theorem latchOne_conf (k : ParamIx) (s : State) : (latchOne k s).conf = s.conf := rfl
@[simp] theorem latchOne_chL (k : ParamIx) (s : State) : (latchOne k s).chL = s.chL := rfl
@[simp] theorem latchOne_chR (k : ParamIx) (s : State) : (latchOne k s).chR = s.chR := rfl
@[simp] theorem latchOne_iobL (k : ParamIx) (s : State) : (latchOne k s).iobL = s.iobL := rfl
@[simp] theorem latchOne_iobR (k : ParamIx) (s : State) : (latchOne k s).iobR = s.iobR := rfl
@[simp] theorem latchOne_cmd (k : ParamIx) (s : State) : (latchOne k s).cmd = s.cmd := rfl
@[simp] theorem latchOne_ctl (k : ParamIx) (s : State) : (latchOne k s).ctl = s.ctl := rfl
@[simp] theorem latchOne_rsp (k : ParamIx) (s : State) : (latchOne k s).rsp = s.rsp := rfl
@[simp] theorem latchOne_mem (k : ParamIx) (s : State) : (latchOne k s).mem = s.mem := rfl
@[simp] theorem latchOne_memOut (k : ParamIx) (s : State) : (latchOne k s).memOut = s.memOut := rfl
@[simp] theorem latchOne_sched (k : ParamIx) (s : State) : (latchOne k s).sched = s.sched := rfl
@[simp] theorem latchOne_por (k : ParamIx) (s : State) : (latchOne k s).por = s.por := rfl

/-! ### snapSmoother -/

@[simp] theorem snapSmoother_cfg (s : State) : (snapSmoother s).cfg = s.cfg := rfl
@[simp] theorem snapSmoother_prm (s : State) : (snapSmoother s).prm = s.prm := rfl
@[simp] theorem snapSmoother_tgt (s : State) : (snapSmoother s).tgt = s.tgt := rfl
@[simp] theorem snapSmoother_sm (s : State) : (snapSmoother s).sm = s.tgt := rfl
@[simp] theorem snapSmoother_status (s : State) : (snapSmoother s).status = s.status := rfl
@[simp] theorem snapSmoother_busy (s : State) : (snapSmoother s).busy = s.busy := rfl
@[simp] theorem snapSmoother_sidx (s : State) : (snapSmoother s).sidx = s.sidx := rfl
@[simp] theorem snapSmoother_conf (s : State) : (snapSmoother s).conf = s.conf := rfl
@[simp] theorem snapSmoother_chL (s : State) : (snapSmoother s).chL = s.chL := rfl
@[simp] theorem snapSmoother_chR (s : State) : (snapSmoother s).chR = s.chR := rfl
@[simp] theorem snapSmoother_iobL (s : State) : (snapSmoother s).iobL = s.iobL := rfl
@[simp] theorem snapSmoother_iobR (s : State) : (snapSmoother s).iobR = s.iobR := rfl
@[simp] theorem snapSmoother_cmd (s : State) : (snapSmoother s).cmd = s.cmd := rfl
@[simp] theorem snapSmoother_ctl (s : State) : (snapSmoother s).ctl = s.ctl := rfl
@[simp] theorem snapSmoother_rsp (s : State) : (snapSmoother s).rsp = s.rsp := rfl
@[simp] theorem snapSmoother_mem (s : State) : (snapSmoother s).mem = s.mem := rfl
@[simp] theorem snapSmoother_memOut (s : State) : (snapSmoother s).memOut = s.memOut := rfl
@[simp] theorem snapSmoother_sched (s : State) : (snapSmoother s).sched = s.sched := rfl
@[simp] theorem snapSmoother_por (s : State) : (snapSmoother s).por = s.por := rfl

/-! ### clearChannels -/

@[simp] theorem clearChannels_cfg (s : State) : (clearChannels s).cfg = s.cfg := rfl
@[simp] theorem clearChannels_prm (s : State) : (clearChannels s).prm = s.prm := rfl
@[simp] theorem clearChannels_tgt (s : State) : (clearChannels s).tgt = s.tgt := rfl
@[simp] theorem clearChannels_sm (s : State) : (clearChannels s).sm = s.sm := rfl
@[simp] theorem clearChannels_status (s : State) : (clearChannels s).status = s.status := rfl
@[simp] theorem clearChannels_busy (s : State) : (clearChannels s).busy = s.busy := rfl
@[simp] theorem clearChannels_sidx (s : State) : (clearChannels s).sidx = s.sidx := rfl
@[simp] theorem clearChannels_conf (s : State) : (clearChannels s).conf = s.conf := rfl
@[simp] theorem clearChannels_chL (s : State) :
    (clearChannels s).chL = s.chL.cleared s.conf s.cfg.seedL := rfl
@[simp] theorem clearChannels_chR (s : State) :
    (clearChannels s).chR = s.chR.cleared s.conf s.cfg.seedR := rfl
@[simp] theorem clearChannels_iobL (s : State) : (clearChannels s).iobL = s.iobL := rfl
@[simp] theorem clearChannels_iobR (s : State) : (clearChannels s).iobR = s.iobR := rfl
@[simp] theorem clearChannels_cmd (s : State) : (clearChannels s).cmd = s.cmd := rfl
@[simp] theorem clearChannels_ctl (s : State) : (clearChannels s).ctl = s.ctl := rfl
@[simp] theorem clearChannels_rsp (s : State) : (clearChannels s).rsp = s.rsp := rfl
@[simp] theorem clearChannels_mem (s : State) : (clearChannels s).mem = s.mem := rfl
@[simp] theorem clearChannels_memOut (s : State) : (clearChannels s).memOut = s.memOut := rfl
@[simp] theorem clearChannels_sched (s : State) : (clearChannels s).sched = s.sched := rfl
@[simp] theorem clearChannels_por (s : State) : (clearChannels s).por = s.por := rfl

/-! ### beginCommand -/

@[simp] theorem beginCommand_cfg (s : State) : (beginCommand s).cfg = s.cfg := rfl
@[simp] theorem beginCommand_prm (s : State) : (beginCommand s).prm = s.prm := rfl
@[simp] theorem beginCommand_tgt (s : State) : (beginCommand s).tgt = s.tgt := rfl
@[simp] theorem beginCommand_sm (s : State) : (beginCommand s).sm = s.sm := rfl
@[simp] theorem beginCommand_status (s : State) : (beginCommand s).status = s.status := rfl
@[simp] theorem beginCommand_busy (s : State) : (beginCommand s).busy = true := rfl
@[simp] theorem beginCommand_sidx (s : State) : (beginCommand s).sidx = s.sidx := rfl
@[simp] theorem beginCommand_conf (s : State) : (beginCommand s).conf = s.conf := rfl
@[simp] theorem beginCommand_chL (s : State) : (beginCommand s).chL = s.chL := rfl
@[simp] theorem beginCommand_chR (s : State) : (beginCommand s).chR = s.chR := rfl
@[simp] theorem beginCommand_iobL (s : State) : (beginCommand s).iobL = s.iobL := rfl
@[simp] theorem beginCommand_iobR (s : State) : (beginCommand s).iobR = s.iobR := rfl
@[simp] theorem beginCommand_cmd (s : State) : (beginCommand s).cmd = s.cmd := rfl
@[simp] theorem beginCommand_ctl (s : State) : (beginCommand s).ctl = s.ctl := rfl
@[simp] theorem beginCommand_rsp (s : State) : (beginCommand s).rsp = s.rsp := rfl
@[simp] theorem beginCommand_mem (s : State) : (beginCommand s).mem = s.mem := rfl
@[simp] theorem beginCommand_memOut (s : State) : (beginCommand s).memOut = s.memOut := rfl
@[simp] theorem beginCommand_sched (s : State) : (beginCommand s).sched = s.sched := rfl
@[simp] theorem beginCommand_por (s : State) : (beginCommand s).por = s.por := rfl

/-! ### endCommand -/

@[simp] theorem endCommand_cfg (w : Word) (s : State) : (endCommand w s).cfg = s.cfg := rfl
@[simp] theorem endCommand_prm (w : Word) (s : State) : (endCommand w s).prm = s.prm := rfl
@[simp] theorem endCommand_tgt (w : Word) (s : State) : (endCommand w s).tgt = s.tgt := rfl
@[simp] theorem endCommand_sm (w : Word) (s : State) : (endCommand w s).sm = s.sm := rfl
@[simp] theorem endCommand_status (w : Word) (s : State) : (endCommand w s).status = s.status := rfl
@[simp] theorem endCommand_busy (w : Word) (s : State) : (endCommand w s).busy = false := rfl
@[simp] theorem endCommand_sidx (w : Word) (s : State) : (endCommand w s).sidx = s.sidx := rfl
@[simp] theorem endCommand_conf (w : Word) (s : State) : (endCommand w s).conf = s.conf := rfl
@[simp] theorem endCommand_chL (w : Word) (s : State) : (endCommand w s).chL = s.chL := rfl
@[simp] theorem endCommand_chR (w : Word) (s : State) : (endCommand w s).chR = s.chR := rfl
@[simp] theorem endCommand_iobL (w : Word) (s : State) : (endCommand w s).iobL = s.iobL := rfl
@[simp] theorem endCommand_iobR (w : Word) (s : State) : (endCommand w s).iobR = s.iobR := rfl
@[simp] theorem endCommand_cmd (w : Word) (s : State) : (endCommand w s).cmd = s.cmd := rfl
@[simp] theorem endCommand_ctl (w : Word) (s : State) : (endCommand w s).ctl = s.ctl := rfl
@[simp] theorem endCommand_rsp (w : Word) (s : State) : (endCommand w s).rsp = s.rsp ++ [w] := rfl
@[simp] theorem endCommand_mem (w : Word) (s : State) : (endCommand w s).mem = s.mem := rfl
@[simp] theorem endCommand_memOut (w : Word) (s : State) : (endCommand w s).memOut = s.memOut := rfl
@[simp] theorem endCommand_sched (w : Word) (s : State) : (endCommand w s).sched = s.sched := rfl
@[simp] theorem endCommand_por (w : Word) (s : State) : (endCommand w s).por = s.por := rfl

/-! ### configure -/

@[simp] theorem configure_cfg (N : NumFns) (fs : F32) (mb : U32) (s : State) :
    (configure N fs mb s).cfg = s.cfg := rfl
@[simp] theorem configure_prm (N : NumFns) (fs : F32) (mb : U32) (s : State) :
    (configure N fs mb s).prm = s.prm := rfl
@[simp] theorem configure_tgt (N : NumFns) (fs : F32) (mb : U32) (s : State) :
    (configure N fs mb s).tgt = s.tgt := rfl
@[simp] theorem configure_sm (N : NumFns) (fs : F32) (mb : U32) (s : State) :
    (configure N fs mb s).sm = s.sm := rfl
@[simp] theorem configure_status (N : NumFns) (fs : F32) (mb : U32) (s : State) :
    (configure N fs mb s).status = s.status := rfl
@[simp] theorem configure_busy (N : NumFns) (fs : F32) (mb : U32) (s : State) :
    (configure N fs mb s).busy = s.busy := rfl
@[simp] theorem configure_sidx (N : NumFns) (fs : F32) (mb : U32) (s : State) :
    (configure N fs mb s).sidx = s.sidx := rfl
@[simp] theorem configure_conf (N : NumFns) (fs : F32) (mb : U32) (s : State) :
    (configure N fs mb s).conf = Conf.computed N s.cfg fs mb := rfl
@[simp] theorem configure_chL (N : NumFns) (fs : F32) (mb : U32) (s : State) :
    (configure N fs mb s).chL = s.chL := rfl
@[simp] theorem configure_chR (N : NumFns) (fs : F32) (mb : U32) (s : State) :
    (configure N fs mb s).chR = s.chR := rfl
@[simp] theorem configure_iobL (N : NumFns) (fs : F32) (mb : U32) (s : State) :
    (configure N fs mb s).iobL = s.iobL := rfl
@[simp] theorem configure_iobR (N : NumFns) (fs : F32) (mb : U32) (s : State) :
    (configure N fs mb s).iobR = s.iobR := rfl
@[simp] theorem configure_cmd (N : NumFns) (fs : F32) (mb : U32) (s : State) :
    (configure N fs mb s).cmd = s.cmd := rfl
@[simp] theorem configure_ctl (N : NumFns) (fs : F32) (mb : U32) (s : State) :
    (configure N fs mb s).ctl = s.ctl := rfl
@[simp] theorem configure_rsp (N : NumFns) (fs : F32) (mb : U32) (s : State) :
    (configure N fs mb s).rsp = s.rsp := rfl
@[simp] theorem configure_mem (N : NumFns) (fs : F32) (mb : U32) (s : State) :
    (configure N fs mb s).mem = s.mem := rfl
@[simp] theorem configure_memOut (N : NumFns) (fs : F32) (mb : U32) (s : State) :
    (configure N fs mb s).memOut = s.memOut := rfl
@[simp] theorem configure_sched (N : NumFns) (fs : F32) (mb : U32) (s : State) :
    (configure N fs mb s).sched = s.sched := rfl
@[simp] theorem configure_por (N : NumFns) (fs : F32) (mb : U32) (s : State) :
    (configure N fs mb s).por = s.por := rfl

/-! ### markPrepared -/

@[simp] theorem markPrepared_cfg (s : State) : (markPrepared s).cfg = s.cfg := rfl
@[simp] theorem markPrepared_prm (s : State) : (markPrepared s).prm = s.prm := rfl
@[simp] theorem markPrepared_tgt (s : State) : (markPrepared s).tgt = s.tgt := rfl
@[simp] theorem markPrepared_sm (s : State) : (markPrepared s).sm = s.sm := rfl
@[simp] theorem markPrepared_status (s : State) :
    (markPrepared s).status = s.status ||| maskPrepared := rfl
@[simp] theorem markPrepared_busy (s : State) : (markPrepared s).busy = s.busy := rfl
@[simp] theorem markPrepared_sidx (s : State) : (markPrepared s).sidx = s.sidx := rfl
@[simp] theorem markPrepared_conf (s : State) : (markPrepared s).conf = s.conf := rfl
@[simp] theorem markPrepared_chL (s : State) : (markPrepared s).chL = s.chL := rfl
@[simp] theorem markPrepared_chR (s : State) : (markPrepared s).chR = s.chR := rfl
@[simp] theorem markPrepared_iobL (s : State) : (markPrepared s).iobL = s.iobL := rfl
@[simp] theorem markPrepared_iobR (s : State) : (markPrepared s).iobR = s.iobR := rfl
@[simp] theorem markPrepared_cmd (s : State) : (markPrepared s).cmd = s.cmd := rfl
@[simp] theorem markPrepared_ctl (s : State) : (markPrepared s).ctl = s.ctl := rfl
@[simp] theorem markPrepared_rsp (s : State) : (markPrepared s).rsp = s.rsp := rfl
@[simp] theorem markPrepared_mem (s : State) : (markPrepared s).mem = s.mem := rfl
@[simp] theorem markPrepared_memOut (s : State) : (markPrepared s).memOut = s.memOut := rfl
@[simp] theorem markPrepared_sched (s : State) : (markPrepared s).sched = s.sched := rfl
@[simp] theorem markPrepared_por (s : State) : (markPrepared s).por = s.por := rfl

/-! ### uSmooth -/

@[simp] theorem uSmooth_cfg (s : State) : (uSmooth s).cfg = s.cfg := rfl
@[simp] theorem uSmooth_prm (s : State) : (uSmooth s).prm = s.prm := rfl
@[simp] theorem uSmooth_tgt (s : State) : (uSmooth s).tgt = s.tgt := rfl
@[simp] theorem uSmooth_sm (s : State) : (uSmooth s).sm = smoothed s.conf.csm s.tgt s.sm := rfl
@[simp] theorem uSmooth_status (s : State) : (uSmooth s).status = s.status := rfl
@[simp] theorem uSmooth_busy (s : State) : (uSmooth s).busy = s.busy := rfl
@[simp] theorem uSmooth_sidx (s : State) : (uSmooth s).sidx = s.sidx := rfl
@[simp] theorem uSmooth_conf (s : State) : (uSmooth s).conf = s.conf := rfl
@[simp] theorem uSmooth_chL (s : State) : (uSmooth s).chL = s.chL := rfl
@[simp] theorem uSmooth_chR (s : State) : (uSmooth s).chR = s.chR := rfl
@[simp] theorem uSmooth_iobL (s : State) : (uSmooth s).iobL = s.iobL := rfl
@[simp] theorem uSmooth_iobR (s : State) : (uSmooth s).iobR = s.iobR := rfl
@[simp] theorem uSmooth_cmd (s : State) : (uSmooth s).cmd = s.cmd := rfl
@[simp] theorem uSmooth_ctl (s : State) : (uSmooth s).ctl = s.ctl := rfl
@[simp] theorem uSmooth_rsp (s : State) : (uSmooth s).rsp = s.rsp := rfl
@[simp] theorem uSmooth_mem (s : State) : (uSmooth s).mem = s.mem := rfl
@[simp] theorem uSmooth_memOut (s : State) : (uSmooth s).memOut = s.memOut := rfl
@[simp] theorem uSmooth_sched (s : State) : (uSmooth s).sched = s.sched := rfl
@[simp] theorem uSmooth_por (s : State) : (uSmooth s).por = s.por := rfl

/-! ### setChan -/

@[simp] theorem setChan_cfg (c : Chan) (x : Channel) (s : State) :
    (s.setChan c x).cfg = s.cfg := by cases c <;> rfl
@[simp] theorem setChan_prm (c : Chan) (x : Channel) (s : State) :
    (s.setChan c x).prm = s.prm := by cases c <;> rfl
@[simp] theorem setChan_tgt (c : Chan) (x : Channel) (s : State) :
    (s.setChan c x).tgt = s.tgt := by cases c <;> rfl
@[simp] theorem setChan_sm (c : Chan) (x : Channel) (s : State) : (s.setChan c x).sm = s.sm := by cases c <;> rfl
@[simp] theorem setChan_status (c : Chan) (x : Channel) (s : State) :
    (s.setChan c x).status = s.status := by cases c <;> rfl
@[simp] theorem setChan_busy (c : Chan) (x : Channel) (s : State) :
    (s.setChan c x).busy = s.busy := by cases c <;> rfl
@[simp] theorem setChan_sidx (c : Chan) (x : Channel) (s : State) :
    (s.setChan c x).sidx = s.sidx := by cases c <;> rfl
@[simp] theorem setChan_conf (c : Chan) (x : Channel) (s : State) :
    (s.setChan c x).conf = s.conf := by cases c <;> rfl
@[simp] theorem setChan_iobL (c : Chan) (x : Channel) (s : State) :
    (s.setChan c x).iobL = s.iobL := by cases c <;> rfl
@[simp] theorem setChan_iobR (c : Chan) (x : Channel) (s : State) :
    (s.setChan c x).iobR = s.iobR := by cases c <;> rfl
@[simp] theorem setChan_cmd (c : Chan) (x : Channel) (s : State) :
    (s.setChan c x).cmd = s.cmd := by cases c <;> rfl
@[simp] theorem setChan_ctl (c : Chan) (x : Channel) (s : State) :
    (s.setChan c x).ctl = s.ctl := by cases c <;> rfl
@[simp] theorem setChan_rsp (c : Chan) (x : Channel) (s : State) :
    (s.setChan c x).rsp = s.rsp := by cases c <;> rfl
@[simp] theorem setChan_mem (c : Chan) (x : Channel) (s : State) :
    (s.setChan c x).mem = s.mem := by cases c <;> rfl
@[simp] theorem setChan_memOut (c : Chan) (x : Channel) (s : State) :
    (s.setChan c x).memOut = s.memOut := by cases c <;> rfl
@[simp] theorem setChan_sched (c : Chan) (x : Channel) (s : State) :
    (s.setChan c x).sched = s.sched := by cases c <;> rfl
@[simp] theorem setChan_por (c : Chan) (x : Channel) (s : State) :
    (s.setChan c x).por = s.por := by cases c <;> rfl

/-! ### setIob -/

@[simp] theorem setIob_cfg (c : Chan) (m : Cells) (s : State) : (s.setIob c m).cfg = s.cfg := by cases c <;> rfl
@[simp] theorem setIob_prm (c : Chan) (m : Cells) (s : State) : (s.setIob c m).prm = s.prm := by cases c <;> rfl
@[simp] theorem setIob_tgt (c : Chan) (m : Cells) (s : State) : (s.setIob c m).tgt = s.tgt := by cases c <;> rfl
@[simp] theorem setIob_sm (c : Chan) (m : Cells) (s : State) : (s.setIob c m).sm = s.sm := by cases c <;> rfl
@[simp] theorem setIob_status (c : Chan) (m : Cells) (s : State) :
    (s.setIob c m).status = s.status := by cases c <;> rfl
@[simp] theorem setIob_busy (c : Chan) (m : Cells) (s : State) : (s.setIob c m).busy = s.busy := by cases c <;> rfl
@[simp] theorem setIob_sidx (c : Chan) (m : Cells) (s : State) : (s.setIob c m).sidx = s.sidx := by cases c <;> rfl
@[simp] theorem setIob_conf (c : Chan) (m : Cells) (s : State) : (s.setIob c m).conf = s.conf := by cases c <;> rfl
@[simp] theorem setIob_chL (c : Chan) (m : Cells) (s : State) : (s.setIob c m).chL = s.chL := by cases c <;> rfl
@[simp] theorem setIob_chR (c : Chan) (m : Cells) (s : State) : (s.setIob c m).chR = s.chR := by cases c <;> rfl
@[simp] theorem setIob_cmd (c : Chan) (m : Cells) (s : State) : (s.setIob c m).cmd = s.cmd := by cases c <;> rfl
@[simp] theorem setIob_ctl (c : Chan) (m : Cells) (s : State) : (s.setIob c m).ctl = s.ctl := by cases c <;> rfl
@[simp] theorem setIob_rsp (c : Chan) (m : Cells) (s : State) : (s.setIob c m).rsp = s.rsp := by cases c <;> rfl
@[simp] theorem setIob_mem (c : Chan) (m : Cells) (s : State) : (s.setIob c m).mem = s.mem := by cases c <;> rfl
@[simp] theorem setIob_memOut (c : Chan) (m : Cells) (s : State) :
    (s.setIob c m).memOut = s.memOut := by cases c <;> rfl
@[simp] theorem setIob_sched (c : Chan) (m : Cells) (s : State) :
    (s.setIob c m).sched = s.sched := by cases c <;> rfl
@[simp] theorem setIob_por (c : Chan) (m : Cells) (s : State) : (s.setIob c m).por = s.por := by cases c <;> rfl

/-! ### ioWrite -/

@[simp] theorem ioWrite_cfg (c : Chan) (i : Nat) (w : Word) (s : State) :
    (s.ioWrite c i w).cfg = s.cfg := by cases c <;> rfl
@[simp] theorem ioWrite_prm (c : Chan) (i : Nat) (w : Word) (s : State) :
    (s.ioWrite c i w).prm = s.prm := by cases c <;> rfl
@[simp] theorem ioWrite_tgt (c : Chan) (i : Nat) (w : Word) (s : State) :
    (s.ioWrite c i w).tgt = s.tgt := by cases c <;> rfl
@[simp] theorem ioWrite_sm (c : Chan) (i : Nat) (w : Word) (s : State) :
    (s.ioWrite c i w).sm = s.sm := by cases c <;> rfl
@[simp] theorem ioWrite_status (c : Chan) (i : Nat) (w : Word) (s : State) :
    (s.ioWrite c i w).status = s.status := by cases c <;> rfl
@[simp] theorem ioWrite_busy (c : Chan) (i : Nat) (w : Word) (s : State) :
    (s.ioWrite c i w).busy = s.busy := by cases c <;> rfl
@[simp] theorem ioWrite_sidx (c : Chan) (i : Nat) (w : Word) (s : State) :
    (s.ioWrite c i w).sidx = s.sidx := by cases c <;> rfl
@[simp] theorem ioWrite_conf (c : Chan) (i : Nat) (w : Word) (s : State) :
    (s.ioWrite c i w).conf = s.conf := by cases c <;> rfl
@[simp] theorem ioWrite_chL (c : Chan) (i : Nat) (w : Word) (s : State) :
    (s.ioWrite c i w).chL = s.chL := by cases c <;> rfl
@[simp] theorem ioWrite_chR (c : Chan) (i : Nat) (w : Word) (s : State) :
    (s.ioWrite c i w).chR = s.chR := by cases c <;> rfl
@[simp] theorem ioWrite_cmd (c : Chan) (i : Nat) (w : Word) (s : State) :
    (s.ioWrite c i w).cmd = s.cmd := by cases c <;> rfl
@[simp] theorem ioWrite_ctl (c : Chan) (i : Nat) (w : Word) (s : State) :
    (s.ioWrite c i w).ctl = s.ctl := by cases c <;> rfl
@[simp] theorem ioWrite_rsp (c : Chan) (i : Nat) (w : Word) (s : State) :
    (s.ioWrite c i w).rsp = s.rsp := by cases c <;> rfl
@[simp] theorem ioWrite_mem (c : Chan) (i : Nat) (w : Word) (s : State) :
    (s.ioWrite c i w).mem = s.mem := by cases c <;> rfl
@[simp] theorem ioWrite_memOut (c : Chan) (i : Nat) (w : Word) (s : State) :
    (s.ioWrite c i w).memOut = s.memOut := by cases c <;> rfl
@[simp] theorem ioWrite_sched (c : Chan) (i : Nat) (w : Word) (s : State) :
    (s.ioWrite c i w).sched = s.sched := by cases c <;> rfl
@[simp] theorem ioWrite_por (c : Chan) (i : Nat) (w : Word) (s : State) :
    (s.ioWrite c i w).por = s.por := by cases c <;> rfl

/-! ### writeParam -/

@[simp] theorem writeParam_cfg (k : Nat) (v : F32) (s : State) :
    (writeParam k v s).cfg = s.cfg := by
  unfold writeParam; cases paramOf k <;> rfl
@[simp] theorem writeParam_tgt (k : Nat) (v : F32) (s : State) :
    (writeParam k v s).tgt = s.tgt := by
  unfold writeParam; cases paramOf k <;> rfl
@[simp] theorem writeParam_sm (k : Nat) (v : F32) (s : State) : (writeParam k v s).sm = s.sm := by
  unfold writeParam; cases paramOf k <;> rfl
@[simp] theorem writeParam_busy (k : Nat) (v : F32) (s : State) :
    (writeParam k v s).busy = s.busy := by
  unfold writeParam; cases paramOf k <;> rfl
@[simp] theorem writeParam_sidx (k : Nat) (v : F32) (s : State) :
    (writeParam k v s).sidx = s.sidx := by
  unfold writeParam; cases paramOf k <;> rfl
@[simp] theorem writeParam_conf (k : Nat) (v : F32) (s : State) :
    (writeParam k v s).conf = s.conf := by
  unfold writeParam; cases paramOf k <;> rfl
@[simp] theorem writeParam_chL (k : Nat) (v : F32) (s : State) :
    (writeParam k v s).chL = s.chL := by
  unfold writeParam; cases paramOf k <;> rfl
@[simp] theorem writeParam_chR (k : Nat) (v : F32) (s : State) :
    (writeParam k v s).chR = s.chR := by
  unfold writeParam; cases paramOf k <;> rfl
@[simp] theorem writeParam_iobL (k : Nat) (v : F32) (s : State) :
    (writeParam k v s).iobL = s.iobL := by
  unfold writeParam; cases paramOf k <;> rfl
@[simp] theorem writeParam_iobR (k : Nat) (v : F32) (s : State) :
    (writeParam k v s).iobR = s.iobR := by
  unfold writeParam; cases paramOf k <;> rfl
@[simp] theorem writeParam_cmd (k : Nat) (v : F32) (s : State) :
    (writeParam k v s).cmd = s.cmd := by
  unfold writeParam; cases paramOf k <;> rfl
@[simp] theorem writeParam_ctl (k : Nat) (v : F32) (s : State) :
    (writeParam k v s).ctl = s.ctl := by
  unfold writeParam; cases paramOf k <;> rfl
@[simp] theorem writeParam_rsp (k : Nat) (v : F32) (s : State) :
    (writeParam k v s).rsp = s.rsp := by
  unfold writeParam; cases paramOf k <;> rfl
@[simp] theorem writeParam_mem (k : Nat) (v : F32) (s : State) :
    (writeParam k v s).mem = s.mem := by
  unfold writeParam; cases paramOf k <;> rfl
@[simp] theorem writeParam_memOut (k : Nat) (v : F32) (s : State) :
    (writeParam k v s).memOut = s.memOut := by
  unfold writeParam; cases paramOf k <;> rfl
@[simp] theorem writeParam_sched (k : Nat) (v : F32) (s : State) :
    (writeParam k v s).sched = s.sched := by
  unfold writeParam; cases paramOf k <;> rfl
@[simp] theorem writeParam_por (k : Nat) (v : F32) (s : State) :
    (writeParam k v s).por = s.por := by
  unfold writeParam; cases paramOf k <;> rfl

/-! ### Channels and IOBUF by channel -/

@[simp] theorem chan_left (s : State) : s.chan .left = s.chL := rfl
@[simp] theorem chan_right (s : State) : s.chan .right = s.chR := rfl
@[simp] theorem iob_left (s : State) : s.iob .left = s.iobL := rfl
@[simp] theorem iob_right (s : State) : s.iob .right = s.iobR := rfl
@[simp] theorem setChan_left_chL (x : Channel) (s : State) : (s.setChan .left x).chL = x := rfl
@[simp] theorem setChan_left_chR (x : Channel) (s : State) : (s.setChan .left x).chR = s.chR := rfl
@[simp] theorem setChan_right_chL (x : Channel) (s : State) : (s.setChan .right x).chL = s.chL := rfl
@[simp] theorem setChan_right_chR (x : Channel) (s : State) : (s.setChan .right x).chR = x := rfl
@[simp] theorem setIob_left_iobL (m : Cells) (s : State) : (s.setIob .left m).iobL = m := rfl
@[simp] theorem setIob_left_iobR (m : Cells) (s : State) : (s.setIob .left m).iobR = s.iobR := rfl
@[simp] theorem setIob_right_iobL (m : Cells) (s : State) : (s.setIob .right m).iobL = s.iobL := rfl
@[simp] theorem setIob_right_iobR (m : Cells) (s : State) : (s.setIob .right m).iobR = m := rfl

@[simp] theorem setChan_chan_self (c : Chan) (x : Channel) (s : State) : (s.setChan c x).chan c = x := by
  cases c <;> rfl

@[simp] theorem setIob_iob_self (c : Chan) (m : Cells) (s : State) : (s.setIob c m).iob c = m := by
  cases c <;> rfl

@[simp] theorem setIob_chan (c d : Chan) (m : Cells) (s : State) : (s.setIob c m).chan d = s.chan d := by
  cases c <;> cases d <;> rfl

@[simp] theorem setChan_iob (c d : Chan) (x : Channel) (s : State) : (s.setChan c x).iob d = s.iob d := by
  cases c <;> cases d <;> rfl

theorem setChan_chan_other {c d : Chan} (h : d ≠ c) (x : Channel) (s : State) :
    (s.setChan c x).chan d = s.chan d := by
  cases c <;> cases d <;> first | rfl | exact absurd rfl h

theorem setIob_iob_other {c d : Chan} (h : d ≠ c) (m : Cells) (s : State) :
    (s.setIob c m).iob d = s.iob d := by
  cases c <;> cases d <;> first | rfl | exact absurd rfl h

/-! ### tookCmd -/

@[simp] theorem tookCmd_cfg (rest : List Word) (s : State) : (s.tookCmd rest).cfg = s.cfg := rfl
@[simp] theorem tookCmd_prm (rest : List Word) (s : State) : (s.tookCmd rest).prm = s.prm := rfl
@[simp] theorem tookCmd_tgt (rest : List Word) (s : State) : (s.tookCmd rest).tgt = s.tgt := rfl
@[simp] theorem tookCmd_sm (rest : List Word) (s : State) : (s.tookCmd rest).sm = s.sm := rfl
@[simp] theorem tookCmd_status (rest : List Word) (s : State) : (s.tookCmd rest).status = s.status := rfl
@[simp] theorem tookCmd_busy (rest : List Word) (s : State) : (s.tookCmd rest).busy = s.busy := rfl
@[simp] theorem tookCmd_sidx (rest : List Word) (s : State) : (s.tookCmd rest).sidx = s.sidx := rfl
@[simp] theorem tookCmd_conf (rest : List Word) (s : State) : (s.tookCmd rest).conf = s.conf := rfl
@[simp] theorem tookCmd_chL (rest : List Word) (s : State) : (s.tookCmd rest).chL = s.chL := rfl
@[simp] theorem tookCmd_chR (rest : List Word) (s : State) : (s.tookCmd rest).chR = s.chR := rfl
@[simp] theorem tookCmd_iobL (rest : List Word) (s : State) : (s.tookCmd rest).iobL = s.iobL := rfl
@[simp] theorem tookCmd_iobR (rest : List Word) (s : State) : (s.tookCmd rest).iobR = s.iobR := rfl
@[simp] theorem tookCmd_ctl (rest : List Word) (s : State) : (s.tookCmd rest).ctl = s.ctl := rfl
@[simp] theorem tookCmd_rsp (rest : List Word) (s : State) : (s.tookCmd rest).rsp = s.rsp := rfl
@[simp] theorem tookCmd_memOut (rest : List Word) (s : State) : (s.tookCmd rest).memOut = s.memOut := rfl
@[simp] theorem tookCmd_sched (rest : List Word) (s : State) : (s.tookCmd rest).sched = s.sched := rfl
@[simp] theorem tookCmd_por (rest : List Word) (s : State) : (s.tookCmd rest).por = s.por := rfl
@[simp] theorem tookCmd_cmd (rest : List Word) (s : State) : (s.tookCmd rest).cmd = rest := rfl
@[simp] theorem tookCmd_mem (rest : List Word) (s : State) : (s.tookCmd rest).mem =
    s.mem.map fun t => { t with after := t.after - (s.cmd.length - rest.length) } := rfl

end Sys2Proof.Machine
end

