-- ==== Sys2Proof/Laws/Memory.lean ====
section
/-! SUPPORT. Laws of the memories: read after write, every other word unchanged, and the canonical form
is kept by every operation. -/

-- Proofs one after another: elaborated at once, they ask for more threads than the check allows.
set_option Elab.async false

namespace Sys2Proof.Machine

/-! ### Reading the list -/

theorem lookupCell_insertCell_self (a : Nat) (v : Word) (m : Cells) :
    lookupCell (insertCell a v m) a = some v := by
  induction m with
  | nil => simp [insertCell, lookupCell]
  | cons c m ih =>
    obtain ⟨b, u⟩ := c
    simp only [insertCell]
    split
    · simp [lookupCell]
    · split
      · simp [lookupCell]
      · simp [lookupCell, *]

theorem lookupCell_insertCell_other {a b : Nat} (h : b ≠ a) (v : Word) (m : Cells) :
    lookupCell (insertCell a v m) b = lookupCell m b := by
  induction m with
  | nil => simp [insertCell, lookupCell, h]
  | cons c m ih =>
    obtain ⟨d, u⟩ := c
    simp only [insertCell]
    split
    · simp [lookupCell, h]
    · split
      · next hd => subst hd; simp [lookupCell, h]
      · simp [lookupCell, ih]

theorem lookupCell_eraseCell_other {a b : Nat} (h : b ≠ a) (m : Cells) :
    lookupCell (eraseCell a m) b = lookupCell m b := by
  induction m with
  | nil => rfl
  | cons c m ih =>
    obtain ⟨d, u⟩ := c
    simp only [eraseCell]
    split
    · next hd => subst hd; simp [lookupCell, h]
    · simp [lookupCell, ih]

theorem above_iff {a : Nat} {m : Cells} : Memory.above a m = true ↔ ∀ c ∈ m, a < c.1 := by
  simp [Memory.above]

theorem wf_cons {a : Nat} {v : Word} {m : Cells} :
    Memory.wf ((a, v) :: m) = true ↔ (∀ c ∈ m, a < c.1) ∧ Memory.wf m = true := by
  simp [Memory.wf, above_iff]

theorem ramWf_iff {m : Cells} :
    Memory.ramWf m = true ↔ Memory.wf m = true ∧ ∀ c ∈ m, c.2 ≠ Lit.zero := by
  simp [Memory.ramWf]

theorem lookupCell_none_of_above {a : Nat} {m : Cells} (h : ∀ c ∈ m, a < c.1) :
    lookupCell m a = none := by
  induction m with
  | nil => rfl
  | cons c m ih =>
    obtain ⟨b, u⟩ := c
    have hb : a < b := h (b, u) (by simp)
    simp only [lookupCell]
    rw [if_neg (by omega), ih fun c hc => h c (by simp [hc])]

theorem lookupCell_eraseCell_self {a : Nat} {m : Cells} (h : Memory.wf m = true) :
    lookupCell (eraseCell a m) a = none := by
  induction m with
  | nil => rfl
  | cons c m ih =>
    obtain ⟨b, u⟩ := c
    rw [wf_cons] at h
    simp only [eraseCell]
    split
    · next hb => subst hb; exact lookupCell_none_of_above h.1
    · next hb => simp [lookupCell, hb, ih h.2]

/-! ### Membership -/

theorem mem_insertCell {a : Nat} {v : Word} {m : Cells} {c : Nat × Word}
    (h : c ∈ insertCell a v m) : c = (a, v) ∨ c ∈ m := by
  induction m with
  | nil => simpa [insertCell] using h
  | cons d m ih =>
    obtain ⟨b, u⟩ := d
    simp only [insertCell] at h
    split at h
    · simpa using h
    · split at h
      · rcases List.mem_cons.1 h with h | h
        · exact .inl h
        · exact .inr (by simp [h])
      · rcases List.mem_cons.1 h with h | h
        · exact .inr (by simp [h])
        · rcases ih h with h | h
          · exact .inl h
          · exact .inr (by simp [h])

theorem mem_of_mem_eraseCell {a : Nat} {m : Cells} {c : Nat × Word} (h : c ∈ eraseCell a m) :
    c ∈ m := by
  induction m with
  | nil => simp [eraseCell] at h
  | cons d m ih =>
    obtain ⟨b, u⟩ := d
    simp only [eraseCell] at h
    split at h
    · simp [h]
    · rcases List.mem_cons.1 h with h | h
      · simp [h]
      · simp [ih h]

/-! ### The canonical form is kept -/

theorem insertCell_wf (a : Nat) (v : Word) {m : Cells} (h : Memory.wf m = true) :
    Memory.wf (insertCell a v m) = true := by
  induction m with
  | nil => simp [insertCell, Memory.wf, Memory.above]
  | cons c m ih =>
    obtain ⟨b, u⟩ := c
    have hc := wf_cons.1 h
    simp only [insertCell]
    split
    · next hb =>
      refine wf_cons.2 ⟨fun c hm => ?_, h⟩
      rcases List.mem_cons.1 hm with hm | hm
      · simpa [hm] using hb
      · exact lt_trans hb (hc.1 c hm)
    · split
      · next hb => subst hb; exact wf_cons.2 ⟨hc.1, hc.2⟩
      · refine wf_cons.2 ⟨fun c hm => ?_, ih hc.2⟩
        rcases mem_insertCell hm with hm | hm
        · simp only [hm]; omega
        · exact hc.1 c hm

theorem eraseCell_wf (a : Nat) {m : Cells} (h : Memory.wf m = true) :
    Memory.wf (eraseCell a m) = true := by
  induction m with
  | nil => rfl
  | cons c m ih =>
    obtain ⟨b, u⟩ := c
    have hc := wf_cons.1 h
    simp only [eraseCell]
    split
    · exact hc.2
    · exact wf_cons.2 ⟨fun c hm => hc.1 c (mem_of_mem_eraseCell hm), ih hc.2⟩

theorem filter_wf (p : Nat × Word → Bool) {m : Cells} (h : Memory.wf m = true) :
    Memory.wf (m.filter p) = true := by
  induction m with
  | nil => rfl
  | cons c m ih =>
    obtain ⟨b, u⟩ := c
    have hc := wf_cons.1 h
    simp only [List.filter]
    split
    · exact wf_cons.2 ⟨fun c hm => hc.1 c (List.mem_of_mem_filter hm), ih hc.2⟩
    · exact ih hc.2

theorem ramWrite_ramWf (a : Nat) (v : F32) {m : Cells} (h : Memory.ramWf m = true) :
    Memory.ramWf (ramWrite m a v) = true := by
  rw [ramWf_iff] at h ⊢
  unfold ramWrite
  split
  · exact ⟨eraseCell_wf a h.1, fun c hm => h.2 c (mem_of_mem_eraseCell hm)⟩
  · next hv =>
    refine ⟨insertCell_wf a v h.1, fun c hm => ?_⟩
    rcases mem_insertCell hm with hm | hm
    · simpa [hm] using hv
    · exact h.2 c hm

theorem ramClear_ramWf (n : Nat) {m : Cells} (h : Memory.ramWf m = true) :
    Memory.ramWf (ramClear n m) = true := by
  rw [ramWf_iff] at h ⊢
  exact ⟨filter_wf _ h.1, fun c hm => h.2 c (List.mem_of_mem_filter hm)⟩

/-! ### Reading a delay RAM -/

theorem ramRead_ramWrite_self (a : Nat) (v : F32) {m : Cells} (h : Memory.wf m = true) :
    ramRead (ramWrite m a v) a = v := by
  unfold ramRead ramWrite
  split
  · next hv => rw [lookupCell_eraseCell_self h, hv]; rfl
  · rw [lookupCell_insertCell_self]; rfl

theorem ramRead_ramWrite_other {a b : Nat} (h : b ≠ a) (v : F32) (m : Cells) :
    ramRead (ramWrite m a v) b = ramRead m b := by
  unfold ramRead ramWrite
  split
  · rw [lookupCell_eraseCell_other h]
  · rw [lookupCell_insertCell_other h]

theorem lookupCell_ramClear (n a : Nat) (m : Cells) :
    lookupCell (ramClear n m) a = if a < n then none else lookupCell m a := by
  induction m with
  | nil => simp [ramClear, lookupCell]
  | cons c m ih =>
    obtain ⟨b, u⟩ := c
    unfold ramClear at ih ⊢
    simp only [List.filter]
    split
    · next hb =>
      have hb : n ≤ b := by simpa using hb
      simp only [lookupCell, ih]
      split
      · next hab => subst hab; rw [if_neg (by omega)]
      · rfl
    · next hb =>
      have hb : b < n := by simpa using hb
      rw [ih]
      split
      · rfl
      · simp only [lookupCell]; rw [if_neg (by omega)]

/-- After the clearing of the words below `n` each of them reads `+0.0`, and no other changes (R258). -/
theorem ramRead_ramClear (n a : Nat) (m : Cells) :
    ramRead (ramClear n m) a = if a < n then Lit.zero else ramRead m a := by
  unfold ramRead
  rw [lookupCell_ramClear]
  split <;> rfl

/-! ### Reading IOBUF -/

@[simp] theorem ioWrite_iob_self (c : Chan) (i : Nat) (w : Word) (s : State) :
    (s.ioWrite c i w).iob c = insertCell i w (s.iob c) := by
  simp [State.ioWrite]

theorem ioRead_ioWrite_self (c : Chan) (i : Nat) (w : Word) (s : State) :
    (s.ioWrite c i w).ioRead c i = w := by
  simp [State.ioRead, lookupCell_insertCell_self]

/-- A store to one word of `IOBUF` leaves every other word of both channels alone. -/
theorem ioRead_ioWrite_other {c d : Chan} {i j : Nat} (h : d ≠ c ∨ j ≠ i) (w : Word) (s : State) :
    (s.ioWrite c i w).ioRead d j = s.ioRead d j := by
  by_cases hd : d = c
  · subst hd
    have hj : j ≠ i := h.resolve_left (· rfl)
    simp [State.ioRead, lookupCell_insertCell_other hj]
  · simp [State.ioRead, State.ioWrite, setIob_iob_other hd]

end Sys2Proof.Machine
end

