-- ==== Sys2Proof/Laws/Ops.lean ====
section
/-! SUPPORT. For each shared operation one law that says what it can do: what the hosts change while a
command is in flight, what the snapshot leaves, what a command adds around its body. -/

-- Proofs one after another: elaborated at once, they ask for more threads than the check allows.
set_option Elab.async false

namespace Sys2Proof.Machine

/-! ### What the hosts can change -/

/-- What no action of a host touches: everything but `PRM`, `STATUS`, `IOBUF` and the host side of the
ports; and a flag that is set stays set. -/
structure HostFrame (s t : State) : Prop where
  cfg : t.cfg = s.cfg
  tgt : t.tgt = s.tgt
  sm : t.sm = s.sm
  busy : t.busy = s.busy
  sidx : t.sidx = s.sidx
  conf : t.conf = s.conf
  chL : t.chL = s.chL
  chR : t.chR = s.chR
  cmd : t.cmd = s.cmd
  rsp : t.rsp = s.rsp
  por : t.por = s.por
  sticky : s.status &&& t.status = s.status

theorem sticky_or (a f : U32) : a &&& (a ||| f) = a := by
  ext i; simp only [BitVec.getElem_and, BitVec.getElem_or]; cases a[i] <;> simp

theorem sticky_trans {a b c : U32} (h : a &&& b = a) (k : b &&& c = b) : a &&& c = a := by
  rw [← h, BitVec.and_assoc, k]

theorem HostFrame.refl (s : State) : HostFrame s s :=
  ⟨rfl, rfl, rfl, rfl, rfl, rfl, rfl, rfl, rfl, rfl, rfl, BitVec.and_self⟩

theorem HostFrame.trans {s t u : State} (h : HostFrame s t) (k : HostFrame t u) : HostFrame s u :=
  ⟨k.cfg.trans h.cfg, k.tgt.trans h.tgt, k.sm.trans h.sm, k.busy.trans h.busy, k.sidx.trans h.sidx,
    k.conf.trans h.conf, k.chL.trans h.chL, k.chR.trans h.chR, k.cmd.trans h.cmd, k.rsp.trans h.rsp,
    k.por.trans h.por, sticky_trans h.sticky k.sticky⟩

theorem raiseFault_frame (f : U32) (s : State) : HostFrame s (raiseFault f s) :=
  ⟨rfl, rfl, rfl, rfl, rfl, rfl, rfl, rfl, rfl, rfl, rfl, sticky_or _ _⟩

theorem drawn_frame (s : State) : HostFrame s s.drawn :=
  ⟨rfl, rfl, rfl, rfl, rfl, rfl, rfl, rfl, rfl, rfl, rfl, BitVec.and_self⟩

theorem ioWrite_frame (c : Chan) (i : Nat) (w : Word) (s : State) : HostFrame s (s.ioWrite c i w) := by
  cases c <;> exact ⟨rfl, rfl, rfl, rfl, rfl, rfl, rfl, rfl, rfl, rfl, rfl, BitVec.and_self⟩

theorem writeParam_frame (k : Nat) (v : F32) (s : State) : HostFrame s (writeParam k v s) := by
  unfold writeParam
  split
  · exact ⟨rfl, rfl, rfl, rfl, rfl, rfl, rfl, rfl, rfl, rfl, rfl, BitVec.and_self⟩
  · exact raiseFault_frame _ s

theorem memAccess_frame (r : MemReq) (s : State) : HostFrame s (memAccess r s) := by
  cases r with
  | load a =>
    simp only [memAccess]
    split
    · exact ⟨rfl, rfl, rfl, rfl, rfl, rfl, rfl, rfl, rfl, rfl, rfl, BitVec.and_self⟩
    · exact ⟨rfl, rfl, rfl, rfl, rfl, rfl, rfl, rfl, rfl, rfl, rfl, sticky_or _ _⟩
  | store a w =>
    simp only [memAccess]
    split
    · exact ioWrite_frame _ _ _ s
    · exact raiseFault_frame _ s

theorem ctlEffect_frame (d : Decoded) (s : State) : HostFrame s (ctlEffect d s) := by
  cases d with
  | legal i => cases i <;> first | exact writeParam_frame _ _ s | exact HostFrame.refl s
  | illegal w => exact raiseFault_frame _ s

theorem serveMem_frame (s : State) : HostFrame s (serveMem s) := by
  unfold serveMem
  split
  · exact HostFrame.refl s
  · next r rs _ =>
    have h := memAccess_frame r.req { s with mem := rs }
    exact ⟨h.cfg, h.tgt, h.sm, h.busy, h.sidx, h.conf, h.chL, h.chR, h.cmd, h.rsp, h.por, h.sticky⟩

theorem serveCtl_frame (s : State) : HostFrame s (serveCtl s) := by
  unfold serveCtl
  split
  · exact HostFrame.refl s
  · next d rest _ =>
    have h := ctlEffect_frame d { s with ctl := rest }
    exact ⟨h.cfg, h.tgt, h.sm, h.busy, h.sidx, h.conf, h.chL, h.chR, h.cmd, h.rsp, h.por, h.sticky⟩

theorem hostAct_frame (s : State) : HostFrame s (hostAct s) := by
  unfold hostAct
  split
  · split
    · exact (drawn_frame s).trans (serveMem_frame _)
    · exact (drawn_frame s).trans (serveCtl_frame _)
  · split
    · exact serveMem_frame s
    · exact serveCtl_frame s

theorem hostActs_frame (n : Nat) (s : State) : HostFrame s (hostActs n s) := by
  induction n generalizing s with
  | zero => exact HostFrame.refl s
  | succ n ih => exact (hostAct_frame s).trans (ih _)

/-- All an interleaving point can do, in the two forms later proofs need: as a frame, and by field. -/
theorem hostPoint_frame (s : State) : HostFrame s (hostPoint s) := by
  unfold hostPoint
  split
  · exact HostFrame.refl s
  · exact (drawn_frame s).trans (hostActs_frame _ _)

@[simp] theorem hostPoint_cfg (s : State) : (hostPoint s).cfg = s.cfg := (hostPoint_frame s).cfg
@[simp] theorem hostPoint_tgt (s : State) : (hostPoint s).tgt = s.tgt := (hostPoint_frame s).tgt
@[simp] theorem hostPoint_sm (s : State) : (hostPoint s).sm = s.sm := (hostPoint_frame s).sm
@[simp] theorem hostPoint_busy (s : State) : (hostPoint s).busy = s.busy := (hostPoint_frame s).busy
@[simp] theorem hostPoint_sidx (s : State) : (hostPoint s).sidx = s.sidx := (hostPoint_frame s).sidx
@[simp] theorem hostPoint_conf (s : State) : (hostPoint s).conf = s.conf := (hostPoint_frame s).conf
@[simp] theorem hostPoint_chL (s : State) : (hostPoint s).chL = s.chL := (hostPoint_frame s).chL
@[simp] theorem hostPoint_chR (s : State) : (hostPoint s).chR = s.chR := (hostPoint_frame s).chR
@[simp] theorem hostPoint_cmd (s : State) : (hostPoint s).cmd = s.cmd := (hostPoint_frame s).cmd
@[simp] theorem hostPoint_rsp (s : State) : (hostPoint s).rsp = s.rsp := (hostPoint_frame s).rsp
@[simp] theorem hostPoint_por (s : State) : (hostPoint s).por = s.por := (hostPoint_frame s).por

/-! ### No host waits -/

theorem quiet_congr {s t : State} (hm : t.mem = s.mem) (hc : t.ctl = s.ctl) : t.quiet = s.quiet := by
  simp [State.quiet, State.memReady, State.ctlReady, hm, hc]

/-- Where no host waits, an interleaving point does nothing. -/
theorem hostPoint_quiet {s : State} (h : s.quiet = true) : hostPoint s = s := by
  simp [hostPoint, h]

theorem latchOne_quiet (k : ParamIx) (s : State) : (latchOne k s).quiet = s.quiet :=
  quiet_congr rfl rfl

/-- One read of the snapshot where no host waits: the parameters are read in the order of the list. -/
theorem latchFrom_cons_quiet {s : State} (h : s.quiet = true) (n : Nat) (k : ParamIx)
    (ks : List ParamIx) : latchFrom (n + 1) (k :: ks) s = latchFrom n ks (latchOne k s) := by
  simp only [latchFrom, hostPoint_quiet h, latchChoice, latchDrawn, h, if_true,
    List.getElem?_cons_zero, List.eraseIdx_cons_zero]

theorem latchFrom_quiet (ks : List ParamIx) {s : State} (h : s.quiet = true) :
    latchFrom ks.length ks s =
      { s with tgt := ks.foldl (fun t (k : ParamIx) => t.set k (clampP k s.prm[k])) s.tgt } := by
  induction ks generalizing s with
  | nil => rfl
  | cons k ks ih =>
    rw [List.length_cons, latchFrom_cons_quiet h, ih ((latchOne_quiet k s).trans h)]
    rfl

/-- Writing all 18 entries of a file leaves nothing of the old one. -/
theorem foldl_set_allParams (f : ParamIx → F32) (t : Vector F32 18) :
    allParams.foldl (fun t (k : ParamIx) => t.set k (f k)) t = tab18 f := by
  apply Vector.ext
  intro i hi
  simp only [allParams, List.foldl_cons, List.foldl_nil, Vector.getElem_set]
  interval_cases i <;> rfl

/-- The snapshot where no host waits: every `TGT[k]` is the clamped `PRM[k]`, nothing else changes
(R131). -/
theorem latchAll_quiet {s : State} (h : s.quiet = true) :
    latchAll s = { s with tgt := tab18 fun k => clampP k s.prm[k] } :=
  (latchFrom_quiet allParams h).trans (by rw [foldl_set_allParams fun k => clampP k s.prm[k]])

/-! ### The snapshot where hosts wait -/

theorem latchDrawn_frame (s : State) : HostFrame s (latchDrawn s) := by
  unfold latchDrawn; split
  · exact HostFrame.refl s
  · exact drawn_frame s

/-- What the snapshot leaves alone whatever the hosts do: everything but `TGT` and what hosts change. -/
theorem latchFrom_frame (n : Nat) (ks : List ParamIx) (s : State) :
    HostFrame { s with tgt := (latchFrom n ks s).tgt } (latchFrom n ks s) := by
  induction n generalizing ks s with
  | zero => exact HostFrame.refl s
  | succ n ih =>
    simp only [latchFrom]
    split
    · have h := hostPoint_frame s
      exact ⟨h.cfg, rfl, h.sm, h.busy, h.sidx, h.conf, h.chL, h.chR, h.cmd, h.rsp, h.por, h.sticky⟩
    · next k hk =>
      have h := (hostPoint_frame s).trans (latchDrawn_frame (hostPoint s))
      have g := ih (ks.eraseIdx (latchChoice (hostPoint s) ks.length))
        (latchOne k (latchDrawn (hostPoint s)))
      exact ⟨g.cfg.trans h.cfg, rfl, g.sm.trans h.sm, g.busy.trans h.busy, g.sidx.trans h.sidx,
        g.conf.trans h.conf, g.chL.trans h.chL, g.chR.trans h.chR, g.cmd.trans h.cmd,
        g.rsp.trans h.rsp, g.por.trans h.por, sticky_trans h.sticky g.sticky⟩

theorem latchAll_frame (s : State) : HostFrame { s with tgt := (latchAll s).tgt } (latchAll s) :=
  latchFrom_frame 18 allParams s

/-! ### A command around its body -/

/-- A command after whose body no host waits: `BUSY` is clear again and one word is answered. -/
theorem runCommand_quiet {body : State → State} {response : State → Word} {s : State}
    (h : (body (beginCommand s)).quiet = true) :
    runCommand body response s =
      endCommand (response (body (beginCommand s))) (body (beginCommand s)) := by
  simp [runCommand, hostPoint_quiet h]

/-- Whatever the hosts do, a command ends with `BUSY` clear (R110). -/
theorem runCommand_busy (body : State → State) (response : State → Word) (s : State) :
    (runCommand body response s).busy = false := rfl

/-- Where no host waits, a channel's turn reads its word, processes it and writes it back (R216). -/
theorem channelTurn_quiet {s : State} (h : s.quiet = true) (N : NumFns) (c : Chan) (i : Nat) :
    channelTurn N c i s =
      (s.setChan c (uRoute N s.cfg s.conf s.sm c (s.chan c) (s.ioRead c i)).1).ioWrite c i
        (uRoute N s.cfg s.conf s.sm c (s.chan c) (s.ioRead c i)).2 := by
  have hq : ∀ x, (s.setChan c x).quiet = true := fun x =>
    (quiet_congr (by simp) (by simp)).trans h
  simp only [channelTurn, hostPoint_quiet h, hostPoint_quiet (hq _)]

theorem channelTurn_quiet_quiet {s : State} (h : s.quiet = true) (N : NumFns) (c : Chan) (i : Nat) :
    (channelTurn N c i s).quiet = true := by
  rw [channelTurn_quiet h]; exact (quiet_congr (by simp) (by simp)).trans h

theorem sampleStep_quiet_quiet {s : State} (h : s.quiet = true) (N : NumFns) (i : Nat) :
    (sampleStep N i s).quiet = true := by
  have h0 : (uSmooth { s with sidx := i }).quiet = true :=
    (quiet_congr (s := s) rfl rfl).trans h
  unfold sampleStep
  exact channelTurn_quiet_quiet (channelTurn_quiet_quiet h0 N _ _) N _ _

theorem sampleSteps_quiet_quiet {s : State} (h : s.quiet = true) (N : NumFns) (n i : Nat) :
    (sampleSteps N n i s).quiet = true := by
  induction n generalizing i s with
  | zero => exact h
  | succ n ih => exact ih (sampleStep_quiet_quiet h N i) (i + 1)

/-! ### The canonical form of the memories -/

/-- `IOBUF` is in canonical form. -/
def IobWf (s : State) : Prop := ∀ c, Memory.wf (s.iob c) = true

theorem ioWrite_iobWf {s : State} (h : IobWf s) (c : Chan) (i : Nat) (w : Word) :
    IobWf (s.ioWrite c i w) := by
  intro d
  by_cases hd : d = c
  · subst hd; rw [ioWrite_iob_self]; exact insertCell_wf i w (h d)
  · simp only [State.ioWrite, setIob_iob_other hd]; exact h d

theorem memAccess_iobWf {s : State} (h : IobWf s) (r : MemReq) : IobWf (memAccess r s) := by
  cases r with
  | load a => simp only [memAccess]; split <;> intro d <;> cases d <;> first | exact h .left | exact h .right
  | store a w =>
    simp only [memAccess]; split
    · exact ioWrite_iobWf h _ _ w
    · intro d; cases d
      · exact h .left
      · exact h .right

theorem serveMem_iobWf {s : State} (h : IobWf s) : IobWf (serveMem s) := by
  unfold serveMem; split
  · exact h
  · next r rs _ =>
    exact memAccess_iobWf (s := { s with mem := rs }) (fun d => by cases d; exact h .left; exact h .right) r.req

theorem serveCtl_iob (s : State) (c : Chan) : (serveCtl s).iob c = s.iob c := by
  unfold serveCtl; split
  · rfl
  · next d rest _ =>
    cases d with
    | legal i =>
      cases i <;> cases c <;> first | rfl | simp [ctlEffect]
    | illegal w => cases c <;> rfl

theorem hostAct_iobWf {s : State} (h : IobWf s) : IobWf (hostAct s) := by
  have hd : IobWf s.drawn := fun c => by cases c; exact h .left; exact h .right
  unfold hostAct; split
  · split
    · exact serveMem_iobWf hd
    · intro c; rw [serveCtl_iob]; exact hd c
  · split
    · exact serveMem_iobWf h
    · intro c; rw [serveCtl_iob]; exact h c

theorem hostActs_iobWf {s : State} (h : IobWf s) (n : Nat) : IobWf (hostActs n s) := by
  induction n generalizing s with
  | zero => exact h
  | succ n ih => exact ih (hostAct_iobWf h)

theorem hostPoint_iobWf {s : State} (h : IobWf s) : IobWf (hostPoint s) := by
  unfold hostPoint; split
  · exact h
  · exact hostActs_iobWf (s := s.drawn) (fun c => by cases c; exact h .left; exact h .right) _

/-- The delay RAMs of a channel are in canonical form. -/
def RamsWf (c : Channel) : Prop :=
  (∀ i : Fin 8, Memory.ramWf c.lines[i].buf = true) ∧ Memory.ramWf c.vbuf = true

theorem tab8_get {α : Type} (f : Fin 8 → α) (i : Fin 8) : (tab8 f)[i] = f i := by
  fin_cases i <;> rfl

theorem tab3_get {α : Type} (f : Fin 3 → α) (i : Fin 3) : (tab3 f)[i] = f i := by
  fin_cases i <;> rfl

theorem tab18_get {α : Type} (f : ParamIx → α) (k : ParamIx) : (tab18 f)[k] = f k := by
  fin_cases k <;> rfl

theorem cleared_ramsWf {c : Channel} (h : RamsWf c) (k : Conf) (seed : U32) :
    RamsWf (c.cleared k seed) := by
  refine ⟨fun i => ?_, ramClear_ramWf _ h.2⟩
  simp only [Channel.cleared, tab8_get, Line.cleared]
  exact ramClear_ramWf _ (h.1 i)

theorem uFdn_ramsWf {c : Channel} (h : RamsWf c) (N : NumFns) (g : Cfg) (k : Conf)
    (sm : Vector F32 18) (x : F32) : RamsWf (uFdn N g k sm c x).1 := by
  refine ⟨fun i => ?_, h.2⟩
  simp only [uFdn, tab8_get, lineNext]
  exact ramWrite_ramWf _ _ (h.1 i)

theorem uVdly_ramsWf {c : Channel} (h : RamsWf c) (N : NumFns) (g : Cfg) (k : Conf)
    (sm : Vector F32 18) (x dt dr : F32) : RamsWf (uVdly N g k sm c x dt dr).1 :=
  ⟨h.1, ramWrite_ramWf _ _ h.2⟩

theorem uDcb_ramsWf {c : Channel} (h : RamsWf c) (x : F32) : RamsWf (uDcb c x).1 := h

theorem uCond_ramsWf {c : Channel} (h : RamsWf c) (k : Conf) (sm : Vector F32 18) (x : F32) :
    RamsWf (uCond k sm c x).1 := h

theorem uEnv_ramsWf {c : Channel} (h : RamsWf c) (k : Conf) (sm : Vector F32 18) (x : F32) :
    RamsWf (uEnv k sm x c) := h

/-- A channel's turn keeps the canonical form of its delay RAMs. -/
theorem uRoute_ramsWf {c : Channel} (h : RamsWf c) (N : NumFns) (g : Cfg) (k : Conf)
    (sm : Vector F32 18) (ch : Chan) (dry : F32) : RamsWf (uRoute N g k sm ch c dry).1 := by
  simp only [uRoute]
  exact uDcb_ramsWf (uFdn_ramsWf (uVdly_ramsWf (uEnv_ramsWf (uCond_ramsWf h k sm dry) k sm _)
    N g k sm _ _ _) N g k sm _) _

theorem reset_iobWf : IobWf State.reset := fun c => by cases c <;> rfl

theorem reset_ramsWf (c : Chan) : RamsWf (State.reset.chan c) := by
  have h : RamsWf Channel.reset := ⟨by decide, by decide⟩
  cases c <;> exact h

end Sys2Proof.Machine
end

