-- ==== Sys2Proof/Laws/PerInstr.lean ====
section
/-! SUPPORT. Statements made for every constructor of `Instr`, one lemma each. -/

-- Proofs one after another: elaborated at once, they ask for more threads than the check allows.
set_option Elab.async false

namespace Sys2Proof.Laws.Framing

/-- The head word of a well-formed command carries its opcode and alone says how many words its encoding
has (30_encoding.md R91, R94). -/
def Statement (i : Instr) : Prop :=
  i.wellFormed = true →
    (encode i).length = cmdLength ((encode i).headD 0) ∧
      opOf ((encode i).headD 0) = match i with
        | .prepare _ _ => 0x01
        | .reset => 0x02
        | .pblock _ => 0x03
        | .psample => 0x04
        | .rdenv _ => 0x05
        | .wrparam _ _ => 0x10

theorem prepare (fs : F32) (maxblk : U32) : Statement (.prepare fs maxblk) := fun _ =>
  ⟨by show 3 = cmdLength 0x01000000#32; decide, by show opOf 0x01000000#32 = 1; decide⟩

theorem reset : Statement .reset := fun _ => by decide

theorem pblock (n : Nat) : Statement (.pblock n) := by
  intro h
  have h : n < 2 ^ 24 := of_decide_eq_true h
  have ho : opOf (BitVec.ofNat 32 (0x03000000 + n)) = 0x03 := by
    simp only [opOf, BitVec.toNat_ofNat]; omega
  simp only [encode, List.headD_cons, List.length_cons, List.length_nil, cmdLength, ho]
  simp

theorem psample : Statement .psample := fun _ => by decide

theorem rdenv (ch : Chan) : Statement (.rdenv ch) := fun _ => by cases ch <;> decide

theorem wrparam (k : Nat) (value : F32) : Statement (.wrparam k value) := by
  intro h
  have h : k < 2 ^ 5 := of_decide_eq_true h
  have ho : opOf (BitVec.ofNat 32 (0x10000000 + k)) = 0x10 := by
    simp only [opOf, BitVec.toNat_ofNat]; omega
  simp only [encode, List.headD_cons, List.length_cons, List.length_nil, cmdLength, ho]
  simp

end Sys2Proof.Laws.Framing
end

