-- ==== Sys2Proof/Laws/Step.lean ====
section
/-! SUPPORT. What a step does, by the ports that have something: it waits, serves the one, or serves
whichever of several; and the clearing sequence where no host waits. -/

-- Proofs one after another: elaborated at once, they ask for more threads than the check allows.
set_option Elab.async false

namespace Sys2Proof.Machine

theorem sources_eq (s : State) : s.sources =
    (if s.memReady then [Source.mem] else []) ++ (if s.ctlReady then [Source.ctl] else []) ++
      (if s.cmdReady then [Source.cmd] else []) := rfl

/-- With nothing at the ports a step changes nothing. -/
theorem step_of_no_source {s : State} (h : s.sources = []) : step s = .next s := by
  simp only [step, h]

/-- With one port ready a step serves it. -/
theorem step_of_one_source {s : State} {a : Source} (hg : cfgOk s.cfg = true) (h : s.sources = [a]) :
    step s = serve a s := by
  simp only [step, h, hg, if_true, arbitrate]

/-- With several ports ready a step draws a choice and serves the port it names. -/
theorem step_of_more_sources {s : State} {a b : Source} {more : List Source}
    (hg : cfgOk s.cfg = true) (h : s.sources = a :: b :: more) :
    step s = serve ((a :: b :: more).getD (Config.pick s.sched % (more.length + 2)) a) s.drawn := by
  simp only [step, h, hg, if_true, arbitrate]

/-- The clearing sequence where no host waits (R258). -/
theorem clearAll_quiet {s : State} (h : s.quiet = true) :
    clearAll s = { s with
      tgt := tab18 fun k => clampP k s.prm[k]
      sm := tab18 fun k => clampP k s.prm[k]
      chL := s.chL.cleared s.conf s.cfg.seedL
      chR := s.chR.cleared s.conf s.cfg.seedR } := by
  rw [clearAll, latchAll_quiet h]; rfl

/-- A served load answers its word, or some word and `F_BADADDR` (R71, R238). -/
theorem memAccess_load (a : Word) (s : State) :
    (∃ c i, memTarget s.cfg a = some (c, i) ∧
      memAccess (.load a) s = { s with memOut := s.memOut ++ [s.ioRead c i] }) ∨
    (memTarget s.cfg a = none ∧ memAccess (.load a) s =
      { s with
        memOut := s.memOut ++ [Config.freeWord s.sched]
        sched := s.sched + 1
        status := s.status ||| maskBadAddr }) := by
  simp only [memAccess]
  split
  · next c i h => exact .inl ⟨c, i, h, rfl⟩
  · next h => exact .inr ⟨h, rfl⟩

/-- A served store replaces its word, or is dropped with `F_BADADDR` (R71, R238). -/
theorem memAccess_store (a w : Word) (s : State) :
    (∃ c i, memTarget s.cfg a = some (c, i) ∧ memAccess (.store a w) s = s.ioWrite c i w) ∨
    (memTarget s.cfg a = none ∧
      memAccess (.store a w) s = { s with status := s.status ||| maskBadAddr }) := by
  simp only [memAccess]
  split
  · next c i h => exact .inl ⟨c, i, h, rfl⟩
  · next h => exact .inr ⟨h, rfl⟩

/-- With no transaction waiting, taking a command's words changes nothing else. -/
theorem tookCmd_of_no_mem {s : State} (h : s.mem = []) (rest : List Word) :
    s.tookCmd rest = { s with cmd := rest } := by
  simp only [State.tookCmd, h, List.map_nil]

/-- When a command may be taken (R91, R110; R80, item 2). -/
theorem cmdReady_iff {s : State} : s.cmdReady = true ↔
    (takeCommand .cmd s.cmd).isSome = true ∧ s.busy = false ∧
      ∀ t ∈ s.mem, cmdLength (s.cmd.headD 0) ≤ t.after := by
  simp [State.cmdReady, State.memBefore, List.all_eq_true, and_assoc]

end Sys2Proof.Machine
end

