-- ==== Sys2Proof/Tests/Slice0.lean ====
section
/-! SUPPORT. Tests against the vectors of spec/95_test_vectors.md and the words of spec/30_encoding.md,
and for every obligation with hypotheses a witness that meets them together. -/

-- Proofs one after another: elaborated at once, they ask for more threads than the check allows.
set_option Elab.async false

open Sys2Proof Sys2Proof.Machine

namespace Sys2Proof.Tests

/-! ### WellFormed, decoding (30_encoding.md R94 to R97; 95_test_vectors.md section 2.2) -/

theorem test_wellFormed_refuses_long_block : (Instr.pblock (2 ^ 24)).wellFormed = false := by decide

theorem test_wellFormed_refuses_wide_index :
    (Instr.wrparam 32 0x00000000#32).wellFormed = false := by decide

theorem test_decode_prepare : decode .cmd 0x01000000#32 [0x45FA0000#32, 0x00002000#32] =
    .legal (.prepare 0x45FA0000#32 8192#32) := by decide

theorem test_decode_reset : decode .cmd 0x02000000#32 [] = .legal .reset := by decide

theorem test_decode_pblock : decode .cmd 0x03FFFFFF#32 [] = .legal (.pblock 16777215) := by decide

theorem test_decode_psample : decode .cmd 0x04000000#32 [] = .legal .psample := by decide

theorem test_decode_rdenv : decode .cmd 0x05000000#32 [] = .legal (.rdenv .left) ∧
    decode .cmd 0x05000001#32 [] = .legal (.rdenv .right) := by decide

theorem test_decode_wrparam : decode .ctl 0x1000001F#32 [0x3F800000#32] =
    .legal (.wrparam 31 0x3F800000#32) := by decide

theorem test_decode_undefined_opcodes :
    decode .cmd 0x00000000#32 [] = .illegal .undefinedOp ∧
    decode .cmd 0x06000000#32 [] = .illegal .undefinedOp ∧
    decode .ctl 0xFF000000#32 [] = .illegal .undefinedOp := by decide

theorem test_decode_reserved_bits :
    decode .cmd 0x01000001#32 [0#32, 0#32] = .illegal .reservedBits ∧
    decode .cmd 0x02000001#32 [] = .illegal .reservedBits ∧
    decode .cmd 0x04800000#32 [] = .illegal .reservedBits ∧
    decode .cmd 0x05000002#32 [] = .illegal .reservedBits ∧
    decode .ctl 0x10000020#32 [0#32] = .illegal .reservedBits := by decide

theorem test_decode_wrong_port :
    decode .cmd 0x10000011#32 [0#32] = .illegal .wrongPort ∧
    decode .ctl 0x03000004#32 [] = .illegal .wrongPort := by decide

/-- Bits from 32 up are the extension words; `WRPARAM`'s port is found without being told. -/
theorem test_decodeTableWord :
    decodeTableWord 96 (0x01000000 + 2 ^ 32 * 0x45FA0000 + 2 ^ 64 * 4) =
      some (.prepare 0x45FA0000#32 4#32) ∧
    decodeTableWord 64 (0x10000011 + 2 ^ 32 * 0x3F800000) = some (.wrparam 17 0x3F800000#32) ∧
    decodeTableWord 32 0x06000000 = none := by decide

/-! ### Binary32 (00_scope.md; 95_test_vectors.md sections 2.1 and 2.3) -/

/-- Section 2.1: each decimal literal, as a fraction, rounds to its pattern. -/
theorem test_literals :
    ([(1, 1000, Lit.d0_001), (1, 100, Lit.d0_01), (5, 100, Lit.d0_05), (1, 10, Lit.d0_1),
      (3, 10, Lit.d0_3), (35, 100, Lit.d0_35), (382, 1000, Lit.d0_382), (4, 10, Lit.d0_4),
      (618, 1000, Lit.d0_618), (7, 10, Lit.d0_7), (8, 10, Lit.d0_8), (95, 100, Lit.d0_95),
      (995, 1000, Lit.d0_995), (107, 100, Lit.d1_07), (115, 100, Lit.d1_15), (6, 1, Lit.d6),
      (40, 1, Lit.d40), (80, 1, Lit.d80), (300, 1, Lit.d300), (600, 1, Lit.d600),
      (1000, 1, Lit.d1000), (1500, 1, Lit.d1500), (44100, 1, Lit.d44100), (32768, 1, Lit.d32768),
      (2 ^ 23, 1, Lit.twoPow23), (9, 10, Cfg.default.degK), (8000, 1, Cfg.default.fsMin),
      (192000, 1, Cfg.default.fsMax)] : List (Nat × Nat × F32)).all
      (fun l => pack false (magRound (l.1 * 2 ^ 149) l.2.1) == l.2.2) = true := by decide +kernel

/-- Section 2.3. -/
theorem test_clampP : clampP 10 0x44FA0000#32 = 0x44BB8000#32 ∧ clampP 4 0x00000000#32 = 0x3F000000#32 ∧
    clampP 9 0x80000000#32 = 0x80000000#32 ∧ clampP 0 0x00000001#32 = 0x00000001#32 ∧
    clampP 17 0x7FC00000#32 = 0x3F000000#32 ∧ clampP 12 0x7F800000#32 = 0x3F4CCCCD#32 ∧
    clampP 8 0xFF800000#32 = 0x3D4CCCCD#32 := by decide +kernel

/-- Section 2.3. -/
theorem test_clamps : clamp 0x41480000#32 Lit.n10 Lit.d10 = 0x41200000#32 ∧
    clamp 0x80000000#32 Lit.n1 Lit.d1 = 0x80000000#32 ∧
    clamp 0x7FC00000#32 Lit.n1 Lit.d1 = 0x7FC00000#32 ∧
    clampIdx 0x7FC00000#32 Lit.d1 0x42C80000#32 = Lit.d1 ∧
    clampIdx 0x42C90000#32 Lit.d1 0x42C80000#32 = 0x42C80000#32 := by decide +kernel

/-- Section 2.3: halves away from zero. -/
theorem test_fround : fround 0x40200000#32 = 0x40400000#32 ∧ fround 0xC0200000#32 = 0xC0400000#32 ∧
    fround 0x401FFE5D#32 = 0x40000000#32 := by decide +kernel

/-! ### The micro-operations (95_test_vectors.md sections 2.4, 2.6, 2.9, 2.10, 2.11) -/

/-- Section 2.4, the geometry at 48000, which does not depend on `NUM`. -/
theorem test_geometry : lineLength 1103 0x473B8000#32 = 1201 ∧ lineLength 2269 0x473B8000#32 = 2470 ∧
    guardLength 0x473B8000#32 = 146 ∧ delayLength 0x473B8000#32 = 96000 ∧
    driftAmplitude Cfg.default 0x473B8000#32 = 0x42400000#32 := by decide +kernel

/-- Section 2.6, the first update at 44100, its `CSM` given. -/
theorem test_onepole : onepole 0x3F000000#32 0x3F800000#32 0x3F7F6B90#32 = 0x3F004A38#32 ∧
    onepole 0x43C80000#32 0x44BB8000#32 0x3F7F6B90#32 = 0x43C93EE9#32 := by decide +kernel

/-- Section 2.9: `N = 8`, `buf[a] = a`. -/
theorem test_interp :
    let buf : Cells := [(1, toF32 1), (2, toF32 2), (3, toF32 3), (4, toF32 4), (5, toF32 5),
      (6, toF32 6), (7, toF32 7)]
    interp buf 3 8 0x3FC00000#32 = 0x3FC00000#32 ∧ interp buf 3 8 0x40100000#32 = 0x3F400000#32 ∧
    interp buf 0 8 0x3F800000#32 = 0x40E00000#32 ∧ interp buf 5 8 0x40D80000#32 = 0x40C80000#32 := by
  decide +kernel

/-- Section 2.10: `r` = 1 to 8. -/
theorem test_matrix :
    let r : Vector F32 8 := #v[toF32 1, toF32 2, toF32 3, toF32 4, toF32 5, toF32 6, toF32 7, toF32 8]
    feedback r 0 = 0x414BA591#32 ∧ feedback r 1 = 0xBFB504F3#32 ∧ feedback r 2 = 0xC03504F3#32 ∧
    feedback r 3 = 0x00000000#32 ∧ feedback r 4 = 0xC0B504F3#32 := by decide +kernel

/-- Section 2.11. -/
theorem test_rand : rngNext 1#32 = 0x3C88596C#32 ∧ uniform 0x3C88596C#32 = 0x3E722164#32 ∧
    rngNext 0xFFFFFFFF#32 = 0x3C558D52#32 ∧ uniform 0xB4733AC5#32 = 0x3F34733A#32 := by
  decide +kernel

/-- Section 2.11: target and countdown. -/
theorem test_reroll : returnTarget 0x3F000000#32 = 0x3F266666#32 ∧
    returnTarget 0x3F7FFFFF#32 = 0x3F7FFFFF#32 ∧ countdown Lit.d44100 0x3F000000#32 = 9922#32 ∧
    countdown 0x45FA0000#32 0x3F7FFFFF#32 = 3199#32 := by decide +kernel

/-- Functions that meet R17 where the tests below look at them. -/
def tNum : NumFns := ⟨fun _ => Lit.d0_5, fun _ => Lit.zero, fun _ => Lit.zero, fun _ => Lit.d0_5,
  fun x => powerOfTwo (toNat (ffloor x))⟩

/-- Section 2.11, the quantiser at the full degrade amount: a half goes away from zero. -/
theorem test_quantiser : quantised tNum Cfg.default 0x3F800000#32 0x3D800000#32 = 0x3E000000#32 ∧
    quantised tNum Cfg.default 0x3F800000#32 0x3E99999A#32 = 0x3E800000#32 ∧
    quantised tNum Cfg.default 0x3C23D70A#32 0x3E99999A#32 = 0x3E99999A#32 := by decide +kernel

/-- Section 2.12, a unit impulse. -/
theorem test_dcBlocker :
    (uDcb Channel.reset 0x3F800000#32).2 = 0x3F800000#32 ∧
    (uDcb (uDcb Channel.reset 0x3F800000#32).1 0x00000000#32).2 = 0xBBA3D700#32 := by decide +kernel

/-- Section 2.13. -/
theorem test_rightFactors : chanDelayTime pdef .right = 0x43D60001#32 ∧
    chanDrift pdef .right = 0x40133333#32 := by decide +kernel

/-- Section 3, program P6, the first left sample; 42_input_conditioner.md R146 gives the conditioned
sample that stands in the delay. -/
theorem test_firstSample :
    (uRoute tNum Cfg.default (Conf.computed tNum Cfg.default Lit.d44100 8#32) pdef .left Channel.reset
      0x3E800000#32).2 = 0x3E000000#32 := by decide +kernel

/-! ### One step (95_test_vectors.md section 2.5) -/

/-- The state a step answers, or the state itself where it answers none. -/
def tNext (s : State) : State :=
  match step s with
  | .next t => t
  | _ => s

/-- A prepared state of a run at 44100 with blocks of at most 4, two samples at hand in each channel. -/
def tPrepared : State := { State.reset with
  status := 0x00000001#32
  conf := Conf.computed Config.num Cfg.default 0x472C4400#32 4#32
  tgt := pdef
  sm := pdef
  iobL := [(0, 0x3E800000#32), (1, 0xBF400000#32)]
  iobR := [(0, 0xBF000000#32), (1, 0x3DCCCCCD#32)] }

theorem test_prepare_illegal : (tNext (State.reset.withFetchWord 96 0x01000000)).rsp = [0x00000C00#32] := by
  decide +kernel

theorem test_prepare_legal :
    (tNext (State.reset.withFetchWord 96 (0x01000000 + 2 ^ 32 * 0x45FA0000 + 2 ^ 64 * 0x2000))).rsp
      = [0x00000001#32] := by decide +kernel

theorem test_reset_unprepared :
    (tNext (State.reset.withFetchWord 32 0x02000000)).rsp = [0x00000200#32] := by decide +kernel

theorem test_pblock_unprepared :
    (tNext (State.reset.withFetchWord 32 0x03000004)).status = 0x00000200#32 := by decide +kernel

theorem test_pblock_too_long :
    (tNext (tPrepared.withFetchWord 32 0x03000005)).rsp = [0x00001001#32] := by decide +kernel

theorem test_psample_unprepared :
    (tNext (State.reset.withFetchWord 32 0x04000000)).rsp = [0x00000200#32] := by decide +kernel

theorem test_psample_advances : (tNext (tPrepared.withFetchWord 32 0x04000000)).chR.wv = 1 ∧
    (tNext (tPrepared.withFetchWord 32 0x04000000)).rsp = [0x00000001#32] := by decide +kernel

theorem test_rdenv_right :
    (tNext ({ State.reset with
      chR := { Channel.reset with envOut := 0x3C1E128E#32 } }.withFetchWord 32 0x05000001)).rsp
      = [0x3C1E128E#32] := by decide +kernel

theorem test_wrparam_stores :
    (tNext (State.reset.withFetchWord 64 (0x10000011 + 2 ^ 32 * 0x7FC00000))).prm[17]
      = 0x7FC00000#32 := by decide +kernel

theorem test_wrparam_bad_index : (tNext (State.reset.withFetchWord 64 0x1000001F)).status = 0x00002000#32 ∧
    (tNext (State.reset.withFetchWord 64 0x1000001F)).rsp = [] := by decide +kernel

theorem test_load_unmapped :
    (tNext { State.reset with mem := [⟨.load 0x00004000#32, 0⟩] }).status = 0x00004000#32 := by
  decide +kernel

/-! ### Witnesses: for every obligation with hypotheses, values that meet them together -/

/-- A state with words or transactions at its ports. -/
def tPorts (s : State) (cmd ctl : List Word) (mem : List MemTurn) : State :=
  { s with cmd := cmd, ctl := ctl, mem := mem }

theorem tPrepared_inv : tPrepared.Inv where
  cfg := by decide +kernel
  idle := rfl
  reserved := by decide
  iob := fun c => by cases c <;> decide
  iobBound := fun c => by cases c <;> decide
  rams := fun c => by
    cases c <;> exact ⟨by decide, by decide⟩
  conf := fun _ => rfl
  legal := fun _ => by decide +kernel
  cursors := fun _ c => by
    cases c <;> exact ⟨by decide +kernel, by decide +kernel⟩
  tgt := fun _ => by decide +kernel

theorem witness_DecodeInvertsEncode : (Instr.pblock 16777215).wellFormed = true ∧
    (Instr.wrparam 31 0x7FC00000#32).wellFormed = true := by decide

theorem witness_LegalWordsAreEncodings :
    takeCommand .ctl [0x1000001F#32, 0x7FC00000#32, 0x06000000#32] =
      some (.legal (.wrparam 31 0x7FC00000#32), [0x06000000#32]) := by decide

theorem witness_OpcodeAloneFramesCommands :
    1 + [0x45FA0000#32].length < cmdLength 0x01000001#32 ∧
    cmdLength 0x01000001#32 ≤ 1 + [0x45FA0000#32, 0x00000004#32].length := by decide

theorem witness_StepRunsDecodedCommand :
    cfgOk State.reset.cfg = true ∧
    (tPorts State.reset [0x05000001#32, 0x02000000#32] [] []).sources = [.cmd] ∧
    takeCommand .cmd [0x05000001#32, 0x02000000#32] = some (.legal (.rdenv .right), [0x02000000#32]) ∧
    (tPorts State.reset [] [0x10000011#32, 0x3F800000#32] []).sources = [.ctl] ∧
    takeCommand .ctl [0x10000011#32, 0x3F800000#32] =
      some (.legal (.wrparam 17 0x3F800000#32), []) := by decide +kernel

/-- The third clause and the fourth with others waiting: a transaction sent between two one-word commands,
and one sent after both, count one word less once the first is taken (log 27). -/
theorem witness_StepRunsDecodedCommand_waiting :
    let s := tPorts State.reset [0x05000001#32, 0x02000000#32] [0x10000011#32, 0x3F800000#32]
      [⟨.load 0x00004000#32, 1⟩, ⟨.load 0x00004001#32, 2⟩]
    s.sources = [.mem, .ctl, .cmd] ∧
    takeCommand .cmd s.cmd = some (.legal (.rdenv .right), [0x02000000#32]) ∧
    (s.mem.map fun t => { t with after := t.after - (s.cmd.length - 1) }) =
      [⟨.load 0x00004000#32, 0⟩, ⟨.load 0x00004001#32, 1⟩] ∧
    takeCommand .ctl s.ctl = some (.legal (.wrparam 17 0x3F800000#32), []) := by decide +kernel

theorem witness_StepServesAReadyPortOrWaits :
    cfgOk State.reset.cfg = true ∧
    (tPorts State.reset [0x02000000#32] [0x03000004#32] [⟨.load 0x00004000#32, 1⟩]).sources
      = [.mem, .ctl, .cmd] ∧
    (tPorts State.reset [] [] [⟨.load 0x00000000#32, 0⟩]).sources = [.mem] ∧
    (⟨.load 0x00004000#32, 2⟩ : MemTurn).after < cmdLength ([0x01000000#32].headD 0) ∧
    takeCommand .cmd [0x01000000#32, 0x45FA0000#32] = none ∧
    State.reset.mem = [] ∧ State.reset.cmd = [] ∧ State.reset.ctl = [] := by decide +kernel

/-- 20_memory.md R80, item 2: the command waits for the store the host made before it, and not for the
access it made after it. -/
theorem test_issue_orders_stores :
    (((State.reset.host (.access (.store 0#32 1#32))).host (.sendCmd [0x05000000#32]))).sources
      = [.mem] ∧
    (((State.reset.host (.sendCmd [0x05000000#32])).host (.access (.load 0#32)))).sources
      = [.mem, .cmd] := by decide

theorem witness_IllegalEncodingSetsBadOp :
    cfgOk State.reset.cfg = true ∧
    (tPorts State.reset [0x10000011#32, 0x3F800000#32] [] []).sources = [.cmd] ∧
    takeCommand .cmd [0x10000011#32, 0x3F800000#32] = some (.illegal .wrongPort, []) ∧
    (tPorts State.reset [] [0x10000020#32, 0x00000000#32] []).sources = [.ctl] ∧
    takeCommand .ctl [0x10000020#32, 0x00000000#32] = some (.illegal .reservedBits, []) := by
  decide +kernel

theorem tPorts_inv {s : State} (h : s.Inv) (cmd ctl : List Word) (mem : List MemTurn) :
    (tPorts s cmd ctl mem).Inv where
  cfg := h.cfg
  idle := h.idle
  reserved := h.reserved
  iob := fun c => by cases c; exact h.iob .left; exact h.iob .right
  iobBound := fun c => by cases c; exact h.iobBound .left; exact h.iobBound .right
  rams := fun c => by cases c; exact h.rams .left; exact h.rams .right
  conf := h.conf
  legal := h.legal
  cursors := fun p c => by cases c; exact h.cursors p .left; exact h.cursors p .right
  tgt := h.tgt

theorem witness_StepKeepsInvariant :
    (tPorts tPrepared [0x04000000#32] [] []).Inv ∧
    step (tPorts tPrepared [0x04000000#32] [] []) =
      .next (tNext (tPorts tPrepared [0x04000000#32] [] [])) :=
  ⟨tPorts_inv tPrepared_inv _ _ _, rfl⟩

theorem witness_NoStepStops : (tPorts tPrepared [0x04000000#32] [] []).Inv :=
  tPorts_inv tPrepared_inv _ _ _

theorem witness_FlagsAreSticky :
    step (tPorts { State.reset with status := 0x00001001#32 } [0x06000000#32] [] []) =
      .next (tNext (tPorts { State.reset with status := 0x00001001#32 } [0x06000000#32] [] [])) := rfl

/-- The range's two ends, for both operands. -/
theorem witness_LegalPrepareCompletes : State.reset.quiet = true ∧
    fge 0x45FA0000#32 State.reset.cfg.fsMin = true ∧ fle 0x45FA0000#32 State.reset.cfg.fsMax = true ∧
    1 ≤ (8192#32).toNat ∧ (8192#32).toNat ≤ State.reset.cfg.iobufCap ∧
    fge 0x483B8000#32 State.reset.cfg.fsMin = true ∧ fle 0x483B8000#32 State.reset.cfg.fsMax = true ∧
    1 ≤ (1#32).toNat ∧ (1#32).toNat ≤ State.reset.cfg.iobufCap := by decide +kernel

theorem witness_IllegalPrepareOnlyFlags : State.reset.quiet = true ∧
    ¬ (fge 0x45F9FFFF#32 State.reset.cfg.fsMin = true ∧ fle 0x45F9FFFF#32 State.reset.cfg.fsMax = true ∧
      1 ≤ (0#32).toNat ∧ (0#32).toNat ≤ State.reset.cfg.iobufCap) ∧
    ¬ (fge 0x45FA0000#32 State.reset.cfg.fsMin = true ∧ fle 0x45FA0000#32 State.reset.cfg.fsMax = true ∧
      1 ≤ (8193#32).toNat ∧ (8193#32).toNat ≤ State.reset.cfg.iobufCap) := by decide +kernel

/-- For `PrepareCoefficients` and `PrepareGeometry`. -/
theorem witness_PrepareCoefficients :
    prepareFlags State.reset.cfg 0x45FA0000#32 8192#32 = 0#32 ∧
    prepareFlags State.reset.cfg 0x483B8000#32 1#32 = 0#32 := by decide +kernel

theorem witness_ResetCompletes : State.reset.quiet = true ∧ State.reset.prepared = false ∧
    tPrepared.quiet = true ∧ tPrepared.prepared = true := by decide

theorem witness_ClearingZeroesChannel : 1237 < tPrepared.conf.nbuf[(0 : Fin 8)] ∧
    ¬ 1238 < tPrepared.conf.nbuf[(0 : Fin 8)] ∧ 88199 < tPrepared.conf.nv := by decide +kernel

theorem witness_PblockFaults : State.reset.quiet = true ∧ State.reset.prepared = false ∧
    tPrepared.quiet = true ∧ tPrepared.prepared = true ∧ tPrepared.conf.maxblk.toNat < 5 := by decide

/-- For `LegalPblockCompletes` and `PblockFrame`: the longest block and the empty one. -/
theorem witness_LegalPblockCompletes : tPrepared.quiet = true ∧ tPrepared.prepared = true ∧
    4 ≤ tPrepared.conf.maxblk.toNat ∧ 0 ≤ tPrepared.conf.maxblk.toNat := by decide

theorem witness_SampleStepRunsBothChannels : tPrepared.quiet = true := by decide

theorem witness_PsampleIsPblockOne :
    tPrepared.Inv ∧ tPrepared.quiet = true ∧ tPrepared.prepared = true :=
  ⟨tPrepared_inv, by decide, by decide⟩

theorem witness_RdenvAnswersEnvelope : State.reset.quiet = true := by decide

theorem witness_WrparamStoresOrFaults : 17 < 18 ∧ 18 ≤ 18 := by decide

/-- The ends of the two windows, and the first address beyond. -/
theorem witness_MemLoadReadsIobuf : cfgOk State.reset.cfg = true ∧
    (tPorts State.reset [] [] [⟨.load 0x00001FFF#32, 0⟩]).sources = [.mem] ∧
    (0x00001FFF#32).toNat < State.reset.cfg.iobufCap ∧
    State.reset.cfg.iobufCap ≤ (0x00002000#32).toNat ∧
    (0x00003FFF#32).toNat < 2 * State.reset.cfg.iobufCap ∧
    2 * State.reset.cfg.iobufCap ≤ (0x00004000#32).toNat := by decide +kernel

theorem witness_MemStoreWritesOneWord : cfgOk State.reset.cfg = true ∧
    (tPorts State.reset [] [] [⟨.store 0x00002000#32 0x3F800000#32, 0⟩]).sources = [.mem] ∧
    memTarget State.reset.cfg 0x00001FFF#32 = some (.left, 8191) ∧
    memTarget State.reset.cfg 0x00002000#32 = some (.right, 0) ∧
    memTarget State.reset.cfg 0x00003FFF#32 = some (.right, 8191) ∧
    2 * State.reset.cfg.iobufCap ≤ (0x00004000#32).toNat := by decide +kernel

theorem witness_StoreThenLoadReturnsWord : cfgOk State.reset.cfg = true ∧
    (tPorts State.reset [] [] [⟨.store 0x00003FFF#32 0x3F800000#32, 0⟩, ⟨.load 0x00003FFF#32, 0⟩]).mem =
      [⟨.store 0x00003FFF#32 0x3F800000#32, 0⟩, ⟨.load 0x00003FFF#32, 0⟩] ∧
    (tPorts State.reset [] [] [⟨.store 0x00003FFF#32 0x3F800000#32, 0⟩, ⟨.load 0x00003FFF#32, 0⟩]).ctl
      = [] ∧
    (tPorts State.reset [] [] [⟨.store 0x00003FFF#32 0x3F800000#32, 0⟩, ⟨.load 0x00003FFF#32, 0⟩]).cmd
      = [] ∧
    (0x00003FFF#32).toNat < 2 * State.reset.cfg.iobufCap ∧
    (tPorts State.reset [0x03000001#32] [] [⟨.store 0x00003FFF#32 0x3F800000#32, 0⟩]).mem =
      [⟨.store 0x00003FFF#32 0x3F800000#32, 0⟩] ∧
    0 < cmdLength ([0x03000001#32].headD 0) := by decide +kernel

theorem witness_OneResponsePerCommand : (Instr.psample).port = .cmd ∧
    (Instr.wrparam 18 0x00000000#32).port = .ctl ∧ (∀ ch, Instr.psample ≠ .rdenv ch) :=
  ⟨rfl, rfl, fun ch => by cases ch <;> decide⟩

theorem witness_OnlyLegalPrepareConfigures : ∀ fs maxblk,
    Instr.prepare 0x45F9FFFF#32 4#32 = .prepare fs maxblk →
    prepareFlags State.reset.cfg fs maxblk ≠ 0#32 := by
  intro fs maxblk h
  injection h with h1 h2
  subst h1; subst h2
  decide +kernel

theorem witness_OnlyWrparamWritesPrm :
    (Instr.pblock 4).port = .cmd ∧ (tPorts tPrepared [] [0x10000011#32] []).ctlReady = false := by decide

theorem witness_ParamClampTotal : isNan 0x7FC00000#32 = true ∧ flt 0x3EFFFFFF#32 plo[4] = true ∧
    fgt 0x41F00001#32 phi[4] = true ∧ within plo[4] phi[4] 0x3F000000#32 = true ∧
    within plo[4] phi[4] 0x41F00000#32 = true := by decide +kernel

theorem witness_IndexClampInRange : fle Lit.d1 0x42C80000#32 = true ∧
    isFinite Lit.d1 = true ∧ isFinite 0x42C80000#32 = true ∧ isNan 0xFFC00000#32 = true ∧
    flt 0x3F7FFFFF#32 Lit.d1 = true ∧ fgt 0x42C80001#32 0x42C80000#32 = true ∧
    within Lit.d1 0x42C80000#32 0x42C80000#32 = true := by decide +kernel

theorem witness_NumProperties : flt 0x80000001#32 Lit.zero = true ∧ fge Lit.n100 Lit.n100 = true ∧
    flt Lit.n100 Lit.zero = true ∧ isFinite 0x7F7FFFFF#32 = true ∧ fle 0x80000000#32 Lit.zero = true ∧
    fle Lit.n30 Lit.n30 = true ∧ fle Lit.n30 Lit.negTwoPowNeg20 = true ∧
    fle Lit.d3 Lit.d15 = true := by decide +kernel

theorem witness_PhaseStaysInUnit : fle Lit.zero 0x3F7FFFFF#32 = true ∧ flt 0x3F7FFFFF#32 Lit.d1 = true ∧
    fle Lit.zero 0x80000000#32 = true ∧ flt 0x80000000#32 Lit.d1 = true := by decide +kernel

theorem witness_InterpBlendsTwoWords : 3 ≤ 3 ∧ 3 < 2 ^ 24 ∧ within Lit.d1 (toF32 (3 - 1)) Lit.d1 = true ∧
    within Lit.d1 (toF32 (3 - 1)) Lit.d2 = true ∧ 0 < 1 ∧
    ∀ a < 1, ramRead [(0, 0x3F800000#32)] a = ramRead [(0, 0x3F800000#32), (1, 0x40000000#32)] a := by
  decide +kernel

theorem witness_SmootherRestsAtTarget : isFinite 0x00000000#32 = true ∧
    feq 0x00000000#32 0x80000000#32 = true ∧ isFinite (fsub Lit.d1 0x3F7F6B90#32) = true ∧
    0x00000000#32 ≠ 0x80000000#32 := by decide +kernel

theorem witness_EnvelopeNonNegative :
    isFinite 0xFF7FFFFF#32 = true ∧ isFinite 0x7F7FFFFF#32 = true ∧ fle Lit.zero 0x7F7FFFFF#32 = true ∧
    strictlyBetween Lit.zero Lit.d1 ({ Conf.reset with catt := 0x3F7FFFFF#32 } : Conf).catt = true ∧
    strictlyBetween Lit.zero Lit.d1 ({ Conf.reset with crel := 0x00000001#32 } : Conf).crel = true := by
  decide +kernel

/-- For `ReverbUpdatesLines` and `DelayServesTapsAndWrites`. -/
theorem witness_CanonicalRam : Memory.wf [(0, 0x3F800000#32), (5, 0xBF800000#32)] = true ∧
    ∀ i : Fin 8, Memory.wf Channel.reset.lines[i].buf = true := by decide

theorem witness_SilentReverbStaysSilent :
    let k := Conf.computed tNum Cfg.default 0x472C4400#32 4#32
    (∀ i : Fin 8, 3 ≤ k.nbuf[i] ∧ k.nbuf[i] < 2 ^ 24) ∧
    (∀ i : Fin 8, Memory.wf Channel.reset.lines[i].buf = true ∧
      Channel.reset.lines[i].d1 = 0x00000000#32 ∧ Channel.reset.lines[i].d2 = 0x00000000#32 ∧
      ∀ a < k.nbuf[i], ramRead Channel.reset.lines[i].buf a = 0x00000000#32) ∧
    (∀ i : Fin 8, isFinite (decayGain tNum k pdef k.len[i]) = true) ∧
    isFinite (fmul pdef[reverbDampHigh] Cfg.default.kHigh) = true ∧
    isFinite (fmul pdef[reverbDampLow] Cfg.default.kLow) = true := by
  refine ⟨by decide +kernel, fun i => ?_, by decide +kernel, by decide +kernel, by decide +kernel⟩
  fin_cases i <;> exact ⟨rfl, rfl, rfl, fun _ _ => rfl⟩

/-- The generator state 1 draws 0.236 next: it vanishes at a rate of 0.3 and returns at 0. -/
theorem witness_TapRerollsAtZero : Tap.reset.timer = 0#32 ∧
    flt (uniform (rngNext 1#32)) Lit.d0_3 = true ∧ flt (uniform (rngNext 1#32)) Lit.zero = false ∧
    ({ Tap.reset with timer := 1#32 } : Tap).timer ≠ 0#32 := by decide +kernel

theorem witness_DcBlockerFirstSample : Channel.reset.dx1 = 0x00000000#32 ∧
    Channel.reset.dy1 = 0x00000000#32 ∧ isNan 0x80000000#32 = false := by decide

theorem witness_MasterMixZeroIsDry :
    (tab18 fun _ => (0x00000000#32 : F32))[masterMix] = 0x00000000#32 ∧ isFinite 0xFF7FFFFF#32 = true ∧
    isNan 0xFF800000#32 = false ∧ isZero 0xFF800000#32 = false ∧ isZero 0x80000000#32 = true := by
  decide +kernel

theorem witness_StereoChannelsIndependent : tPrepared.quiet = true := by decide

/-- Two channels that differ in everything that is audio. -/
theorem witness_AudioNeverReachesControl : tPrepared.quiet = true ∧
    SameControl tPrepared.chL { Channel.reset with
      hp := 0x7F800000#32, x1 := 0x7FC00000#32, env := 0x3F800000#32, vbuf := [(3, 0x3F800000#32)],
      dx1 := 0x40000000#32 } :=
  ⟨by decide, ⟨fun _ => rfl, fun _ => rfl, rfl, rfl, fun _ => rfl, fun _ => rfl, fun _ => rfl,
    fun _ => rfl⟩⟩

/-- After power-on two states that differ in what the spec leaves unspecified. -/
theorem witness_UnspecifiedNeverRead :
    State.reset.Inv ∧
    ({ State.reset with chL := { Channel.reset with rng := 7#32, wv := 9 } } : State).Inv ∧
    SameToRules State.reset { State.reset with chL := { Channel.reset with rng := 7#32, wv := 9 } } := by
  have np : State.reset.prepared = true → False := by decide
  have hr : ∀ c : Channel, RamsCanonical Channel.reset → c.lines = Channel.reset.lines →
      c.vbuf = Channel.reset.vbuf → RamsCanonical c := fun c h hl hv =>
    ⟨fun i => by rw [hl]; exact h.line i, by rw [hv]; exact h.delay⟩
  have h0 : RamsCanonical Channel.reset := ⟨by decide, by decide⟩
  exact ⟨⟨by decide +kernel, rfl, by decide, fun c => by cases c <;> decide,
      fun c => by cases c <;> decide, fun c => by cases c <;> exact h0,
      fun h => (np h).elim, fun h => (np h).elim, fun h => (np h).elim, fun h => (np h).elim⟩,
    ⟨by decide +kernel, rfl, by decide, fun c => by cases c <;> decide,
      fun c => by cases c <;> decide, fun c => by cases c; exact hr _ h0 rfl rfl; exact h0,
      fun h => (np h).elim, fun h => (np h).elim, fun h => (np h).elim, fun h => (np h).elim⟩,
    ⟨⟨rfl, rfl, rfl, rfl, rfl, rfl, rfl, rfl, rfl, rfl, rfl, rfl, rfl, rfl, rfl⟩,
      fun h => (np h).elim⟩⟩

theorem witness_ResetIsPrepareAgain : tPrepared.Inv ∧ tPrepared.prepared = true :=
  ⟨tPrepared_inv, by decide⟩

theorem witness_ResetIdempotent : tPrepared.quiet = true ∧ tPrepared.prepared = true := by decide

/-- A block of two in two blocks of one; the host puts the second sample of each channel at index 0. -/
theorem witness_BlocksCanBeSplit : tPrepared.quiet = true ∧ tPrepared.prepared = true ∧
    1 + 1 ≤ tPrepared.conf.maxblk.toNat ∧
    ∀ v : State, ∀ (c : Chan) (j : Nat), j < 1 →
      ({ v with iobL := [(0, 0xBF400000#32)], iobR := [(0, 0x3DCCCCCD#32)] } : State).ioRead c j =
        tPrepared.ioRead c (1 + j) := by
  refine ⟨by decide, by decide, by decide, fun v c j h => ?_⟩
  obtain rfl : j = 0 := by omega
  cases c <;> rfl

end Sys2Proof.Tests
end

section
/-! The helpers of 00_scope.md: the order of values that are no NaN (R13), and the two clamps whose
result is in range for every bit pattern (R15, R22). -/

namespace Sys2Proof.Machine

/-! ### The order of values that are no NaN -/

theorem flt_iff_key {x y : F32} :
    flt x y = true ↔ isNan x = false ∧ isNan y = false ∧ key x < key y := by
  simp [flt, and_assoc]

theorem fle_iff_key {x y : F32} :
    fle x y = true ↔ isNan x = false ∧ isNan y = false ∧ key x ≤ key y := by
  simp [fle, and_assoc]

theorem feq_iff_key {x y : F32} :
    feq x y = true ↔ isNan x = false ∧ isNan y = false ∧ key x = key y := by
  simp [feq, and_assoc]

theorem within_iff {lo hi x : F32} :
    within lo hi x = true ↔ fle lo x = true ∧ fle x hi = true := by
  simp [within]

theorem strictlyBetween_iff {lo hi x : F32} :
    strictlyBetween lo hi x = true ↔ flt lo x = true ∧ flt x hi = true := by
  simp [strictlyBetween]

theorem fle_refl {x : F32} (h : isNan x = false) : fle x x = true :=
  fle_iff_key.2 ⟨h, h, le_rfl⟩

theorem fle_of_flt {x y : F32} (h : flt x y = true) : fle x y = true := by
  obtain ⟨hx, hy, hk⟩ := flt_iff_key.1 h
  exact fle_iff_key.2 ⟨hx, hy, hk.le⟩

theorem fle_trans {x y z : F32} (h : fle x y = true) (k : fle y z = true) : fle x z = true := by
  obtain ⟨hx, -, hxy⟩ := fle_iff_key.1 h
  obtain ⟨-, hz, hyz⟩ := fle_iff_key.1 k
  exact fle_iff_key.2 ⟨hx, hz, hxy.trans hyz⟩

theorem isNan_left_of_fle {x y : F32} (h : fle x y = true) : isNan x = false := (fle_iff_key.1 h).1

theorem isNan_right_of_fle {x y : F32} (h : fle x y = true) : isNan y = false :=
  (fle_iff_key.1 h).2.1

/-- A strict and a weak comparison the other way round exclude each other. -/
theorem flt_eq_false_of_fle {x y : F32} (h : fle y x = true) : flt x y = false := by
  obtain ⟨-, -, hk⟩ := fle_iff_key.1 h
  simp [flt, hk]

theorem fle_eq_false_of_flt {x y : F32} (h : flt y x = true) : fle x y = false := by
  obtain ⟨-, -, hk⟩ := flt_iff_key.1 h
  simp [fle, hk]

/-- Of two values that are no NaN the one that is not below the other is above or equal. -/
theorem fle_of_flt_eq_false {x y : F32} (hx : isNan x = false) (hy : isNan y = false)
    (h : flt x y = false) : fle y x = true := by
  refine fle_iff_key.2 ⟨hy, hx, ?_⟩
  simpa [flt, hx, hy] using h

theorem natAbs_key (x : F32) : (key x).natAbs = magBits x := by
  simp only [key]; split <;> simp

theorem isFinite_iff_key {x : F32} : isFinite x = true ↔ (key x).natAbs < 0x7F800000 := by
  rw [natAbs_key]; simp [isFinite]

/-- Between finite bounds there is no infinity. -/
theorem isFinite_of_within {lo hi x : F32} (hlo : isFinite lo = true) (hhi : isFinite hi = true)
    (h : within lo hi x = true) : isFinite x = true := by
  obtain ⟨hl, hh⟩ := within_iff.1 h
  obtain ⟨-, -, hl⟩ := fle_iff_key.1 hl
  obtain ⟨-, -, hh⟩ := fle_iff_key.1 hh
  rw [isFinite_iff_key] at *
  omega

theorem within_of_strictlyBetween {lo hi x : F32} (h : strictlyBetween lo hi x = true) :
    within lo hi x = true := by
  obtain ⟨hl, hh⟩ := strictlyBetween_iff.1 h
  exact within_iff.2 ⟨fle_of_flt hl, fle_of_flt hh⟩

theorem lower_within {lo hi : F32} (h : fle lo hi = true) : within lo hi lo = true :=
  within_iff.2 ⟨fle_refl (isNan_left_of_fle h), h⟩

theorem upper_within {lo hi : F32} (h : fle lo hi = true) : within lo hi hi = true :=
  within_iff.2 ⟨h, fle_refl (isNan_right_of_fle h)⟩

/-- Every bit pattern is a NaN, below the range, above it or in it. -/
theorem nan_or_lt_or_gt_or_within (v : F32) {lo hi : F32} (h : fle lo hi = true) :
    isNan v = true ∨ flt v lo = true ∨ fgt v hi = true ∨ within lo hi v = true := by
  cases hn : isNan v with
  | true => exact .inl rfl
  | false =>
    cases hlt : flt v lo with
    | true => exact .inr (.inl rfl)
    | false =>
      cases hgt : fgt v hi with
      | true => exact .inr (.inr (.inl rfl))
      | false =>
        have hl := fle_of_flt_eq_false hn (isNan_left_of_fle h) hlt
        have hh := fle_of_flt_eq_false (isNan_right_of_fle h) hn hgt
        exact .inr (.inr (.inr (within_iff.2 ⟨hl, hh⟩)))

/-! ### The clamp of a delay length (R15) -/

theorem clampIdx_of_not_ge {x lo : F32} (h : fge x lo = false) (hi : F32) : clampIdx x lo hi = lo := by
  simp [clampIdx, h]

theorem clampIdx_of_within {x lo hi : F32} (h : within lo hi x = true) : clampIdx x lo hi = x := by
  obtain ⟨hl, hh⟩ := within_iff.1 h
  simp [clampIdx, fge, fgt, hl, flt_eq_false_of_fle hh]

theorem clampIdx_of_nan {x : F32} (h : isNan x = true) (lo hi : F32) : clampIdx x lo hi = lo :=
  clampIdx_of_not_ge (by simp [fge, fle, h]) hi

theorem clampIdx_of_lt {x lo : F32} (h : flt x lo = true) (hi : F32) : clampIdx x lo hi = lo :=
  clampIdx_of_not_ge (fle_eq_false_of_flt h) hi

theorem clampIdx_of_gt {x lo hi : F32} (hb : fle lo hi = true) (h : fgt x hi = true) :
    clampIdx x lo hi = hi := by
  have hge : fge x lo = true := fle_trans hb (fle_of_flt h)
  simp [clampIdx, hge, h]

theorem clampIdx_within (x : F32) {lo hi : F32} (hb : fle lo hi = true) :
    within lo hi (clampIdx x lo hi) = true := by
  obtain h | h | h | h := nan_or_lt_or_gt_or_within x hb
  · rw [clampIdx_of_nan h]
    exact lower_within hb
  · rw [clampIdx_of_lt h]
    exact lower_within hb
  · rw [clampIdx_of_gt hb h]
    exact upper_within hb
  · rw [clampIdx_of_within h, h]

/-- Settles O35, from the three outcomes of `clampIdx`: the lower bound, the upper bound, the value. -/
theorem indexClampInRange : Obligations.IndexClampInRange := by
  intro x lo hi h
  have hw := clampIdx_within x h
  refine ⟨hw, fun hlo hhi => isFinite_of_within hlo hhi hw, fun hn => clampIdx_of_nan hn lo hi,
    fun hlt => clampIdx_of_lt hlt hi, clampIdx_of_gt h, clampIdx_of_within⟩

/-! ### The parameter table and its clamp (R21, R22) -/

theorem plo_le_phi (k : ParamIx) : fle plo[k] phi[k] = true := by revert k; decide

theorem pdef_within (k : ParamIx) : within plo[k] phi[k] pdef[k] = true := by revert k; decide

theorem phi_lt_inf (k : ParamIx) : fgt 0x7F800000#32 phi[k] = true := by revert k; decide

theorem negInf_lt_plo (k : ParamIx) : flt 0xFF800000#32 plo[k] = true := by revert k; decide

theorem clampP_of_nan {v : F32} (h : isNan v = true) (k : ParamIx) : clampP k v = pdef[k] := by
  simp [clampP, h]

theorem clampP_of_lt {k : ParamIx} {v : F32} (h : flt v plo[k] = true) : clampP k v = plo[k] := by
  have hn := (flt_iff_key.1 h).1
  simp only [clampP, hn, h, if_true, Bool.false_eq_true, if_false]

theorem clampP_of_gt {k : ParamIx} {v : F32} (h : fgt v phi[k] = true) : clampP k v = phi[k] := by
  have hlo : fle plo[k] v = true := fle_trans (plo_le_phi k) (fle_of_flt h)
  have hn := isNan_right_of_fle hlo
  simp only [clampP, hn, flt_eq_false_of_fle hlo, h, if_true, Bool.false_eq_true, if_false]

theorem clampP_of_within {k : ParamIx} {v : F32} (h : within plo[k] phi[k] v = true) :
    clampP k v = v := by
  obtain ⟨hlo, hhi⟩ := within_iff.1 h
  have hn := isNan_right_of_fle hlo
  have hgt : fgt v phi[k] = false := flt_eq_false_of_fle hhi
  simp only [clampP, hn, flt_eq_false_of_fle hlo, hgt, Bool.false_eq_true, if_false]

theorem clampP_within (k : ParamIx) (v : F32) : within plo[k] phi[k] (clampP k v) = true := by
  have hb := plo_le_phi k
  obtain h | h | h | h := nan_or_lt_or_gt_or_within v hb
  · rw [clampP_of_nan h, pdef_within]
  · rw [clampP_of_lt h]
    exact lower_within hb
  · rw [clampP_of_gt h]
    exact upper_within hb
  · rw [clampP_of_within h, h]

/-- Settles O34: the table is written out, and `clampP` has one lemma per outcome; the infinities lie
outside every range. -/
theorem paramClampTotal : Obligations.ParamClampTotal := by
  refine ⟨rfl, rfl, rfl, rfl, fun k v => ⟨fun h => clampP_of_nan h k, ?_, ?_, clampP_of_lt,
    clampP_of_gt, clampP_of_within, clampP_within k v⟩⟩
  · rintro rfl
    exact clampP_of_gt (phi_lt_inf k)
  · rintro rfl
    exact clampP_of_lt (negInf_lt_plo k)

end Sys2Proof.Machine
end

section
/-! The functions of the instance, `CFG.NUM` (00_scope.md R17): each is restricted to values its named
property allows. -/

namespace Sys2Proof.Machine

/-! ### Naturals as binary32 values (R16) -/

theorem isNeg_toF32 (n : Nat) : isNeg (toF32 n) = false := isNeg_pack _ (magRound_lt _ _)

theorem isNan_toF32 (n : Nat) : isNan (toF32 n) = false := by
  have h := magRound_le (n * 2 ^ 149) 1
  simpa [isNan, toF32, magBits_pack _ (magRound_lt _ _)] using h

theorem isFinite_toF32 {n : Nat} (h : n < 2 ^ 24) : isFinite (toF32 n) = true := by
  have hinf : 2 ^ 173 ≤ magUnits 0x7F800000#32 := by decide
  have hlt : magUnits (toF32 n) < magUnits 0x7F800000#32 := by
    rw [magUnits_toF32 h]; omega
  have hb : magBits (toF32 n) < magBits 0x7F800000#32 :=
    (magUnits_lt_iff (isNan_toF32 n) (by decide)).1 hlt
  exact decide_eq_true hb

theorem wholeDown_toF32 {n : Nat} (h : n < 2 ^ 24) : wholeDown (toF32 n) = n := by
  rw [wholeDown, magUnits_toF32 h, Nat.mul_div_cancel n (Nat.two_pow_pos 149)]

theorem toNat_toF32 {n : Nat} (h : n < 2 ^ 24) : toNat (toF32 n) = n := by
  simp [toNat, isFinite_toF32 h, isNeg_toF32, wholeDown_toF32 h]

theorem units_toF32 {n : Nat} (h : n < 2 ^ 24) : units (toF32 n) = n * 2 ^ 149 := by
  simp [units, isNeg_toF32, magUnits_toF32 h]

theorem fle_toF32 {m n : Nat} (hm : m < 2 ^ 24) (hn : n < 2 ^ 24) (h : m ≤ n) :
    fle (toF32 m) (toF32 n) = true := by
  rw [fle_iff (isNan_toF32 m) (isNan_toF32 n), units_toF32 hm, units_toF32 hn]
  omega

/-- A finite value that is not negative is rounded down to a natural. -/
theorem ffloor_of_not_neg {x : F32} (hf : isFinite x = true) (hs : isNeg x = false) :
    ffloor x = toF32 (wholeDown x) := by
  obtain ⟨hn, hi⟩ := finite_cases hf
  simp [ffloor, integral, toF32, hn, hi, hs]

theorem ffloor_toF32 {n : Nat} (h : n < 2 ^ 24) : ffloor (toF32 n) = toF32 n := by
  rw [ffloor_of_not_neg (isFinite_toF32 h) (isNeg_toF32 n), wholeDown_toF32 h]

/-- The whole part of a value between two naturals lies between them. -/
theorem toNat_ffloor_bounds {m n : Nat} {x : F32} (h0 : 0 < m) (hm : m < 2 ^ 24)
    (hn : n < 2 ^ 24) (h : within (toF32 m) (toF32 n) x = true) :
    m ≤ toNat (ffloor x) ∧ toNat (ffloor x) ≤ n := by
  obtain ⟨hlo, hhi⟩ := within_iff.1 h
  have hnan := isNan_right_of_fle hlo
  have hfin : isFinite x = true :=
    isFinite_of_within (isFinite_toF32 hm) (isFinite_toF32 hn) h
  rw [fle_iff (isNan_toF32 m) hnan, units_toF32 hm] at hlo
  rw [fle_iff hnan (isNan_toF32 n), units_toF32 hn] at hhi
  have hs : isNeg x = false := by
    cases hs : isNeg x with
    | false => rfl
    | true => simp only [units, hs, if_true] at hlo; omega
  simp only [units, hs, Bool.false_eq_true, if_false] at hlo hhi
  have hw : m ≤ wholeDown x ∧ wholeDown x ≤ n := by
    unfold wholeDown; omega
  rw [ffloor_of_not_neg hfin hs, toNat_toF32 (by omega)]
  exact hw

/-! ### A free value restricted to an allowed one -/

/-- A restricted value is allowed as soon as its fallback is. -/
theorem restrict_allowed {ok : F32 → Bool} {fallback : F32} (h : ok fallback = true) (raw : F32) :
    ok (restrict ok fallback raw) = true := by
  unfold restrict
  split
  · assumption
  · exact h

theorem expAllowed_fexp (x : F32) : expAllowed x (Config.num.fexp x) = true := by
  refine restrict_allowed ?_ _
  unfold expAllowed
  split
  · decide
  · rfl

theorem sinAllowed_fsin (x : F32) : sinAllowed x (Config.num.fsin x) = true := by
  refine restrict_allowed ?_ _
  unfold sinAllowed
  split
  · decide
  · split
    · decide
    · rfl

theorem cosAllowed_fcos (x : F32) : cosAllowed x (Config.num.fcos x) = true := by
  refine restrict_allowed ?_ _
  unfold cosAllowed
  split
  · decide
  · rfl

theorem pow10Allowed_fpow10 (x : F32) : pow10Allowed x (Config.num.fpow10 x) = true := by
  refine restrict_allowed ?_ _
  unfold pow10Allowed
  split
  · decide
  · split
    · decide
    · rfl

/-! ### `NUM.exp_unit`, `NUM.sin_bound`, `NUM.cos_bound`, `NUM.pow10_unit` -/

theorem fexp_strictlyBetween {x : F32} (h0 : flt x Lit.zero = true) (h100 : fge x Lit.n100 = true) :
    strictlyBetween Lit.zero Lit.d1 (Config.num.fexp x) = true := by
  simpa [expAllowed, h0, h100] using expAllowed_fexp x

theorem fsin_zero : Config.num.fsin Lit.zero = Lit.zero := by
  simpa [sinAllowed] using sinAllowed_fsin Lit.zero

theorem fsin_within {x : F32} (h : isFinite x = true) :
    within Lit.n1 Lit.d1 (Config.num.fsin x) = true := by
  by_cases h0 : x = Lit.zero
  · rw [h0, fsin_zero]
    decide
  · simpa [sinAllowed, h0, h] using sinAllowed_fsin x

theorem fcos_within {x : F32} (h : isFinite x = true) :
    within Lit.n1 Lit.d1 (Config.num.fcos x) = true := by
  simpa [cosAllowed, h] using cosAllowed_fcos x

theorem fpow10_strictlyBetween {x : F32} (hlo : fle Lit.n30 x = true)
    (hhi : fle x Lit.negTwoPowNeg20 = true) :
    strictlyBetween Lit.zero Lit.d1 (Config.num.fpow10 x) = true := by
  simpa [pow10Allowed, fge, hlo, hhi] using pow10Allowed_fpow10 x

/-- On the whole of the nonpositive numbers the bounds of `fpow10` may be reached (R17). -/
theorem fpow10_within {x : F32} (hf : isFinite x = true) (h0 : fle x Lit.zero = true) :
    within Lit.zero Lit.d1 (Config.num.fpow10 x) = true := by
  have h := pow10Allowed_fpow10 x
  unfold pow10Allowed at h
  split at h
  · exact within_of_strictlyBetween h
  · simpa [hf, h0] using h

/-! ### `NUM.exp2_pos` -/

theorem powerOfTwo_eq {n : Nat} (h3 : 3 ≤ n) (h15 : n ≤ 15) : powerOfTwo n = toF32 (2 ^ n) := by
  interval_cases n <;> decide

/-- The powers from `2^3` to `2^15` lie between the bounds of `NUM.exp2_pos`. -/
theorem powerOfTwo_within {n : Nat} (h3 : 3 ≤ n) (h15 : n ≤ 15) :
    within Lit.d8 Lit.d32768 (powerOfTwo n) = true := by
  interval_cases n <;> decide

theorem d3_eq_toF32 : Lit.d3 = toF32 3 := by decide

theorem d15_eq_toF32 : Lit.d15 = toF32 15 := by decide

/-- The whole part of an exponent in range is one of the integers 3 to 15. -/
theorem exponent_bounds {x : F32} (h : within Lit.d3 Lit.d15 x = true) :
    3 ≤ toNat (ffloor x) ∧ toNat (ffloor x) ≤ 15 := by
  rw [d3_eq_toF32, d15_eq_toF32] at h
  exact toNat_ffloor_bounds (by decide) (by decide) (by decide) h

theorem exp2Allowed_fexp2 (x : F32) : exp2Allowed x (Config.num.fexp2 x) = true := by
  refine restrict_allowed ?_ _
  unfold exp2Allowed
  split
  · next hx =>
    obtain ⟨h3, h15⟩ := exponent_bounds hx
    split
    · simp
    · exact powerOfTwo_within h3 h15
  · rfl

theorem fexp2_within {x : F32} (hx : within Lit.d3 Lit.d15 x = true) :
    within Lit.d8 Lit.d32768 (Config.num.fexp2 x) = true := by
  have h := exp2Allowed_fexp2 x
  simp only [exp2Allowed, hx, if_true] at h
  split at h
  · obtain ⟨h3, h15⟩ := exponent_bounds hx
    rw [beq_iff_eq.1 h]
    exact powerOfTwo_within h3 h15
  · exact h

/-- `fexp2` is exact at the integers 3 to 15 (R17). -/
theorem fexp2_toF32 {n : Nat} (h3 : 3 ≤ n) (h15 : n ≤ 15) :
    Config.num.fexp2 (toF32 n) = toF32 (2 ^ n) := by
  have hn : n < 2 ^ 24 := by omega
  have hx : within Lit.d3 Lit.d15 (toF32 n) = true := by
    rw [d3_eq_toF32, d15_eq_toF32]
    exact within_iff.2 ⟨fle_toF32 (by decide) hn h3, fle_toF32 hn (by decide) h15⟩
  have hw : toNat (ffloor (toF32 n)) = n := by rw [ffloor_toF32 hn, toNat_toF32 hn]
  have he : feq (toF32 n) (toF32 n) = true := feq_iff_key.2 ⟨isNan_toF32 n, isNan_toF32 n, rfl⟩
  have h := exp2Allowed_fexp2 (toF32 n)
  simp only [exp2Allowed, hx, hw, he, if_true, beq_iff_eq] at h
  rw [h, powerOfTwo_eq h3 h15]

/-! ### `NUM.finite` -/

theorem fexp_finite {x : F32} (h0 : flt x Lit.zero = true) (h100 : fge x Lit.n100 = true) :
    isFinite (Config.num.fexp x) = true :=
  isFinite_of_within (by decide) (by decide)
    (within_of_strictlyBetween (fexp_strictlyBetween h0 h100))

theorem fsin_finite {x : F32} (h : isFinite x = true) : isFinite (Config.num.fsin x) = true :=
  isFinite_of_within (by decide) (by decide) (fsin_within h)

theorem fcos_finite {x : F32} (h : isFinite x = true) : isFinite (Config.num.fcos x) = true :=
  isFinite_of_within (by decide) (by decide) (fcos_within h)

theorem fpow10_finite {x : F32} (hf : isFinite x = true) (h0 : fle x Lit.zero = true) :
    isFinite (Config.num.fpow10 x) = true :=
  isFinite_of_within (by decide) (by decide) (fpow10_within hf h0)

theorem fexp2_finite {x : F32} (h : within Lit.d3 Lit.d15 x = true) :
    isFinite (Config.num.fexp2 x) = true :=
  isFinite_of_within (by decide) (by decide) (fexp2_within h)

/-- Settles O36: one lemma per named property of R17; that the values are finite follows from their
bounds. -/
theorem numProperties : Obligations.NumProperties :=
  ⟨fun _ h0 h100 => strictlyBetween_iff.1 (fexp_strictlyBetween h0 h100),
    fun _ h => within_iff.1 (fsin_within h),
    fsin_zero,
    fun _ h => within_iff.1 (fcos_within h),
    fun _ hf h0 => within_iff.1 (fpow10_within hf h0),
    fun _ hlo hhi => strictlyBetween_iff.1 (fpow10_strictlyBetween hlo hhi),
    fun _ hlo hhi => within_iff.1 (fexp2_within (within_iff.2 ⟨hlo, hhi⟩)),
    fun _ h3 h15 => fexp2_toF32 h3 h15,
    fun _ => ⟨fexp_finite,
      fun h => ⟨fsin_finite h, fcos_finite h⟩,
      fpow10_finite,
      fun hlo hhi => fexp2_finite (within_iff.2 ⟨hlo, hhi⟩)⟩⟩

end Sys2Proof.Machine
end

section
/-! Stereo independence (00_scope.md R3; 47_signal_router.md R216, R225): where no host waits, a block
commutes with replacing everything one side holds, but for what that side holds at the end. -/

namespace Sys2Proof.Machine

/-- The state with the channel and the `IOBUF` of one side replaced. -/
def State.withSide (ch : Chan) (c : Channel) (m : Cells) (s : State) : State :=
  (s.setChan ch c).setIob ch m

/-- `t` is `s` but for the channel and the `IOBUF` of side `ch`. -/
def SameButSide (ch : Chan) (s t : State) : Prop := ∃ c m, t = s.withSide ch c m

theorem withSide_quiet (ch : Chan) (c : Channel) (m : Cells) (s : State) :
    (s.withSide ch c m).quiet = s.quiet :=
  quiet_congr (by simp [State.withSide]) (by simp [State.withSide])

/-- A turn of the other channel commutes with the replacement. -/
theorem channelTurn_withSide_other {ch d : Chan} (hd : d ≠ ch) {s : State} (h : s.quiet = true)
    (N : NumFns) (i : Nat) (c : Channel) (m : Cells) :
    channelTurn N d i (s.withSide ch c m) = (channelTurn N d i s).withSide ch c m := by
  have hq := (withSide_quiet ch c m s).trans h
  rw [channelTurn_quiet h, channelTurn_quiet hq]
  cases ch with
  | left =>
    cases d with
    | left => exact absurd rfl hd
    | right => rfl
  | right =>
    cases d with
    | left => rfl
    | right => exact absurd rfl hd

/-- A turn of the replaced channel changes nothing beyond that side. -/
theorem channelTurn_withSide_self {s : State} (h : s.quiet = true) (N : NumFns) (ch : Chan) (i : Nat)
    (c : Channel) (m : Cells) :
    SameButSide ch (channelTurn N ch i s) (channelTurn N ch i (s.withSide ch c m)) := by
  have hq := (withSide_quiet ch c m s).trans h
  rw [channelTurn_quiet h, channelTurn_quiet hq]
  cases ch <;> exact ⟨_, _, rfl⟩

theorem channelTurn_sameButSide {ch : Chan} {s t : State} (h : s.quiet = true)
    (hst : SameButSide ch s t) (N : NumFns) (d : Chan) (i : Nat) :
    SameButSide ch (channelTurn N d i s) (channelTurn N d i t) := by
  obtain ⟨c, m, rfl⟩ := hst
  by_cases hd : d = ch
  · rw [hd]
    exact channelTurn_withSide_self h N ch i c m
  · exact ⟨c, m, channelTurn_withSide_other hd h N i c m⟩

/-- The smoother runs on parameters only and looks at no channel (R133). -/
theorem uSmooth_sameButSide {ch : Chan} {s t : State} (hst : SameButSide ch s t) (i : Nat) :
    SameButSide ch (uSmooth { s with sidx := i }) (uSmooth { t with sidx := i }) := by
  obtain ⟨c, m, rfl⟩ := hst
  cases ch <;> exact ⟨c, m, rfl⟩

theorem sampleStep_sameButSide {ch : Chan} {s t : State} (h : s.quiet = true)
    (hst : SameButSide ch s t) (N : NumFns) (i : Nat) :
    SameButSide ch (sampleStep N i s) (sampleStep N i t) := by
  have hs : (uSmooth { s with sidx := i }).quiet = true := (quiet_congr (s := s) rfl rfl).trans h
  have hleft := channelTurn_sameButSide hs (uSmooth_sameButSide hst i) N .left i
  exact channelTurn_sameButSide (channelTurn_quiet_quiet hs N .left i) hleft N .right i

theorem sampleSteps_sameButSide {ch : Chan} {s t : State} (h : s.quiet = true)
    (hst : SameButSide ch s t) (N : NumFns) (n i : Nat) :
    SameButSide ch (sampleSteps N n i s) (sampleSteps N n i t) := by
  induction n generalizing i s t with
  | zero => exact hst
  | succ n ih => exact ih (sampleStep_quiet_quiet h N i) (sampleStep_sameButSide h hst N i) (i + 1)

/-- Where no host waits, the snapshot touches `TGT` only (R131). -/
theorem uLatch_quiet_quiet {s : State} (h : s.quiet = true) : (uLatch s).quiet = true := by
  rw [uLatch, latchAll_quiet h]
  exact h

theorem uLatch_sameButSide {ch : Chan} {s t : State} (h : s.quiet = true)
    (hst : SameButSide ch s t) : SameButSide ch (uLatch s) (uLatch t) := by
  obtain ⟨c, m, rfl⟩ := hst
  rw [uLatch, uLatch, latchAll_quiet h, latchAll_quiet ((withSide_quiet ch c m s).trans h)]
  cases ch <;> exact ⟨c, m, rfl⟩

theorem raiseFault_sameButSide {ch : Chan} {s t : State} (hst : SameButSide ch s t) (f : U32) :
    SameButSide ch (raiseFault f s) (raiseFault f t) := by
  obtain ⟨c, m, rfl⟩ := hst
  cases ch <;> exact ⟨c, m, rfl⟩

/-- Whether a block is legal does not depend on the channels (R120). -/
theorem pblockFlags_sameButSide {ch : Chan} {s t : State} (hst : SameButSide ch s t) (n : Nat) :
    pblockFlags t n = pblockFlags s n := by
  obtain ⟨c, m, rfl⟩ := hst
  cases ch <;> rfl

theorem pblockBody_quiet_quiet {s : State} (h : s.quiet = true) (N : NumFns) (n : Nat) :
    (pblockBody N n s).quiet = true := by
  unfold pblockBody
  split
  · exact (quiet_congr (s := s) rfl rfl).trans h
  · exact sampleSteps_quiet_quiet (uLatch_quiet_quiet h) N n 0

theorem pblockBody_sameButSide {ch : Chan} {s t : State} (h : s.quiet = true)
    (hst : SameButSide ch s t) (N : NumFns) (n : Nat) :
    SameButSide ch (pblockBody N n s) (pblockBody N n t) := by
  simp only [pblockBody, pblockFlags_sameButSide hst n]
  split
  · exact raiseFault_sameButSide hst _
  · exact sampleSteps_sameButSide (uLatch_quiet_quiet h) (uLatch_sameButSide h hst) N n 0

/-- A command keeps the relation if its body does, where no host waits at its end. -/
theorem runCommand_sameButSide {ch : Chan} {s t : State} {body : State → State}
    (hs : (body (beginCommand s)).quiet = true)
    (hb : SameButSide ch (body (beginCommand s)) (body (beginCommand t))) :
    SameButSide ch (runCommand body statusWord s) (runCommand body statusWord t) := by
  obtain ⟨c, m, hc⟩ := hb
  have ht : (body (beginCommand t)).quiet = true := by rw [hc, withSide_quiet, hs]
  rw [runCommand_quiet hs, runCommand_quiet ht, hc]
  cases ch <;> exact ⟨c, m, rfl⟩

/-- A `PBLOCK` keeps two states the same but for one side. -/
theorem execPblock_sameButSide {ch : Chan} {s t : State} (h : s.quiet = true)
    (hst : SameButSide ch s t) (n : Nat) :
    ∃ u v, exec (.pblock n) s = .next u ∧ exec (.pblock n) t = .next v ∧ SameButSide ch u v := by
  have hq : (beginCommand s).quiet = true := (quiet_congr (s := s) rfl rfl).trans h
  have hbegin : SameButSide ch (beginCommand s) (beginCommand t) := by
    obtain ⟨c, m, rfl⟩ := hst
    cases ch <;> exact ⟨c, m, rfl⟩
  exact ⟨_, _, rfl, rfl, runCommand_sameButSide (pblockBody_quiet_quiet hq Config.num n)
    (pblockBody_sameButSide hq hbegin Config.num n)⟩

/-- Settles O55: the two runs stay the same state but for the side in which they began to differ. -/
theorem stereoChannelsIndependent : Obligations.StereoChannelsIndependent := by
  intro n s c m h
  constructor
  · have hst : SameButSide .right s { s with chR := c, iobR := m } := ⟨c, m, rfl⟩
    obtain ⟨u, v, hu, hv, c', m', rfl⟩ := execPblock_sameButSide h hst n
    exact ⟨u, _, hu, hv, rfl, rfl, rfl, rfl, rfl⟩
  · have hst : SameButSide .left s { s with chL := c, iobL := m } := ⟨c, m, rfl⟩
    obtain ⟨u, v, hu, hv, c', m', rfl⟩ := execPblock_sameButSide h hst n
    exact ⟨u, _, hu, hv, rfl, rfl, rfl, rfl, rfl⟩

end Sys2Proof.Machine
end

section
/-! The induction over what happens inside a command (40_host_commands.md R110; 20_memory.md R75, R79): the
actions of the hosts at an interleaving point, the reads of the snapshot, the sample steps. It is made once,
for a relation between two runs that draw the same choices; a property of one run is the case of two equal
states. -/

namespace Sys2Proof.Machine

/-! ### Relations that the hosts' actions keep -/

/-- Each action of a host keeps the relation, and in related states the same hosts wait and the same free
value comes next (log 9). -/
structure HostRel (R : State → State → Prop) : Prop where
  memEq : ∀ {s t}, R s t → t.mem = s.mem
  ctlEq : ∀ {s t}, R s t → t.ctl = s.ctl
  schedEq : ∀ {s t}, R s t → t.sched = s.sched
  mem : ∀ {s t}, R s t → R (serveMem s) (serveMem t)
  ctl : ∀ {s t}, R s t → R (serveCtl s) (serveCtl t)
  drawn : ∀ {s t}, R s t → R s.drawn t.drawn

theorem HostRel.quiet {R : State → State → Prop} (hR : HostRel R) {s t : State} (h : R s t) :
    t.quiet = s.quiet := quiet_congr (hR.memEq h) (hR.ctlEq h)

theorem HostRel.act {R : State → State → Prop} (hR : HostRel R) {s t : State} (h : R s t) :
    R (hostAct s) (hostAct t) := by
  have hm : t.memReady = s.memReady := by simp [State.memReady, hR.memEq h]
  have hc : t.ctlReady = s.ctlReady := by simp [State.ctlReady, hR.ctlEq h]
  simp only [hostAct, hm, hc, hR.schedEq h]
  split
  · split
    · exact hR.mem (hR.drawn h)
    · exact hR.ctl (hR.drawn h)
  · split
    · exact hR.mem h
    · exact hR.ctl h

theorem HostRel.acts {R : State → State → Prop} (hR : HostRel R) (n : Nat) {s t : State}
    (h : R s t) : R (hostActs n s) (hostActs n t) := by
  induction n generalizing s t with
  | zero => exact h
  | succ n ih => exact ih (hR.act h)

theorem HostRel.point {R : State → State → Prop} (hR : HostRel R) {s t : State} (h : R s t) :
    R (hostPoint s) (hostPoint t) := by
  simp only [hostPoint, hR.quiet h, hR.schedEq h]
  split
  · exact h
  · exact hR.acts _ (hR.drawn h)

theorem latchChoice_lt (s : State) {n : Nat} (h : 0 < n) : latchChoice s n < n := by
  unfold latchChoice
  split
  · exact h
  · exact Nat.mod_lt _ h

theorem HostRel.latchDrawn {R : State → State → Prop} (hR : HostRel R) {s t : State} (h : R s t) :
    R (latchDrawn s) (latchDrawn t) := by
  simp only [Machine.latchDrawn, hR.quiet h]
  split
  · exact h
  · exact hR.drawn h

/-- The snapshot: the relation may speak of the parameters not read yet, none of which is left at the
end (R79). -/
theorem latchFrom_rel {R : List ParamIx → State → State → Prop} (hR : ∀ ks, HostRel (R ks))
    (hread : ∀ {ks j k s t}, ks[j]? = some k → R ks s t →
      R (ks.eraseIdx j) (latchOne k s) (latchOne k t))
    {n : Nat} {ks : List ParamIx} (hn : ks.length = n) {s t : State} (h : R ks s t) :
    R [] (latchFrom n ks s) (latchFrom n ks t) := by
  induction n generalizing ks s t with
  | zero =>
    obtain rfl := List.length_eq_zero_iff.1 hn
    exact h
  | succ n ih =>
    have hp := (hR ks).point h
    have hj : latchChoice (hostPoint t) ks.length = latchChoice (hostPoint s) ks.length := by
      simp only [latchChoice, (hR ks).quiet hp, (hR ks).schedEq hp]
    have hlt : latchChoice (hostPoint s) ks.length < ks.length := latchChoice_lt _ (by omega)
    have hk := List.getElem?_eq_getElem hlt
    simp only [latchFrom, hj, hk]
    refine ih ?_ (hread hk ((hR ks).latchDrawn hp))
    rw [List.length_eraseIdx_of_lt hlt, hn, Nat.add_sub_cancel]

theorem latchAll_rel {R : List ParamIx → State → State → Prop} (hR : ∀ ks, HostRel (R ks))
    (hread : ∀ {ks j k s t}, ks[j]? = some k → R ks s t →
      R (ks.eraseIdx j) (latchOne k s) (latchOne k t))
    {s t : State} (h : R allParams s t) : R [] (latchAll s) (latchAll t) :=
  latchFrom_rel hR hread rfl h

/-! ### Relations that the sample steps keep -/

/-- What a channel's turn computes from its input sample: the channel after it and the output (R218). -/
def channelOut (N : NumFns) (c : Chan) (dry : F32) (s : State) : Channel × F32 :=
  uRoute N s.cfg s.conf s.sm c (s.chan c) dry

theorem channelTurn_eq (N : NumFns) (c : Chan) (i : Nat) (s : State) :
    channelTurn N c i s =
      (hostPoint ((hostPoint s).setChan c
        (channelOut N c ((hostPoint s).ioRead c i) (hostPoint s)).1)).ioWrite c i
        (channelOut N c ((hostPoint s).ioRead c i) (hostPoint s)).2 := rfl

/-- Each part of a sample step at an index below `m` keeps the relation (R216). -/
structure SampleRel (N : NumFns) (m : Nat) (R : State → State → Prop) : Prop extends HostRel R where
  smooth : ∀ {s t} (i : Nat), R s t → R (uSmooth { s with sidx := i }) (uSmooth { t with sidx := i })
  read : ∀ {s t} (c : Chan) (i : Nat), R s t → t.ioRead c i = s.ioRead c i
  out : ∀ {s t} (c : Chan) (dry : F32), R s t →
    (channelOut N c dry t).2 = (channelOut N c dry s).2
  turn : ∀ {s t} (c : Chan) (dry : F32), R s t →
    R (s.setChan c (channelOut N c dry s).1) (t.setChan c (channelOut N c dry t).1)
  write : ∀ {s t} (c : Chan) {i : Nat} (w : Word), i < m → R s t →
    R (s.ioWrite c i w) (t.ioWrite c i w)

theorem SampleRel.channelTurn {N : NumFns} {m : Nat} {R : State → State → Prop}
    (hR : SampleRel N m R) (c : Chan) {i : Nat} (hi : i < m) {s t : State} (h : R s t) :
    R (channelTurn N c i s) (channelTurn N c i t) := by
  have hp := hR.point h
  rw [channelTurn_eq, channelTurn_eq, hR.read c i hp, hR.out c _ hp]
  exact hR.write c _ hi (hR.point (hR.turn c _ hp))

theorem SampleRel.step {N : NumFns} {m : Nat} {R : State → State → Prop} (hR : SampleRel N m R)
    {i : Nat} (hi : i < m) {s t : State} (h : R s t) : R (sampleStep N i s) (sampleStep N i t) :=
  hR.channelTurn .right hi (hR.channelTurn .left hi (hR.smooth i h))

theorem SampleRel.steps {N : NumFns} {m : Nat} {R : State → State → Prop} (hR : SampleRel N m R)
    (n : Nat) {i : Nat} (hi : i + n ≤ m) {s t : State} (h : R s t) :
    R (sampleSteps N n i s) (sampleSteps N n i t) := by
  induction n generalizing i s t with
  | zero => exact h
  | succ n ih => exact ih (by omega) (hR.step (by omega) h)

/-! ### Properties of one run -/

/-- Each action of a host keeps the property. -/
structure HostKeeps (P : State → Prop) : Prop where
  mem : ∀ {s}, P s → P (serveMem s)
  ctl : ∀ {s}, P s → P (serveCtl s)
  drawn : ∀ {s}, P s → P s.drawn

theorem HostKeeps.rel {P : State → Prop} (hP : HostKeeps P) : HostRel fun s t => P s ∧ t = s where
  memEq := fun h => by rw [h.2]
  ctlEq := fun h => by rw [h.2]
  schedEq := fun h => by rw [h.2]
  mem := fun h => ⟨hP.mem h.1, by rw [h.2]⟩
  ctl := fun h => ⟨hP.ctl h.1, by rw [h.2]⟩
  drawn := fun h => ⟨hP.drawn h.1, by rw [h.2]⟩

theorem HostKeeps.point {P : State → Prop} (hP : HostKeeps P) {s : State} (h : P s) :
    P (hostPoint s) := (hP.rel.point ⟨h, rfl⟩).1

theorem latchAll_keeps {P : List ParamIx → State → Prop} (hP : ∀ ks, HostKeeps (P ks))
    (hread : ∀ {ks j k s}, ks[j]? = some k → P ks s → P (ks.eraseIdx j) (latchOne k s))
    {s : State} (h : P allParams s) : P [] (latchAll s) :=
  (latchAll_rel (R := fun ks s t => P ks s ∧ t = s) (fun ks => (hP ks).rel)
    (fun hk h => ⟨hread hk h.1, by rw [h.2]⟩) ⟨h, rfl⟩).1

/-- Each part of a sample step at an index below `m` keeps the property. -/
structure SampleKeeps (N : NumFns) (m : Nat) (P : State → Prop) : Prop extends HostKeeps P where
  smooth : ∀ {s} (i : Nat), P s → P (uSmooth { s with sidx := i })
  turn : ∀ {s} (c : Chan) (dry : F32), P s → P (s.setChan c (channelOut N c dry s).1)
  write : ∀ {s} (c : Chan) {i : Nat} (w : Word), i < m → P s → P (s.ioWrite c i w)

theorem SampleKeeps.rel {N : NumFns} {m : Nat} {P : State → Prop} (hP : SampleKeeps N m P) :
    SampleRel N m fun s t => P s ∧ t = s where
  toHostRel := hP.toHostKeeps.rel
  smooth := fun i h => ⟨hP.smooth i h.1, by rw [h.2]⟩
  read := fun c i h => by rw [h.2]
  out := fun c dry h => by rw [h.2]
  turn := fun c dry h => ⟨hP.turn c dry h.1, by rw [h.2]⟩
  write := fun c i w hi h => ⟨hP.write c w hi h.1, by rw [h.2]⟩

theorem SampleKeeps.steps {N : NumFns} {n : Nat} {P : State → Prop} (hP : SampleKeeps N n P)
    {s : State} (h : P s) : P (sampleSteps N n 0 s) :=
  (hP.rel.steps n (by omega) ⟨h, rfl⟩).1

/-! ### The commands -/

/-- What a command does between taking it and its response (R110); on `CTL`, all it does. -/
def commandBody : Instr → State → State
  | .prepare fs maxblk => prepareBody Config.num fs maxblk
  | .reset => resetBody
  | .pblock n => pblockBody Config.num n
  | .psample => pblockBody Config.num 1
  | .rdenv _ => rdenvBody
  | .wrparam k v => writeParam k v

/-- The response word of a command on `CMD` (R98). -/
def commandResponse : Instr → State → Word
  | .rdenv ch => envWord ch
  | _ => statusWord

/-- `exec` in one equation: a command on `CMD` is its body between the taking and the response, one on
`CTL` its body alone (R110, R126). -/
theorem exec_eq (i : Instr) (s : State) :
    exec i s = .next (match i.port with
      | .cmd => runCommand (commandBody i) (commandResponse i) s
      | .ctl => commandBody i s) := by
  cases i <;> rfl

/-- The two outcomes of `PREPARE` (R111, R112). -/
theorem prepareBody_illegal {N : NumFns} {fs : F32} {mb : U32} {s : State}
    (h : prepareFlags s.cfg fs mb ≠ 0#32) :
    prepareBody N fs mb s = raiseFault (prepareFlags s.cfg fs mb) s := by
  simp [prepareBody, h]

theorem prepareBody_legal {N : NumFns} {fs : F32} {mb : U32} {s : State}
    (h : prepareFlags s.cfg fs mb = 0#32) :
    prepareBody N fs mb s = markPrepared (clearAll (configure N fs mb s)) := by
  simp [prepareBody, h]

/-- The two outcomes of `RESET` (R118). -/
theorem resetBody_unprepared {s : State} (h : s.prepared = false) :
    resetBody s = raiseFault maskNotPrep s := by simp [resetBody, h]

theorem resetBody_prepared {s : State} (h : s.prepared = true) : resetBody s = clearAll s := by
  simp [resetBody, h]

/-- The two outcomes of `PBLOCK n` (R120). -/
theorem pblockBody_illegal {N : NumFns} {n : Nat} {s : State} (h : pblockFlags s n ≠ 0#32) :
    pblockBody N n s = raiseFault (pblockFlags s n) s := by simp [pblockBody, h]

theorem pblockBody_legal {N : NumFns} {n : Nat} {s : State} (h : pblockFlags s n = 0#32) :
    pblockBody N n s = sampleSteps N n 0 (uLatch s) := by simp [pblockBody, h]

theorem pblockFlags_eq_zero_iff {s : State} {n : Nat} :
    pblockFlags s n = 0#32 ↔ s.prepared = true ∧ n ≤ s.conf.maxblk.toNat := by
  unfold pblockFlags
  cases s.prepared with
  | false => simp [maskNotPrep]
  | true => simp [maskBadLen]

end Sys2Proof.Machine
end

section
/-! What the commands and a step leave alone (10_state.md R31, R37, R38): properties that no part of a command
touches. -/

namespace Sys2Proof.Machine

/-! ### A property that every part of a command keeps -/

/-- Every part of a command keeps the property, but for the two that write what no other command writes:
`PREPARE` the configuration registers (R38) and `WRPARAM` the parameter file (R31). -/
structure CommandKeeps (P : State → Prop) : Prop extends HostKeeps P where
  processed : ∀ {s : State} (tgt sm : Vector F32 18) (sidx : Nat) (chL chR : Channel), P s →
    P { s with tgt := tgt, sm := sm, sidx := sidx, chL := chL, chR := chR }
  write : ∀ {s : State} (c : Chan) (i : Nat) (w : Word), P s → P (s.ioWrite c i w)
  raise : ∀ {s : State} (f : U32), P s → P (raiseFault f s)
  taken : ∀ {s : State}, P s → P (beginCommand s)
  answered : ∀ {s : State} (w : Word), P s → P (endCommand w s)

theorem CommandKeeps.latch {P : State → Prop} (hP : CommandKeeps P) {s : State} (h : P s) :
    P (latchAll s) :=
  latchAll_keeps (P := fun _ => P) (fun _ => hP.toHostKeeps)
    (fun _ h => hP.processed _ _ _ _ _ h) h

theorem CommandKeeps.clear {P : State → Prop} (hP : CommandKeeps P) {s : State} (h : P s) :
    P (clearAll s) :=
  hP.processed (s := latchAll s) (latchAll s).tgt (latchAll s).tgt (latchAll s).sidx _ _ (hP.latch h)

theorem CommandKeeps.samples {P : State → Prop} (hP : CommandKeeps P) (N : NumFns) (n : Nat) :
    SampleKeeps N n P where
  toHostKeeps := hP.toHostKeeps
  smooth := fun {s} i h => hP.processed (s := s) s.tgt _ i s.chL s.chR h
  turn := fun c _ h => by cases c <;> exact hP.processed _ _ _ _ _ h
  write := fun c _ w _ h => hP.write c _ w h

/-- A body keeps the property, if at a legal `PREPARE` the configuration does and at a `WRPARAM` the
store. -/
theorem CommandKeeps.body {P : State → Prop} (hP : CommandKeeps P) {i : Instr} {s : State} (h : P s)
    (hprep : ∀ fs mb, i = .prepare fs mb → prepareFlags s.cfg fs mb = 0#32 →
      P (configure Config.num fs mb s))
    (hparam : ∀ k v, i = .wrparam k v → P (writeParam k v s)) : P (commandBody i s) := by
  have hblock (n : Nat) : P (pblockBody Config.num n s) := by
    by_cases hf : pblockFlags s n = 0#32
    · rw [pblockBody_legal hf]
      exact (hP.samples _ n).steps (hP.latch h)
    · rw [pblockBody_illegal hf]
      exact hP.raise _ h
  cases i with
  | prepare fs mb =>
    by_cases hf : prepareFlags s.cfg fs mb = 0#32
    · rw [commandBody, prepareBody_legal hf]
      exact hP.raise maskPrepared (hP.clear (hprep fs mb rfl hf))
    · rw [commandBody, prepareBody_illegal hf]
      exact hP.raise _ h
  | reset =>
    cases hp : s.prepared with
    | false => rw [commandBody, resetBody_unprepared hp]; exact hP.raise _ h
    | true => rw [commandBody, resetBody_prepared hp]; exact hP.clear h
  | pblock n => exact hblock n
  | psample => exact hblock 1
  | rdenv ch => exact h
  | wrparam k v => exact hparam k v rfl

theorem CommandKeeps.run {P : State → Prop} (hP : CommandKeeps P) {body : State → State} {s : State}
    (hbody : P (beginCommand s) → P (body (beginCommand s))) (response : State → Word) (h : P s) :
    P (runCommand body response s) :=
  hP.answered _ (hP.point (hbody (hP.taken h)))

/-- A command keeps the property, under the same two conditions. -/
theorem CommandKeeps.exec {P : State → Prop} (hP : CommandKeeps P) {i : Instr} {s : State} (h : P s)
    (hprep : ∀ fs mb, i = .prepare fs mb → prepareFlags s.cfg fs mb = 0#32 →
      ∀ u, P u → P (configure Config.num fs mb u))
    (hparam : ∀ k v, i = .wrparam k v → ∀ u, P u → P (writeParam k v u)) :
    ∃ t, exec i s = .next t ∧ P t := by
  have hbody {u : State} (hg : u.cfg = s.cfg) (hu : P u) : P (commandBody i u) :=
    hP.body hu (fun fs mb hi hf => hprep fs mb hi (hg ▸ hf) u hu) fun k v hi => hparam k v hi u hu
  rw [exec_eq]
  refine ⟨_, rfl, ?_⟩
  split
  · exact hP.run (hbody rfl) _ h
  · exact hbody rfl h

theorem CommandKeeps.illegal {P : State → Prop} (hP : CommandKeeps P) (p : Port) {s : State}
    (h : P s) : P (illegalOn p s) := by
  cases p with
  | cmd => exact hP.run (hP.raise _) _ h
  | ctl => exact hP.raise _ h

/-! ### A step -/

/-- What a step keeps: an action of the hosts, the taking of a command's words, the command. -/
theorem step_keeps {P : State → Prop} (hP : HostKeeps P)
    (hfetch : ∀ {p u d v}, fetch p u = some (d, v) → P u → P v)
    (hexec : ∀ {i u v}, exec i u = .next v → P u → P v)
    (hill : ∀ p {u}, P u → P (illegalOn p u)) {s t : State} (h : P s) (hs : step s = .next t) :
    P t := by
  have hturn {p : Port} {u : State} (hu : P u) (ht : commandTurn p u = .next t) : P t := by
    unfold commandTurn at ht
    split at ht
    · cases ht; exact hu
    · next hf => exact hexec ht (hfetch hf hu)
    · next hf => cases ht; exact hill p (hfetch hf hu)
  have hserve {a : Source} {u : State} (hu : P u) (ht : serve a u = .next t) : P t := by
    cases a with
    | mem => cases ht; exact hP.mem hu
    | ctl => exact hturn hu ht
    | cmd => exact hturn hu ht
  unfold step at hs
  split at hs
  · cases hs; exact h
  · next a rest _ =>
    split at hs
    · refine hserve ?_ hs
      cases rest with
      | nil => exact h
      | cons b more => exact hP.drawn h
    · cases hs

/-! ### What no host's action writes -/

theorem hostKeeps_of_frame {P : State → Prop} (h : ∀ {s t}, HostFrame s t → P s → P t) :
    HostKeeps P where
  mem := fun {s} => h (serveMem_frame s)
  ctl := fun {s} => h (serveCtl_frame s)
  drawn := fun {s} => h (drawn_frame s)

theorem memAccess_prm (r : MemReq) (s : State) : (memAccess r s).prm = s.prm := by
  cases r with
  | load a => obtain ⟨c, i, -, h⟩ | ⟨-, h⟩ := memAccess_load a s <;> rw [h]
  | store a w =>
    obtain ⟨c, i, -, h⟩ | ⟨-, h⟩ := memAccess_store a w s <;> rw [h]
    exact ioWrite_prm c i w s

theorem memAccess_ctl (r : MemReq) (s : State) : (memAccess r s).ctl = s.ctl := by
  cases r with
  | load a => obtain ⟨c, i, -, h⟩ | ⟨-, h⟩ := memAccess_load a s <;> rw [h]
  | store a w =>
    obtain ⟨c, i, -, h⟩ | ⟨-, h⟩ := memAccess_store a w s <;> rw [h]
    exact ioWrite_ctl c i w s

theorem serveMem_prm (s : State) : (serveMem s).prm = s.prm := by
  unfold serveMem
  split
  · rfl
  · exact memAccess_prm _ _

theorem serveMem_ctl (s : State) : (serveMem s).ctl = s.ctl := by
  unfold serveMem
  split
  · rfl
  · exact memAccess_ctl _ _

/-- Where no whole command waits on `CTL` there is none to serve (R91). -/
theorem serveCtl_of_not_ready {s : State} (h : s.ctlReady = false) : serveCtl s = s := by
  have hn : takeCommand .ctl s.ctl = none := by simpa [State.ctlReady] using h
  simp [serveCtl, hn]

/-! ### The frame properties of all commands -/

theorem commandKeeps_cfg (g : Cfg) : CommandKeeps fun s => s.cfg = g where
  toHostKeeps := hostKeeps_of_frame fun hf h => hf.cfg.trans h
  processed := fun _ _ _ _ _ h => h
  write := fun c i w h => (ioWrite_cfg c i w _).trans h
  raise := fun _ h => h
  taken := fun h => h
  answered := fun _ h => h

theorem commandKeeps_conf (k : Conf) : CommandKeeps fun s => s.conf = k where
  toHostKeeps := hostKeeps_of_frame fun hf h => hf.conf.trans h
  processed := fun _ _ _ _ _ h => h
  write := fun c i w h => (ioWrite_conf c i w _).trans h
  raise := fun _ h => h
  taken := fun h => h
  answered := fun _ h => h

/-- Settles O31: no part of a command writes the configuration registers but the one that computes them
in a legal `PREPARE`, and none writes `CFG`. -/
theorem onlyLegalPrepareConfigures : Obligations.OnlyLegalPrepareConfigures := by
  intro i s
  obtain ⟨t, ht, hcfg⟩ := (commandKeeps_cfg s.cfg).exec (i := i) (s := s) rfl
    (fun _ _ _ _ _ hu => hu) fun k v _ u hu => (writeParam_cfg k v u).trans hu
  refine ⟨t, ht, hcfg, fun hill => ?_⟩
  obtain ⟨u, hu, hconf⟩ := (commandKeeps_conf s.conf).exec (i := i) (s := s) rfl
    (fun fs mb hi hf _ _ => absurd hf (hill fs mb hi))
    fun k v _ u hu => (writeParam_conf k v u).trans hu
  cases ht.symm.trans hu
  exact hconf

/-- `PRM` holds `p` and no whole command waits on `CTL`. -/
def PrmSilent (p : Vector F32 18) (s : State) : Prop := s.prm = p ∧ s.ctlReady = false

theorem prmSilent_congr {p : Vector F32 18} {s t : State} (hp : t.prm = s.prm) (hc : t.ctl = s.ctl)
    (h : PrmSilent p s) : PrmSilent p t :=
  ⟨hp.trans h.1, by rw [← h.2, State.ctlReady, State.ctlReady, hc]⟩

theorem commandKeeps_prmSilent (p : Vector F32 18) : CommandKeeps (PrmSilent p) where
  mem := fun {s} h => prmSilent_congr (serveMem_prm s) (serveMem_ctl s) h
  ctl := fun {s} h => by rw [serveCtl_of_not_ready h.2]; exact h
  drawn := fun h => h
  processed := fun _ _ _ _ _ h => h
  write := fun c i w h => prmSilent_congr (ioWrite_prm c i w _) (ioWrite_ctl c i w _) h
  raise := fun _ h => h
  taken := fun h => h
  answered := fun _ h => h

/-- Settles O32: with `CTL` silent no part of a command of `CMD` stores to `PRM`. -/
theorem onlyWrparamWritesPrm : Obligations.OnlyWrparamWritesPrm := by
  intro i s hport hctl
  obtain ⟨t, ht, hprm, -⟩ := (commandKeeps_prmSilent s.prm).exec (i := i) (s := s) ⟨rfl, hctl⟩
    (fun _ _ _ _ _ hu => hu) fun k v hi => by rw [hi] at hport; cases hport
  exact ⟨t, ht, hprm⟩

/-! ### Flags are sticky -/

/-- Every bit of `a` is set in `STATUS`. -/
def FlagsSet (a : U32) (s : State) : Prop := a &&& s.status = a

theorem commandKeeps_flagsSet (a : U32) : CommandKeeps (FlagsSet a) where
  toHostKeeps := hostKeeps_of_frame fun hf h => sticky_trans h hf.sticky
  processed := fun _ _ _ _ _ h => h
  write := fun c i w h => sticky_trans h (ioWrite_frame c i w _).sticky
  raise := fun f h => sticky_trans h (sticky_or _ f)
  taken := fun h => h
  answered := fun _ h => h

theorem fetch_status {p : Port} {s t : State} {d : Decoded} (h : fetch p s = some (d, t)) :
    t.status = s.status := by
  cases p <;>
  · obtain ⟨x, -, hx⟩ := Option.map_eq_some_iff.1 h
    cases hx
    rfl

/-- Settles O12: no part of a step clears a bit of `STATUS` (R37, R231). -/
theorem flagsAreSticky : Obligations.FlagsAreSticky := by
  intro s t ht
  have hP := commandKeeps_flagsSet s.status
  refine step_keeps hP.toHostKeeps ?_ ?_ hP.illegal (P := FlagsSet s.status) BitVec.and_self ht
  · intro p u d v hf hu
    rwa [FlagsSet, fetch_status hf]
  · intro i u v hv hu
    obtain ⟨w, hw, h⟩ := hP.exec (i := i) hu (fun _ _ _ _ _ h => h)
      fun k v _ u h => sticky_trans h (writeParam_frame k v u).sticky
    cases hw.symm.trans hv
    exact h

end Sys2Proof.Machine
end

section
/-! Power-on and clearing (70_reset_and_hazards.md R255, R258), and the turn of a port that has a command
(10_state.md R36). -/

namespace Sys2Proof.Machine

/-! ### The values after power-on (R51, R255) -/

theorem reset_not_prepared : State.reset.prepared = false := by decide

/-- Settles O9: nothing is listed in any memory, and the clauses of a prepared core do not apply. -/
theorem invariantHoldsAtReset : Obligations.InvariantHoldsAtReset where
  cfg := by decide
  idle := rfl
  reserved := by decide
  iob := reset_iobWf
  iobBound := fun c e he => by cases c <;> cases he
  rams := fun c => ⟨(reset_ramsWf c).1, (reset_ramsWf c).2⟩
  conf := fun h => by rw [reset_not_prepared] at h; cases h
  legal := fun h => by rw [reset_not_prepared] at h; cases h
  cursors := fun h => by rw [reset_not_prepared] at h; cases h
  tgt := fun h => by rw [reset_not_prepared] at h; cases h

/-- Settles O13: the values stand in `State.porState`, whatever the number of the power-on. -/
theorem powerOnValues : Obligations.PowerOnValues := by
  have hpor (g : Cfg) (n d : Nat) :
      (State.porState g n d).status = 0x00000000#32 ∧ (State.porState g n d).busy = false ∧
      (∀ k : ParamIx, (State.porState g n d).prm[k] = pdef[k]) ∧
      (State.porState g n d).chL.envOut = 0x00000000#32 ∧
      (State.porState g n d).chR.envOut = 0x00000000#32 ∧ (State.porState g n d).cmd = [] ∧
      (State.porState g n d).ctl = [] ∧ (State.porState g n d).rsp = [] :=
    ⟨rfl, rfl, fun _ => rfl, rfl, rfl, rfl, rfl, rfl⟩
  exact ⟨fun s => hpor s.cfg (s.por + 1) s.sched, hpor Cfg.default 0 0⟩

/-! ### The clearing sequence in a channel (R258) -/

theorem cleared_line (k : Conf) (seed : U32) (c : Channel) (i : Fin 8) :
    (c.cleared k seed).lines[i] = c.lines[i].cleared k.nbuf[i] := tab8_get _ i

theorem cleared_tap (k : Conf) (seed : U32) (c : Channel) (t : Fin 3) :
    (c.cleared k seed).taps[t] = ⟨Lit.zero, Lit.zero, 0#32, Lit.zero, Lit.zero⟩ := tab3_get _ t

theorem ramRead_ramClear_of_lt {n a : Nat} (h : a < n) (m : Cells) :
    ramRead (ramClear n m) a = Lit.zero := by rw [ramRead_ramClear, if_pos h]

/-- Settles O19: the registers by definition, the words in use by the law of `ramClear`. -/
theorem clearingZeroesChannel : Obligations.ClearingZeroesChannel := by
  intro k seed c d
  refine ⟨rfl, rfl, rfl, rfl, rfl, rfl, rfl, fun i => ?_,
    fun a ha => ramRead_ramClear_of_lt ha c.vbuf, rfl, fun t => ?_, rfl, rfl, rfl⟩
  · rw [cleared_line]
    exact ⟨rfl, rfl, rfl, rfl, fun a ha => ramRead_ramClear_of_lt ha _⟩
  · rw [cleared_tap]
    exact ⟨rfl, rfl, rfl, rfl, rfl⟩

/-! ### The turn of a port (R36, R91, R97) -/

theorem fetch_cmd {s : State} {d : Decoded} {rest : List Word}
    (h : takeCommand .cmd s.cmd = some (d, rest)) : fetch .cmd s = some (d, s.tookCmd rest) := by
  simp [fetch, h]

theorem fetch_ctl {s : State} {d : Decoded} {rest : List Word}
    (h : takeCommand .ctl s.ctl = some (d, rest)) : fetch .ctl s = some (d, { s with ctl := rest }) := by
  simp [fetch, h]

theorem commandTurn_legal {p : Port} {s t : State} {i : Instr}
    (h : fetch p s = some (.legal i, t)) : commandTurn p s = exec i t := by
  simp [commandTurn, h]

/-- Where `CMD` alone has something no transaction waits. -/
theorem mem_of_sources_cmd {s : State} (h : s.sources = [.cmd]) : s.mem = [] := by
  rw [sources_eq] at h
  cases hm : s.memReady with
  | true => simp [hm] at h
  | false => simpa [State.memReady] using hm

/-- Settles O6: the turn of a port is `exec` of what is fetched there, and with one port ready the step is
its turn. -/
theorem stepRunsDecodedCommand : Obligations.StepRunsDecodedCommand := by
  intro s i rest
  have hcmd (h : takeCommand .cmd s.cmd = some (.legal i, rest)) :
      serve .cmd s = exec i (s.tookCmd rest) := commandTurn_legal (fetch_cmd h)
  have hctl (h : takeCommand .ctl s.ctl = some (.legal i, rest)) :
      serve .ctl s = exec i { s with ctl := rest } := commandTurn_legal (fetch_ctl h)
  refine ⟨fun hg hs h => ?_, fun hg hs h => (step_of_one_source hg hs).trans (hctl h), hcmd, hctl⟩
  rw [step_of_one_source hg hs, hcmd h, tookCmd_of_no_mem (mem_of_sources_cmd hs)]

end Sys2Proof.Machine
end

section
/-! Phases stay in `[0, 1)` (10_state.md R53): the sum of two values below one is at most the pattern below
2.0, so one subtraction of 1.0 is enough. -/

namespace Sys2Proof.Machine

/-- A magnitude between those of two representable values is rounded to one between them. -/
theorem within_pack_magRound {lo hi : F32} {n d : Nat} (hd : 0 < d) (hlo : isNan lo = false)
    (hhi : isNan hi = false) (slo : isNeg lo = false) (shi : isNeg hi = false)
    (h1 : magUnits lo * d ≤ n) (h2 : n ≤ magUnits hi * d) :
    within lo hi (pack false (magRound n d)) = true := by
  have hlt := magRound_lt n d
  have hnan : isNan (pack false (magRound n d)) = false := by
    simpa [isNan, magBits_pack _ hlt] using magRound_le n d
  have hkey : key (pack false (magRound n d)) = magRound n d := by
    simp [key, isNeg_pack _ hlt, magBits_pack _ hlt]
  refine within_iff.2 ⟨fle_iff_key.2 ⟨hlo, hnan, ?_⟩, fle_iff_key.2 ⟨hnan, hhi, ?_⟩⟩
  · rw [hkey]; simpa [key, slo] using le_magRound_of_le hlo hd h1
  · rw [hkey]; simpa [key, shi] using magRound_le_of_le hhi hd h2

theorem units_eq_magUnits {x : F32} (h : isNeg x = false) : units x = magUnits x := by
  simp [units, h]

theorem isNeg_of_units_pos {x : F32} (h : 0 < units x) : isNeg x = false := by
  cases hs : isNeg x with
  | false => rfl
  | true => simp only [units, hs, if_true] at h; omega

/-- A sum that is not negative and at most a representable value is rounded to one that is neither. -/
theorem addWith_within {x y z : F32} (hx : isFinite x = true) (hy : isFinite y = true)
    (hz : isNan z = false) (h0 : 0 ≤ units x + units y) (hle : units x + units y ≤ units z)
    (op : NanOp) (a b : F32) : within Lit.zero z (addWith op a b x y) = true := by
  have hzero : isNan Lit.zero = false := by decide
  rcases h0.lt_or_eq with hpos | heq
  · have hs : isNeg z = false := isNeg_of_units_pos (by omega)
    have hu := units_eq_magUnits hs
    rw [addWith_finite hx hy op a b hpos.ne', decide_eq_false hpos.not_gt]
    refine within_pack_magRound Nat.one_pos hzero hz (by decide) hs ?_ (by omega)
    rw [show magUnits Lit.zero = 0 by decide]
    omega
  · have hu (b : Bool) : isNan (pack b 0) = false ∧ units (pack b 0) = 0 := by cases b <;> decide
    have hsum : addWith op a b x y = pack (isNeg x && isNeg y) 0 := by
      simp [addWith, (finite_cases hx).2, (finite_cases hy).2, ← heq]
    obtain ⟨hnan, hun⟩ := hu (isNeg x && isNeg y)
    rw [hsum]
    refine within_iff.2 ⟨(fle_iff hzero hnan).2 ?_, (fle_iff hnan hz).2 ?_⟩
    · rw [hun]; decide
    · rw [hun]; omega

/-- Below 1.0 means at most the pattern before it. -/
theorem flt_one_iff {x : F32} : flt x Lit.d1 = true ↔ fle x 0x3F7FFFFF#32 = true := by
  have h1 : key Lit.d1 = 0x3F800000 ∧ isNan Lit.d1 = false := by decide
  have h2 : key 0x3F7FFFFF#32 = 0x3F7FFFFF ∧ isNan 0x3F7FFFFF#32 = false := by decide
  rw [flt_iff_key, fle_iff_key, h1.1, h1.2, h2.1, h2.2]
  simp only [true_and, and_congr_right_iff]
  omega

/-- A value in `[0, 1)` is finite, and a whole number of units not above that pattern. -/
theorem units_of_unit {x : F32} (h0 : fle Lit.zero x = true) (h1 : flt x Lit.d1 = true) :
    isFinite x = true ∧ 0 ≤ units x ∧ units x ≤ units 0x3F7FFFFF#32 := by
  have hle := flt_one_iff.1 h1
  have hn := isNan_right_of_fle h0
  have hlo := (fle_iff (by decide) hn).1 h0
  rw [show units Lit.zero = 0 by decide] at hlo
  exact ⟨isFinite_of_within (by decide) (by decide) (within_iff.2 ⟨h0, hle⟩), hlo,
    (fle_iff hn (by decide)).1 hle⟩

/-- Settles O39: a sum below 1.0 stays, one from 1.0 to the pattern before 2.0 is lowered by exactly 1.0
(R164, R195). -/
theorem phaseStaysInUnit : Obligations.PhaseStaysInUnit := by
  intro ph inc hp0 hp1 hi0 hi1
  obtain ⟨hpf, hp, hp'⟩ := units_of_unit hp0 hp1
  obtain ⟨hif, hi, hi'⟩ := units_of_unit hi0 hi1
  have hbelow : units 0x3F7FFFFF#32 = (2 ^ 24 - 1) * 2 ^ 125 := by decide
  have hbelow2 : units 0x3FFFFFFF#32 = (2 ^ 25 - 2) * 2 ^ 125 := by decide
  have hone : units Lit.d1 = 2 ^ 149 := by decide
  have hsum : within Lit.zero 0x3FFFFFFF#32 (fadd ph inc) = true := by
    simp only [fadd, (finite_cases hpf).1, (finite_cases hif).1, Bool.or_self, Bool.false_eq_true,
      if_false]
    exact addWith_within hpf hif (by decide) (by omega) (by omega) _ _ _
  have hsf := isFinite_of_within (by decide) (by decide) hsum
  obtain ⟨hs0, hs2⟩ := within_iff.1 hsum
  have hnan := (finite_cases hsf).1
  unfold phaseAdvance
  split
  · next hge =>
    have hge := (fle_iff (by decide) hnan).1 hge
    have hs2 := (fle_iff hnan (by decide)).1 hs2
    have hdiff : within Lit.zero 0x3F7FFFFF#32 (fsub (fadd ph inc) Lit.d1) = true := by
      simp only [fsub, hnan, show isNan Lit.d1 = false by decide, Bool.or_self,
        Bool.false_eq_true, if_false]
      refine addWith_within hsf (by decide) (by decide) ?_ ?_ _ _ _ <;> rw [units_fneg] <;> omega
    obtain ⟨hd0, hd1⟩ := within_iff.1 hdiff
    exact ⟨hd0, flt_one_iff.2 hd1⟩
  · next hlt =>
    refine ⟨hs0, ?_⟩
    cases hlt' : flt (fadd ph inc) Lit.d1 with
    | true => rfl
    | false => exact absurd (fle_of_flt_eq_false hnan (by decide) hlt') hlt

end Sys2Proof.Machine
end

section
/-! The frame of a block (20_memory.md R76, 40_host_commands.md R121): what the sample steps leave alone
where no host waits. -/

namespace Sys2Proof.Machine

/-- From `s` to `t` only the smoothed file, `SIDX`, the channels and `IOBUF` words below `m` differ. -/
structure BlockFrame (m : Nat) (s t : State) : Prop where
  rest : ∃ sm sidx chL chR iobL iobR, t = { s with
    sm := sm, sidx := sidx, chL := chL, chR := chR, iobL := iobL, iobR := iobR }
  io : ∀ c i, m ≤ i → t.ioRead c i = s.ioRead c i

theorem BlockFrame.refl (m : Nat) (s : State) : BlockFrame m s s :=
  ⟨⟨_, _, _, _, _, _, rfl⟩, fun _ _ _ => rfl⟩

theorem BlockFrame.trans {m : Nat} {s t u : State} (h : BlockFrame m s t) (k : BlockFrame m t u) :
    BlockFrame m s u := by
  refine ⟨?_, fun c i hi => (k.io c i hi).trans (h.io c i hi)⟩
  obtain ⟨_, _, _, _, _, _, ht⟩ := h.rest
  obtain ⟨_, _, _, _, _, _, hu⟩ := k.rest
  rw [hu, ht]
  exact ⟨_, _, _, _, _, _, rfl⟩

theorem uSmooth_blockFrame (m i : Nat) (s : State) :
    BlockFrame m s (uSmooth { s with sidx := i }) := by
  refine ⟨⟨_, _, _, _, _, _, rfl⟩, fun c _ _ => ?_⟩
  cases c <;> rfl

theorem ioRead_setChan (c d : Chan) (x : Channel) (i : Nat) (s : State) :
    (s.setChan c x).ioRead d i = s.ioRead d i := by simp [State.ioRead]

theorem channelTurn_blockFrame {s : State} (h : s.quiet = true) (N : NumFns) (c : Chan) {i m : Nat}
    (hi : i < m) : BlockFrame m s (channelTurn N c i s) := by
  rw [channelTurn_quiet h]
  refine ⟨by cases c <;> exact ⟨_, _, _, _, _, _, rfl⟩, fun d j hj => ?_⟩
  rw [ioRead_ioWrite_other (.inr (by omega)), ioRead_setChan]

theorem sampleStep_blockFrame {s : State} (h : s.quiet = true) (N : NumFns) {i m : Nat}
    (hi : i < m) : BlockFrame m s (sampleStep N i s) := by
  have hq : (uSmooth { s with sidx := i }).quiet = true := (quiet_congr (s := s) rfl rfl).trans h
  exact ((uSmooth_blockFrame m i s).trans (channelTurn_blockFrame hq N .left hi)).trans
    (channelTurn_blockFrame (channelTurn_quiet_quiet hq N .left i) N .right hi)

theorem sampleSteps_blockFrame {s : State} (h : s.quiet = true) (N : NumFns) {n i m : Nat}
    (hi : i + n ≤ m) : BlockFrame m s (sampleSteps N n i s) := by
  induction n generalizing i s with
  | zero => exact BlockFrame.refl m s
  | succ n ih =>
    exact (sampleStep_blockFrame h N (by omega)).trans
      (ih (sampleStep_quiet_quiet h N i) (by omega))

@[simp] theorem channelTurn_sidx (N : NumFns) (c : Chan) (i : Nat) (s : State) :
    (channelTurn N c i s).sidx = s.sidx := by simp [channelTurn]

@[simp] theorem sampleStep_sidx (N : NumFns) (i : Nat) (s : State) : (sampleStep N i s).sidx = i := by
  simp [sampleStep]

/-- `SIDX` keeps the last index (log 20). -/
theorem sampleSteps_sidx (N : NumFns) (n i : Nat) (s : State) :
    (sampleSteps N (n + 1) i s).sidx = i + n := by
  induction n generalizing i s with
  | zero => exact sampleStep_sidx N i s
  | succ n ih => exact (ih (i + 1) (sampleStep N i s)).trans (by omega)

/-- The state from which the sample steps of a legal block start, where no host waits. -/
theorem uLatch_beginCommand_quiet {s : State} (h : s.quiet = true) :
    uLatch (beginCommand s) = { s with busy := true, tgt := tab18 fun k => clampP k s.prm[k] } :=
  latchAll_quiet (s := beginCommand s) ((quiet_congr (s := s) rfl rfl).trans h)

/-- A legal block where no host waits: the snapshot, the sample steps, the response (R120). -/
theorem execPblock_legal {n : Nat} {s : State} (h : s.quiet = true) (hp : s.prepared = true)
    (hn : n ≤ s.conf.maxblk.toNat) :
    exec (.pblock n) s = .next (endCommand
      (sampleSteps Config.num n 0 (uLatch (beginCommand s))).status
      (sampleSteps Config.num n 0 (uLatch (beginCommand s)))) := by
  have hq : (beginCommand s).quiet = true := (quiet_congr (s := s) rfl rfl).trans h
  have hf : pblockFlags (beginCommand s) n = 0#32 := pblockFlags_eq_zero_iff.2 ⟨hp, hn⟩
  have hrun := runCommand_quiet (response := statusWord) (pblockBody_quiet_quiet hq Config.num n)
  rw [pblockBody_legal hf] at hrun
  exact congrArg _ hrun

/-- Settles O22: the snapshot writes `TGT`, the sample steps have their frame, the response clears `BUSY`. -/
theorem pblockFrame : Obligations.PblockFrame := by
  intro n s h hp hn
  refine ⟨_, execPblock_legal h hp hn, ?_⟩
  have hq := uLatch_quiet_quiet (s := beginCommand s) ((quiet_congr (s := s) rfl rfl).trans h)
  have hframe := sampleSteps_blockFrame hq Config.num (i := 0) (Nat.zero_add n).le
  rw [uLatch_beginCommand_quiet h] at hframe ⊢
  obtain ⟨⟨sm, sidx, chL, chR, iobL, iobR, hu⟩, hio⟩ := hframe
  have hempty (h0 : n = 0) : sampleSteps Config.num n 0
      { s with busy := true, tgt := tab18 fun k => clampP k s.prm[k] } =
      { s with busy := true, tgt := tab18 fun k => clampP k s.prm[k] } := by rw [h0]; rfl
  have hlast (h0 : 0 < n) : (sampleSteps Config.num n 0
      { s with busy := true, tgt := tab18 fun k => clampP k s.prm[k] }).sidx = n - 1 := by
    obtain ⟨k, rfl⟩ : ∃ k, n = k + 1 := ⟨n - 1, by omega⟩
    rw [sampleSteps_sidx]; omega
  simp only [hu] at hio hempty hlast ⊢
  refine ⟨rfl, rfl, rfl, rfl, rfl, rfl, rfl, rfl, rfl, rfl, rfl, rfl, fun k => tab18_get _ k,
    fun c i hi => ?_, fun h0 => ?_, hlast⟩
  · have hc := hio c i hi
    cases c <;> exact hc
  · cases hempty h0
    exact ⟨rfl, rfl, rfl, rfl, rfl, rfl⟩

end Sys2Proof.Machine
end

section
/-! Every step keeps the invariant (10_state.md R53): first what each part of a command does to its clauses,
then the commands. -/

namespace Sys2Proof.Machine

/-! ### The clauses of the invariant -/

/-- The clauses that hold prepared or not. -/
structure BaseOk (s : State) : Prop where
  cfg : cfgOk s.cfg = true
  reserved : s.status &&& maskReserved = 0#32
  iob : IobWf s
  iobBound : ∀ c, ∀ e ∈ s.iob c, e.1 < s.cfg.iobufCap
  rams : ∀ c, RamsWf (s.chan c)

/-- The configuration registers are those of a legal `PREPARE`. -/
structure Configured (s : State) : Prop where
  conf : s.conf = Conf.computed Config.num s.cfg s.conf.fs s.conf.maxblk
  legal : prepareFlags s.cfg s.conf.fs s.conf.maxblk = 0#32

/-- The clauses of a prepared core. -/
structure PreparedOk (s : State) : Prop extends Configured s where
  cursors : ∀ c, CursorsInUse s.conf (s.chan c)
  tgt : ∀ k : ParamIx, within plo[k] phi[k] s.tgt[k] = true

/-- The invariant while a command may be in flight: all of it but `BUSY`. -/
structure Sound (s : State) : Prop extends BaseOk s where
  prepared : s.prepared = true → PreparedOk s

theorem inv_iff_sound {s : State} : s.Inv ↔ Sound s ∧ s.busy = false := by
  constructor
  · intro h
    exact ⟨⟨⟨h.cfg, h.reserved, h.iob, h.iobBound, fun c => ⟨(h.rams c).line, (h.rams c).delay⟩⟩,
      fun hp => ⟨⟨h.conf hp, h.legal hp⟩, h.cursors hp, h.tgt hp⟩⟩, h.idle⟩
  · rintro ⟨h, hbusy⟩
    exact ⟨h.cfg, hbusy, h.reserved, h.iob, h.iobBound, fun c => ⟨(h.rams c).1, (h.rams c).2⟩,
      fun hp => (h.prepared hp).conf, fun hp => (h.prepared hp).legal,
      fun hp => (h.prepared hp).cursors, fun hp => (h.prepared hp).tgt⟩

/-! ### Which elements the clauses look at -/

theorem chan_congr {s t : State} (hL : t.chL = s.chL) (hR : t.chR = s.chR) (c : Chan) :
    t.chan c = s.chan c := by
  cases c with
  | left => exact hL
  | right => exact hR

theorem iob_congr {s t : State} (hL : t.iobL = s.iobL) (hR : t.iobR = s.iobR) (c : Chan) :
    t.iob c = s.iob c := by
  cases c with
  | left => exact hL
  | right => exact hR

theorem prepared_congr {s t : State} (h : t.status = s.status) : t.prepared = s.prepared := by
  rw [State.prepared, State.prepared, h]

theorem BaseOk.congr {s t : State} (h : BaseOk s) (hg : t.cfg = s.cfg) (hs : t.status = s.status)
    (hi : ∀ c, t.iob c = s.iob c) (hc : ∀ c, t.chan c = s.chan c) : BaseOk t where
  cfg := by rw [hg]; exact h.cfg
  reserved := by rw [hs]; exact h.reserved
  iob := fun c => by rw [hi]; exact h.iob c
  iobBound := fun c => by rw [hi, hg]; exact h.iobBound c
  rams := fun c => by rw [hc]; exact h.rams c

theorem Configured.congr {s t : State} (h : Configured s) (hg : t.cfg = s.cfg)
    (hk : t.conf = s.conf) : Configured t where
  conf := by rw [hg, hk]; exact h.conf
  legal := by rw [hg, hk]; exact h.legal

theorem PreparedOk.congr {s t : State} (h : PreparedOk s) (hg : t.cfg = s.cfg) (hk : t.conf = s.conf)
    (ht : t.tgt = s.tgt) (hc : ∀ c, t.chan c = s.chan c) : PreparedOk t where
  toConfigured := h.toConfigured.congr hg hk
  cursors := fun c => by rw [hk, hc]; exact h.cursors c
  tgt := fun k => by rw [ht]; exact h.tgt k

theorem Sound.congr {s t : State} (h : Sound s) (hg : t.cfg = s.cfg) (hs : t.status = s.status)
    (hk : t.conf = s.conf) (ht : t.tgt = s.tgt) (hi : ∀ c, t.iob c = s.iob c)
    (hc : ∀ c, t.chan c = s.chan c) : Sound t where
  toBaseOk := h.toBaseOk.congr hg hs hi hc
  prepared := fun hp => (h.prepared (prepared_congr hs ▸ hp)).congr hg hk ht hc

theorem PreparedOk.frame {s t : State} (h : PreparedOk s) (hf : HostFrame s t) : PreparedOk t :=
  h.congr hf.cfg hf.conf hf.tgt (chan_congr hf.chL hf.chR)

/-! ### Raising a flag -/

/-- A mask of fault flags: neither `PREPARED` nor a reserved bit (R37). -/
structure FaultMask (f : U32) : Prop where
  reserved : f &&& maskReserved = 0#32
  prepared : f &&& maskPrepared = 0#32

theorem prepareFlags_faultMask (g : Cfg) (fs : F32) (mb : U32) : FaultMask (prepareFlags g fs mb) := by
  unfold prepareFlags
  split <;> split <;> exact ⟨by decide, by decide⟩

theorem pblockFlags_faultMask (s : State) (n : Nat) : FaultMask (pblockFlags s n) := by
  unfold pblockFlags
  split
  · exact ⟨by decide, by decide⟩
  · split <;> exact ⟨by decide, by decide⟩

theorem raiseFault_prepared {f : U32} (hf : FaultMask f) (s : State) :
    (raiseFault f s).prepared = s.prepared := by
  rw [State.prepared, State.prepared, raiseFault_status, BitVec.and_or_distrib_right, hf.prepared,
    BitVec.or_zero]

theorem BaseOk.raise {s : State} (h : BaseOk s) {f : U32} (hf : f &&& maskReserved = 0#32) :
    BaseOk (raiseFault f s) where
  cfg := h.cfg
  reserved := by
    rw [raiseFault_status, BitVec.and_or_distrib_right, h.reserved, hf]; rfl
  iob := h.iob
  iobBound := h.iobBound
  rams := h.rams

theorem Sound.raise {s : State} (h : Sound s) {f : U32} (hf : FaultMask f) : Sound (raiseFault f s) where
  toBaseOk := h.toBaseOk.raise hf.reserved
  prepared := fun hp =>
    (h.prepared (raiseFault_prepared hf s ▸ hp)).congr rfl rfl rfl fun _ => rfl

/-! ### What an action of a host consists of -/

theorem memTarget_lt {g : Cfg} {a : Word} {c : Chan} {i : Nat} (h : memTarget g a = some (c, i)) :
    i < g.iobufCap := by
  unfold memTarget at h
  split at h
  · cases h; assumption
  · split at h
    · cases h; omega
    · cases h

/-- A property that the host sides of the ports and `PRM` do not enter, and that a store inside `IOBUF` and
a fault keep, is kept by every action of a host. -/
theorem hostKeeps_of_parts {P : State → Prop}
    (ports : ∀ {s} prm ctl mem memOut sched, P s →
      P { s with prm := prm, ctl := ctl, mem := mem, memOut := memOut, sched := sched })
    (write : ∀ {s} c {i} w, i < s.cfg.iobufCap → P s → P (s.ioWrite c i w))
    (raise : ∀ {s f}, FaultMask f → P s → P (raiseFault f s)) : HostKeeps P where
  mem := fun {s} h => by
    have hports (mem memOut sched) := ports (s := s) s.prm s.ctl mem memOut sched h
    unfold serveMem
    split
    · exact h
    · next r rs _ =>
      cases r.req with
      | load a =>
        obtain ⟨c, i, -, e⟩ | ⟨-, e⟩ := memAccess_load a { s with mem := rs } <;> rw [e]
        · exact hports rs _ s.sched
        · exact raise (f := maskBadAddr) ⟨by decide, by decide⟩
            (hports rs (s.memOut ++ [Config.freeWord s.sched]) (s.sched + 1))
      | store a w =>
        obtain ⟨c, i, ha, e⟩ | ⟨-, e⟩ := memAccess_store a w { s with mem := rs } <;> rw [e]
        · exact write c w (memTarget_lt ha) (hports rs s.memOut s.sched)
        · exact raise (f := maskBadAddr) ⟨by decide, by decide⟩ (hports rs s.memOut s.sched)
  ctl := fun {s} h => by
    have hports (prm ctl) := ports (s := s) prm ctl s.mem s.memOut s.sched h
    unfold serveCtl
    split
    · exact h
    · next d rest _ =>
      have hparam (k : Nat) (v : F32) : P (writeParam k v { s with ctl := rest }) := by
        unfold writeParam
        split
        · exact hports _ rest
        · exact raise (f := maskBadIdx) ⟨by decide, by decide⟩ (hports s.prm rest)
      cases d with
      | legal i =>
        cases i with
        | wrparam k v => exact hparam k v
        | _ => exact hports s.prm rest
      | illegal why => exact raise (f := maskBadOp) ⟨by decide, by decide⟩ (hports s.prm rest)
  drawn := fun {s} h => ports s.prm s.ctl s.mem s.memOut _ h

theorem BaseOk.ioWrite {s : State} (h : BaseOk s) (c : Chan) {i : Nat} (w : Word)
    (hi : i < s.cfg.iobufCap) : BaseOk (s.ioWrite c i w) where
  cfg := by rw [ioWrite_cfg]; exact h.cfg
  reserved := by rw [ioWrite_status]; exact h.reserved
  iob := ioWrite_iobWf h.iob c i w
  iobBound := fun d e he => by
    rw [ioWrite_cfg]
    by_cases hd : d = c
    · subst hd
      rw [ioWrite_iob_self] at he
      rcases mem_insertCell he with rfl | he
      · exact hi
      · exact h.iobBound d e he
    · rw [State.ioWrite, setIob_iob_other hd] at he
      exact h.iobBound d e he
  rams := fun d => by rw [State.ioWrite, setIob_chan]; exact h.rams d

theorem hostKeeps_baseOk : HostKeeps BaseOk :=
  hostKeeps_of_parts (fun _ _ _ _ _ h => h.congr rfl rfl (fun _ => rfl) fun _ => rfl)
    (fun c _ w hi h => h.ioWrite c w hi) fun hf h => h.raise hf.reserved

theorem Sound.ioWrite {s : State} (h : Sound s) (c : Chan) {i : Nat} (w : Word)
    (hi : i < s.cfg.iobufCap) : Sound (s.ioWrite c i w) where
  toBaseOk := h.toBaseOk.ioWrite c w hi
  prepared := fun hp =>
    (h.prepared (prepared_congr (ioWrite_status c i w s) ▸ hp)).frame (ioWrite_frame c i w s)

theorem hostKeeps_sound : HostKeeps Sound :=
  hostKeeps_of_parts (fun _ _ _ _ _ h => h.congr rfl rfl rfl rfl (fun _ => rfl) fun _ => rfl)
    (fun c _ w hi h => h.ioWrite c w hi) fun hf h => h.raise hf

theorem HostKeeps.and {P Q : State → Prop} (hP : HostKeeps P) (hQ : HostKeeps Q) :
    HostKeeps fun s => P s ∧ Q s where
  mem := fun h => ⟨hP.mem h.1, hQ.mem h.2⟩
  ctl := fun h => ⟨hP.ctl h.1, hQ.ctl h.2⟩
  drawn := fun h => ⟨hP.drawn h.1, hQ.drawn h.2⟩

/-! ### The geometry of a legal `PREPARE` (R115, R116) -/

theorem prepareFlags_eq_zero_iff {g : Cfg} {fs : F32} {mb : U32} :
    prepareFlags g fs mb = 0#32 ↔ fsLegal g fs = true ∧ maxblkLegal g mb = true := by
  unfold prepareFlags
  cases fsLegal g fs <;> cases maxblkLegal g mb <;> decide

theorem cfgOk_rates {g : Cfg} (h : cfgOk g = true) :
    flt Lit.d600 g.fsMin = true ∧ flt g.fsMax Lit.twoPow23 = true := by
  simp only [cfgOk, fgt, Bool.and_eq_true] at h
  tauto

/-- A legal rate lies between 600 and the pattern before 2^23, and a legal block fits in `IOBUF` (R8,
R112). -/
theorem legal_bounds {g : Cfg} {fs : F32} {mb : U32} (hg : cfgOk g = true)
    (h : prepareFlags g fs mb = 0#32) :
    within Lit.d600 0x4AFFFFFF#32 fs = true ∧ mb.toNat ≤ g.iobufCap := by
  obtain ⟨hmin, hmax⟩ := cfgOk_rates hg
  obtain ⟨hfs, hmb⟩ := prepareFlags_eq_zero_iff.1 h
  obtain ⟨hlo, hhi⟩ : fle g.fsMin fs = true ∧ fle fs g.fsMax = true := by
    simpa [fsLegal, fge] using hfs
  have hcap : 1 ≤ mb.toNat ∧ mb.toNat ≤ g.iobufCap := by simpa [maxblkLegal] using hmb
  refine ⟨within_iff.2 ⟨fle_trans (fle_of_flt hmin) hlo, ?_⟩, hcap.2⟩
  obtain ⟨hn, -, hk⟩ := fle_iff_key.1 hhi
  obtain ⟨-, -, hk'⟩ := flt_iff_key.1 hmax
  rw [show key Lit.twoPow23 = 0x4B000000 by decide] at hk'
  refine fle_iff_key.2 ⟨hn, by decide, ?_⟩
  rw [show key 0x4AFFFFFF#32 = 0x4AFFFFFF by decide]
  omega

/-- Between positive bounds the order of values is that of magnitudes. -/
theorem magUnits_of_within {lo hi x : F32} (h0 : 0 < units lo) (h : within lo hi x = true) :
    isNeg x = false ∧ magUnits lo ≤ magUnits x ∧ magUnits x ≤ magUnits hi := by
  obtain ⟨hlo, hhi⟩ := within_iff.1 h
  have hn := isNan_right_of_fle hlo
  have h1 := (fle_iff (isNan_left_of_fle hlo) hn).1 hlo
  have h2 := (fle_iff hn (isNan_right_of_fle hhi)).1 hhi
  have hx := isNeg_of_units_pos (h0.trans_le h1)
  have elo := units_eq_magUnits (isNeg_of_units_pos h0)
  have ehi := units_eq_magUnits (isNeg_of_units_pos (h0.trans_le (h1.trans h2)))
  have ex := units_eq_magUnits hx
  exact ⟨hx, by omega, by omega⟩

/-- A product of two finite values is the exact one rounded once (R11). -/
theorem fmul_finite {x y : F32} (hx : isFinite x = true) (hy : isFinite y = true) :
    fmul x y = pack (isNeg x != isNeg y) (magRound (magUnits x * magUnits y) (2 ^ 149)) := by
  simp [fmul, finite_cases hx, finite_cases hy]

/-- A finite value that is not negative is rounded to a natural (R16). -/
theorem fround_of_not_neg {x : F32} (hf : isFinite x = true) (hs : isNeg x = false) :
    fround x = toF32 (wholeNear x) := by
  obtain ⟨hn, hi⟩ := finite_cases hf
  simp [fround, integral, toF32, hn, hi, hs]

/-- Two seconds of samples at a rate in range are a positive number of samples: twice the rate is exact
enough to stay from 600 to below `2^24` (R116). -/
theorem delayLength_pos {fs : F32} (h : within Lit.d600 0x4AFFFFFF#32 fs = true) :
    0 < delayLength fs := by
  have hlo : magUnits Lit.d600 = 600 * 2 ^ 149 := by decide
  have hhi : magUnits 0x4AFFFFFF#32 = (2 ^ 24 - 1) * 2 ^ 148 := by decide
  have htop : magUnits 0x4B7FFFFF#32 = (2 ^ 24 - 1) * 2 ^ 149 := by decide
  have htwo : magUnits Lit.d2 = 2 ^ 150 := by decide
  have hpos : 0 < units Lit.d600 := by decide
  obtain ⟨hs, h1, h2⟩ := magUnits_of_within hpos h
  have hprod : within Lit.d600 0x4B7FFFFF#32 (fmul Lit.d2 fs) = true := by
    rw [fmul_finite (by decide) (isFinite_of_within (by decide) (by decide) h), hs,
      show isNeg Lit.d2 = false by decide]
    exact within_pack_magRound (by decide) (by decide) (by decide) (by decide) (by decide)
      (by rw [hlo, htwo]; omega) (by rw [htop, htwo]; omega)
  obtain ⟨hs', h1', h2'⟩ := magUnits_of_within hpos hprod
  have hnear : 0 < wholeNear (fmul Lit.d2 fs) ∧ wholeNear (fmul Lit.d2 fs) < 2 ^ 24 := by
    unfold wholeNear
    omega
  rw [delayLength, fround_of_not_neg (isFinite_of_within (by decide) (by decide) hprod) hs',
    toNat_toF32 hnear.2]
  exact hnear.1

/-- No buffer of a configured core is empty. -/
theorem Configured.buffers_pos {s : State} (h : Configured s) (hg : cfgOk s.cfg = true) :
    (∀ i : Fin 8, 0 < s.conf.nbuf[i]) ∧ 0 < s.conf.nv := by
  have hnv := delayLength_pos (legal_bounds hg h.legal).1
  rw [h.conf]
  refine ⟨fun i => ?_, hnv⟩
  simp only [Conf.computed, tab8_get, guardLength]
  omega

/-! ### The snapshot and the clearing sequence -/

/-- A parameter that is not waiting after a read is the one read or was not waiting before. -/
theorem eq_or_not_mem_of_not_mem_eraseIdx {ks : List ParamIx} {j : Nat} {k l : ParamIx}
    (hk : ks[j]? = some k) (hl : l ∉ ks.eraseIdx j) : l = k ∨ l ∉ ks := by
  by_contra hc
  obtain ⟨hlk, hm⟩ := not_or.1 hc
  obtain ⟨i, hi⟩ := List.getElem?_of_mem (not_not.1 hm)
  refine hl (List.mem_eraseIdx_iff_getElem?.2 ⟨i, ?_, hi⟩)
  rintro rfl
  exact hlk (Option.some.inj (hi.symm.trans hk))

theorem latchOne_tgt_get (k l : ParamIx) (s : State) :
    (latchOne k s).tgt[l] = if l = k then clampP k s.prm[k] else s.tgt[l] := by
  by_cases h : l = k
  · subst h; simp
  · have hkl : (k : Nat) ≠ l := fun e => h (Fin.ext e.symm)
    simp [hkl, h]

theorem tgt_latchOne {ks : List ParamIx} {j : Nat} {k : ParamIx} {s : State} (hk : ks[j]? = some k)
    (h : ∀ l : ParamIx, l ∉ ks → within plo[l] phi[l] s.tgt[l] = true) (l : ParamIx)
    (hl : l ∉ ks.eraseIdx j) : within plo[l] phi[l] (latchOne k s).tgt[l] = true := by
  rw [latchOne_tgt_get]
  split
  · next e => rw [e]; exact clampP_within k s.prm[k]
  · next e => exact h l ((eq_or_not_mem_of_not_mem_eraseIdx hk hl).resolve_left e)

/-- After the snapshot every target is in range, whatever the hosts stored meanwhile (R79, R131). -/
theorem latchAll_tgt_within (s : State) (k : ParamIx) :
    within plo[k] phi[k] (latchAll s).tgt[k] = true := by
  refine latchAll_keeps (P := fun ks s => ∀ l : ParamIx, l ∉ ks → within plo[l] phi[l] s.tgt[l] = true)
    (fun ks => hostKeeps_of_frame fun hf h l hl => ?_) tgt_latchOne (fun l hl => ?_) k
    List.not_mem_nil
  · rw [hf.tgt]
    exact h l hl
  · exact absurd (by revert l; decide) hl

theorem BaseOk.latchAll {s : State} (h : BaseOk s) : BaseOk (latchAll s) :=
  latchAll_keeps (P := fun _ => BaseOk) (fun _ => hostKeeps_baseOk)
    (fun _ h => h.congr rfl rfl (fun _ => rfl) fun _ => rfl) h

theorem PreparedOk.latchAll {s : State} (h : PreparedOk s) : PreparedOk (latchAll s) where
  toConfigured := h.toConfigured.congr (latchAll_frame s).cfg (latchAll_frame s).conf
  cursors := fun c => by
    rw [(latchAll_frame s).conf, chan_congr (latchAll_frame s).chL (latchAll_frame s).chR]
    exact h.cursors c
  tgt := latchAll_tgt_within s

theorem clearChannels_chan (s : State) (c : Chan) :
    (clearChannels s).chan c = (s.chan c).cleared s.conf (s.cfg.seed c) := by cases c <;> rfl

theorem cleared_cursors {k : Conf} (hn : ∀ i : Fin 8, 0 < k.nbuf[i]) (hv : 0 < k.nv) (seed : U32)
    (c : Channel) : CursorsInUse k (c.cleared k seed) where
  line := fun i => by rw [cleared_line]; exact hn i
  delay := hv

theorem BaseOk.clearAll {s : State} (h : BaseOk s) : BaseOk (clearAll s) where
  cfg := h.latchAll.cfg
  reserved := h.latchAll.reserved
  iob := h.latchAll.iob
  iobBound := h.latchAll.iobBound
  rams := fun c => by
    rw [Machine.clearAll, clearChannels_chan]
    exact cleared_ramsWf (h.latchAll.rams c) _ _

/-- The clearing sequence makes a configured core ready: the cursors are 0 and no buffer is empty
(R258). -/
theorem Configured.clearAll {s : State} (h : Configured s) (hb : BaseOk s) :
    PreparedOk (clearAll s) := by
  have hl : Configured (Machine.latchAll s) := h.congr (latchAll_frame s).cfg (latchAll_frame s).conf
  obtain ⟨hn, hv⟩ := hl.buffers_pos hb.latchAll.cfg
  exact
    { conf := hl.conf
      legal := hl.legal
      cursors := fun c => by
        rw [Machine.clearAll, clearChannels_chan]
        exact cleared_cursors hn hv _ _
      tgt := latchAll_tgt_within s }

/-! ### A channel's turn -/

theorem uCond_cursors {k : Conf} {c : Channel} (h : CursorsInUse k c) (sm : Vector F32 18) (x : F32) :
    CursorsInUse k (uCond k sm c x).1 := ⟨h.line, h.delay⟩

theorem uEnv_cursors {k : Conf} {c : Channel} (h : CursorsInUse k c) (sm : Vector F32 18) (x : F32) :
    CursorsInUse k (uEnv k sm x c) := ⟨h.line, h.delay⟩

theorem uVdly_cursors {k : Conf} {c : Channel} (h : CursorsInUse k c) (N : NumFns) (g : Cfg)
    (sm : Vector F32 18) (x dt dr : F32) : CursorsInUse k (uVdly N g k sm c x dt dr).1 :=
  ⟨h.line, Nat.mod_lt _ (Nat.zero_lt_of_lt h.delay)⟩

theorem uFdn_cursors {k : Conf} {c : Channel} (h : CursorsInUse k c) (N : NumFns) (g : Cfg)
    (sm : Vector F32 18) (x : F32) : CursorsInUse k (uFdn N g k sm c x).1 where
  line := fun i => by
    simp only [uFdn, tab8_get, lineNext]
    exact Nat.mod_lt _ (Nat.zero_lt_of_lt (h.line i))
  delay := h.delay

theorem uDcb_cursors {k : Conf} {c : Channel} (h : CursorsInUse k c) (x : F32) :
    CursorsInUse k (uDcb c x).1 := ⟨h.line, h.delay⟩

/-- A channel's turn moves every cursor inside its buffer (R175, R202). -/
theorem uRoute_cursors {k : Conf} {c : Channel} (h : CursorsInUse k c) (N : NumFns) (g : Cfg)
    (sm : Vector F32 18) (ch : Chan) (dry : F32) : CursorsInUse k (uRoute N g k sm ch c dry).1 := by
  simp only [uRoute]
  exact uDcb_cursors (uFdn_cursors (uVdly_cursors (uEnv_cursors (uCond_cursors h sm dry) sm _)
    N g sm _ _ _) N g sm _) _

theorem BaseOk.setChan {s : State} (h : BaseOk s) (c : Chan) {x : Channel} (hx : RamsWf x) :
    BaseOk (s.setChan c x) where
  cfg := by rw [setChan_cfg]; exact h.cfg
  reserved := by rw [setChan_status]; exact h.reserved
  iob := fun d => by rw [setChan_iob]; exact h.iob d
  iobBound := fun d => by rw [setChan_iob, setChan_cfg]; exact h.iobBound d
  rams := fun d => by
    by_cases hd : d = c
    · rw [hd, setChan_chan_self]; exact hx
    · rw [setChan_chan_other hd]; exact h.rams d

theorem PreparedOk.setChan {s : State} (h : PreparedOk s) (c : Chan) {x : Channel}
    (hx : CursorsInUse s.conf x) : PreparedOk (s.setChan c x) where
  toConfigured := h.toConfigured.congr (setChan_cfg c x s) (setChan_conf c x s)
  cursors := fun d => by
    rw [setChan_conf]
    by_cases hd : d = c
    · rw [hd, setChan_chan_self]; exact hx
    · rw [setChan_chan_other hd]; exact h.cursors d
  tgt := fun k => by rw [setChan_tgt]; exact h.tgt k

/-! ### The sample steps -/

/-- What holds throughout the sample steps of a block of `n` pairs. -/
structure Processing (n : Nat) (s : State) : Prop extends BaseOk s, PreparedOk s where
  fits : n ≤ s.cfg.iobufCap

theorem hostKeeps_processing (n : Nat) : HostKeeps (Processing n) where
  mem := fun {s} h => ⟨hostKeeps_baseOk.mem h.toBaseOk, h.toPreparedOk.frame (serveMem_frame s),
    by rw [(serveMem_frame s).cfg]; exact h.fits⟩
  ctl := fun {s} h => ⟨hostKeeps_baseOk.ctl h.toBaseOk, h.toPreparedOk.frame (serveCtl_frame s),
    by rw [(serveCtl_frame s).cfg]; exact h.fits⟩
  drawn := fun {s} h => ⟨hostKeeps_baseOk.drawn h.toBaseOk, h.toPreparedOk.frame (drawn_frame s),
    h.fits⟩

theorem sampleKeeps_processing (N : NumFns) (n : Nat) : SampleKeeps N n (Processing n) where
  toHostKeeps := hostKeeps_processing n
  smooth := fun i h => ⟨h.toBaseOk.congr rfl rfl (fun _ => rfl) fun _ => rfl,
    h.toPreparedOk.congr rfl rfl rfl fun _ => rfl, h.fits⟩
  turn := fun c dry h => ⟨h.toBaseOk.setChan c (uRoute_ramsWf (h.rams c) _ _ _ _ _ _),
    h.toPreparedOk.setChan c (uRoute_cursors (h.cursors c) _ _ _ _ _),
    by rw [setChan_cfg]; exact h.fits⟩
  write := fun {s} c i w hi h => ⟨h.toBaseOk.ioWrite c w (hi.trans_le h.fits),
    h.toPreparedOk.frame (ioWrite_frame c i w s), by rw [ioWrite_cfg]; exact h.fits⟩

/-- The state after the snapshot of a legal block. -/
theorem Sound.processing {s : State} (h : Sound s) {n : Nat} (hf : pblockFlags s n = 0#32) :
    Processing n (latchAll s) := by
  obtain ⟨hp, hn⟩ := pblockFlags_eq_zero_iff.1 hf
  have hr := h.prepared hp
  refine ⟨h.latchAll, hr.latchAll, ?_⟩
  rw [(latchAll_frame s).cfg]
  exact hn.trans (legal_bounds h.cfg hr.legal).2

/-! ### The commands -/

theorem Sound.of_prepared {s : State} (h : BaseOk s) (hp : PreparedOk s) : Sound s := ⟨h, fun _ => hp⟩

theorem Sound.prepareBody {s : State} (h : Sound s) (fs : F32) (mb : U32) :
    Sound (prepareBody Config.num fs mb s) := by
  by_cases hf : prepareFlags s.cfg fs mb = 0#32
  · have hb : BaseOk (configure Config.num fs mb s) :=
      h.toBaseOk.congr rfl rfl (fun _ => rfl) fun _ => rfl
    have hk : Configured (configure Config.num fs mb s) := ⟨rfl, hf⟩
    rw [prepareBody_legal hf]
    exact .of_prepared (hb.clearAll.raise (f := maskPrepared) (by decide))
      ((hk.clearAll hb).congr rfl rfl rfl fun _ => rfl)
  · rw [prepareBody_illegal hf]
    exact h.raise (prepareFlags_faultMask _ _ _)

theorem Sound.resetBody {s : State} (h : Sound s) : Sound (resetBody s) := by
  cases hp : s.prepared with
  | false =>
    rw [resetBody_unprepared hp]
    exact h.raise ⟨by decide, by decide⟩
  | true =>
    rw [resetBody_prepared hp]
    exact .of_prepared h.toBaseOk.clearAll ((h.prepared hp).toConfigured.clearAll h.toBaseOk)

theorem Sound.pblockBody {s : State} (h : Sound s) (n : Nat) :
    Sound (pblockBody Config.num n s) := by
  by_cases hf : pblockFlags s n = 0#32
  · rw [pblockBody_legal hf]
    have hproc := (sampleKeeps_processing Config.num n).steps (h.processing hf)
    exact .of_prepared hproc.toBaseOk hproc.toPreparedOk
  · rw [pblockBody_illegal hf]
    exact h.raise (pblockFlags_faultMask _ _)

theorem Sound.writeParam {s : State} (h : Sound s) (k : Nat) (v : F32) : Sound (writeParam k v s) := by
  unfold Machine.writeParam
  split
  · exact h.congr rfl rfl rfl rfl (fun _ => rfl) fun _ => rfl
  · exact h.raise ⟨by decide, by decide⟩

theorem Sound.body {s : State} (h : Sound s) (i : Instr) : Sound (commandBody i s) := by
  cases i with
  | prepare fs mb => exact h.prepareBody fs mb
  | reset => exact h.resetBody
  | pblock n => exact h.pblockBody n
  | psample => exact h.pblockBody 1
  | rdenv ch => exact h
  | wrparam k v => exact h.writeParam k v

/-- A command around a body that keeps the clauses ends in a state with the invariant. -/
theorem Sound.run {s : State} (h : Sound s) {body : State → State}
    (hbody : ∀ {u}, Sound u → Sound (body u)) (response : State → Word) :
    (runCommand body response s).Inv := by
  have hb : Sound (body (beginCommand s)) :=
    hbody (h.congr rfl rfl rfl rfl (fun _ => rfl) fun _ => rfl)
  exact inv_iff_sound.2 ⟨(hostKeeps_sound.point hb).congr rfl rfl rfl rfl (fun _ => rfl) fun _ => rfl,
    runCommand_busy body response s⟩

theorem eq_wrparam_of_port {i : Instr} (h : i.port = .ctl) : ∃ k v, i = .wrparam k v := by
  cases i with
  | wrparam k v => exact ⟨k, v, rfl⟩
  | _ => cases h

theorem inv_exec {s t : State} (h : s.Inv) {i : Instr} (ht : exec i s = .next t) : t.Inv := by
  obtain ⟨hs, hbusy⟩ := inv_iff_sound.1 h
  rw [exec_eq] at ht
  cases hport : i.port with
  | cmd =>
    rw [hport] at ht
    cases ht
    exact hs.run (fun hu => hu.body i) _
  | ctl =>
    obtain ⟨k, v, rfl⟩ := eq_wrparam_of_port hport
    cases ht
    exact inv_iff_sound.2 ⟨hs.writeParam k v, (writeParam_busy k v s).trans hbusy⟩

theorem inv_illegalOn {s : State} (h : s.Inv) (p : Port) : (illegalOn p s).Inv := by
  obtain ⟨hs, hbusy⟩ := inv_iff_sound.1 h
  have hmask : FaultMask maskBadOp := ⟨by decide, by decide⟩
  cases p with
  | cmd => exact hs.run (fun hu => hu.raise hmask) _
  | ctl => exact inv_iff_sound.2 ⟨hs.raise hmask, hbusy⟩

theorem hostKeeps_inv : HostKeeps State.Inv := by
  have hbusy : HostKeeps fun s => s.busy = false :=
    hostKeeps_of_frame fun hf h => hf.busy.trans h
  have hinv : State.Inv = fun s => Sound s ∧ s.busy = false := funext fun _ => propext inv_iff_sound
  rw [hinv]
  exact hostKeeps_sound.and hbusy

theorem inv_fetch {p : Port} {s t : State} {d : Decoded} (hf : fetch p s = some (d, t)) (h : s.Inv) :
    t.Inv := by
  obtain ⟨hs, hbusy⟩ := inv_iff_sound.1 h
  cases p <;>
  · obtain ⟨x, -, hx⟩ := Option.map_eq_some_iff.1 hf
    cases hx
    exact inv_iff_sound.2 ⟨hs.congr rfl rfl rfl rfl (fun _ => rfl) fun _ => rfl, hbusy⟩

/-- Settles O10: an action of a host, the taking of a command's words and the command each keep the
invariant (R53). -/
theorem stepKeepsInvariant : Obligations.StepKeepsInvariant := fun _ _ h ht =>
  step_keeps hostKeeps_inv inv_fetch (fun hv hu => inv_exec hu hv) (fun p _ hu => inv_illegalOn hu p)
    h ht

end Sys2Proof.Machine
end

section
/-! No command reads an element that is unspecified after power-on (10_state.md R51, R52): two runs that agree
on the rest go on agreeing. -/

namespace Sys2Proof.Machine

/-! ### What the hosts see -/

/-- `s` with the elements of `u` that no host reads or writes: `TGT`, `SM`, `SIDX`, the configuration
registers and the channels. -/
def State.withCore (s u : State) : State :=
  { s with tgt := u.tgt, sm := u.sm, sidx := u.sidx, conf := u.conf, chL := u.chL, chR := u.chR }

/-- An operation on what the hosts see: it commutes with an exchange of the rest, and leaves it alone. -/
structure HostOp (f : State → State) : Prop where
  core : ∀ u s, f (s.withCore u) = (f s).withCore u
  frame : ∀ s, HostFrame s (f s)

theorem hostOp_drawn : HostOp State.drawn := ⟨fun _ _ => rfl, drawn_frame⟩

theorem hostOp_raiseFault (f : U32) : HostOp (raiseFault f) := ⟨fun _ _ => rfl, raiseFault_frame f⟩

theorem hostOp_ioWrite (c : Chan) (i : Nat) (w : Word) : HostOp (State.ioWrite · c i w) :=
  ⟨fun _ _ => by cases c <;> rfl, ioWrite_frame c i w⟩

theorem hostOp_writeParam (k : Nat) (v : F32) : HostOp (writeParam k v) where
  core := fun u s => by
    unfold writeParam
    cases paramOf k <;> rfl
  frame := writeParam_frame k v

theorem ioRead_withCore (u s : State) (c : Chan) (i : Nat) :
    (s.withCore u).ioRead c i = s.ioRead c i := by cases c <;> rfl

theorem memAccess_withCore (r : MemReq) (u s : State) :
    memAccess r (s.withCore u) = (memAccess r s).withCore u := by
  have hg : (s.withCore u).cfg = s.cfg := rfl
  cases r with
  | load a =>
    simp only [memAccess, hg, ioRead_withCore]
    cases memTarget s.cfg a <;> rfl
  | store a w =>
    simp only [memAccess, hg]
    cases memTarget s.cfg a with
    | none => rfl
    | some t => exact (hostOp_ioWrite t.1 t.2 w).core u s

theorem ctlEffect_withCore (d : Decoded) (u s : State) :
    ctlEffect d (s.withCore u) = (ctlEffect d s).withCore u := by
  cases d with
  | legal i =>
    cases i with
    | wrparam k v => exact (hostOp_writeParam k v).core u s
    | _ => rfl
  | illegal why => rfl

theorem hostOp_serveMem : HostOp serveMem where
  core := fun u s => by
    have hm : (s.withCore u).mem = s.mem := rfl
    simp only [serveMem, hm]
    cases s.mem with
    | nil => rfl
    | cons r rs => exact memAccess_withCore r.req u { s with mem := rs }
  frame := serveMem_frame

theorem hostOp_serveCtl : HostOp serveCtl where
  core := fun u s => by
    have hc : (s.withCore u).ctl = s.ctl := rfl
    simp only [serveCtl, hc]
    cases takeCommand .ctl s.ctl with
    | none => rfl
    | some t => exact ctlEffect_withCore t.1 u { s with ctl := t.2 }
  frame := serveCtl_frame

/-! ### Agreement on what power-on specifies -/

theorem SameSpecified.eq_withCore {s t : State} (h : SameSpecified s t) : t = s.withCore t :=
  State.ext h.cfg h.prm rfl rfl h.status h.busy rfl rfl rfl rfl h.iobL h.iobR h.cmd h.ctl h.rsp h.mem
    h.memOut h.sched h.por

theorem SameSpecified.withCore {s t u v : State} (h : SameSpecified s t)
    (hL : v.chL.envOut = u.chL.envOut) (hR : v.chR.envOut = u.chR.envOut) :
    SameSpecified (s.withCore u) (t.withCore v) :=
  { h with envL := hL, envR := hR }

theorem SameSpecified.hostOp {s t : State} (h : SameSpecified s t) {f : State → State}
    (hf : HostOp f) : SameSpecified (f s) (f t) := by
  have e : f t = (f s).withCore t := by
    conv_lhs => rw [h.eq_withCore]
    exact hf.core t s
  rw [e]
  exact ⟨rfl, rfl, rfl, rfl, by rw [(hf.frame s).chL]; exact h.envL,
    by rw [(hf.frame s).chR]; exact h.envR, rfl, rfl, rfl, rfl, rfl, rfl, rfl, rfl, rfl⟩

theorem SameSpecified.prepared_eq {s t : State} (h : SameSpecified s t) : t.prepared = s.prepared :=
  prepared_congr h.status

theorem SameSpecified.ioRead_eq {s t : State} (h : SameSpecified s t) (c : Chan) (i : Nat) :
    t.ioRead c i = s.ioRead c i := by
  rw [State.ioRead, State.ioRead, iob_congr h.iobL h.iobR, h.por]

theorem SamePrepared.frame {s t u v : State} (h : SamePrepared s t) (hs : HostFrame s u)
    (ht : HostFrame t v) : SamePrepared u v where
  conf := by rw [hs.conf, ht.conf]; exact h.conf
  tgt := by rw [hs.tgt, ht.tgt]; exact h.tgt
  sm := by rw [hs.sm, ht.sm]; exact h.sm
  chL := by rw [hs.conf, hs.chL, ht.chL]; exact h.chL
  chR := by rw [hs.conf, hs.chR, ht.chR]; exact h.chR

theorem SameToRules.hostOp {s t : State} (h : SameToRules s t) {f : State → State} (hf : HostOp f)
    (hp : (f s).prepared = s.prepared) : SameToRules (f s) (f t) where
  specified := h.specified.hostOp hf
  prepared := fun hs => (h.prepared (hp ▸ hs)).frame (hf.frame s) (hf.frame t)

theorem SameToRules.of_prepared {s t : State} (h : SameSpecified s t) (hp : SamePrepared s t) :
    SameToRules s t := ⟨h, fun _ => hp⟩

theorem hostKeeps_prepared (b : Bool) : HostKeeps fun s => s.prepared = b :=
  hostKeeps_of_parts (fun _ _ _ _ _ h => h)
    (fun c i w _ h => (prepared_congr (ioWrite_status c i w _)).trans h)
    fun hf h => (raiseFault_prepared hf _).trans h

/-- A relation between runs that agree on what the hosts see, if the hosts' operations keep it. -/
theorem hostRel_of_hostOp {R : State → State → Prop} (hs : ∀ {s t}, R s t → SameSpecified s t)
    (hf : ∀ {f s t}, HostOp f → (f s).prepared = s.prepared → R s t → R (f s) (f t)) : HostRel R where
  memEq := fun h => (hs h).mem
  ctlEq := fun h => (hs h).ctl
  schedEq := fun h => (hs h).sched
  mem := fun {s _} h => hf hostOp_serveMem ((hostKeeps_prepared s.prepared).mem rfl) h
  ctl := fun {s _} h => hf hostOp_serveCtl ((hostKeeps_prepared s.prepared).ctl rfl) h
  drawn := fun h => hf hostOp_drawn rfl h

theorem hostRel_sameToRules : HostRel SameToRules :=
  hostRel_of_hostOp SameToRules.specified fun hf hp h => h.hostOp hf hp

/-! ### The snapshot and the clearing sequence -/

/-- Agreement while the snapshot runs: the targets of the parameters `ks` are still to be read. -/
structure SameLatching (ks : List ParamIx) (s t : State) : Prop where
  specified : SameSpecified s t
  tgt : ∀ l : ParamIx, l ∉ ks → t.tgt[l] = s.tgt[l]

theorem hostRel_sameLatching (ks : List ParamIx) : HostRel (SameLatching ks) :=
  hostRel_of_hostOp SameLatching.specified fun {_ s t} hf _ h =>
    ⟨h.specified.hostOp hf, by rw [(hf.frame s).tgt, (hf.frame t).tgt]; exact h.tgt⟩

theorem SameLatching.read {ks : List ParamIx} {j : Nat} {k : ParamIx} {s t : State}
    (hk : ks[j]? = some k) (h : SameLatching ks s t) :
    SameLatching (ks.eraseIdx j) (latchOne k s) (latchOne k t) where
  specified := h.specified.withCore (u := latchOne k s) (v := latchOne k t) h.specified.envL
    h.specified.envR
  tgt := fun l hl => by
    rw [latchOne_tgt_get, latchOne_tgt_get, h.specified.prm]
    obtain rfl | hm := eq_or_not_mem_of_not_mem_eraseIdx hk hl
    · rw [if_pos rfl, if_pos rfl]
    · rw [h.tgt l hm]

/-- After the snapshot all targets agree, whatever they held before (R131). -/
theorem SameSpecified.latchAll {s t : State} (h : SameSpecified s t) :
    SameSpecified (latchAll s) (latchAll t) ∧ (latchAll t).tgt = (latchAll s).tgt := by
  have hl : SameLatching [] (Machine.latchAll s) (Machine.latchAll t) :=
    latchAll_rel hostRel_sameLatching SameLatching.read
      ⟨h, fun l hl => absurd (by revert l; decide) hl⟩
  exact ⟨hl.specified, Vector.ext fun i hi => hl.tgt ⟨i, hi⟩ List.not_mem_nil⟩

theorem SamePrepared.latchAll {s t : State} (h : SamePrepared s t) (hs : SameSpecified s t) :
    SamePrepared (latchAll s) (latchAll t) := by
  have htgt : SamePrepared { s with tgt := (Machine.latchAll s).tgt }
      { t with tgt := (Machine.latchAll t).tgt } := { h with tgt := hs.latchAll.2 }
  exact htgt.frame (latchAll_frame s) (latchAll_frame t)

/-- Two cleared channels agree, whatever they held (R258). -/
theorem cleared_sameInUse {k k' : Conf} {seed seed' : U32} (hk : k' = k) (hs : seed' = seed)
    (c d : Channel) : SameInUse k (c.cleared k seed) (d.cleared k' seed') := by
  subst hk hs
  refine ⟨rfl, rfl, rfl, rfl, rfl, rfl, rfl, fun i => ?_, fun i => ?_, fun i => ?_, fun i => ?_,
    fun i a ha => ?_, fun a ha => ?_, rfl, rfl, rfl, rfl, rfl⟩
  case refine_6 => exact (ramRead_ramClear_of_lt ha _).trans (ramRead_ramClear_of_lt ha _).symm
  all_goals rw [cleared_line, cleared_line]
  case refine_5 => exact (ramRead_ramClear_of_lt ha _).trans (ramRead_ramClear_of_lt ha _).symm
  all_goals rfl

theorem SameSpecified.clearAll {s t : State} (h : SameSpecified s t) (hk : t.conf = s.conf) :
    SameSpecified (clearAll s) (clearAll t) ∧ SamePrepared (clearAll s) (clearAll t) := by
  obtain ⟨hl, htgt⟩ := h.latchAll
  have hconf : (Machine.latchAll t).conf = (Machine.latchAll s).conf := by
    rw [(latchAll_frame s).conf, (latchAll_frame t).conf]; exact hk
  exact ⟨hl.withCore (u := Machine.clearAll s) (v := Machine.clearAll t) rfl rfl,
    ⟨hconf, htgt, htgt, cleared_sameInUse hconf (congrArg Cfg.seedL hl.cfg) _ _,
      cleared_sameInUse hconf (congrArg Cfg.seedR hl.cfg) _ _⟩⟩

end Sys2Proof.Machine
end

section
/-! Two channels that agree on what is in use stay so through a channel's turn and give the same output
(10_state.md R45, R52; 20_memory.md R74). -/

namespace Sys2Proof.Machine

/-! ### The delay RAMs -/

theorem residue_lt (a : Int) {n : Nat} (h : 0 < n) : residue a n < n := by
  have h0 := Int.emod_nonneg a (b := (n : Int)) (by omega)
  have h1 := Int.emod_lt_of_pos a (b := (n : Int)) (by omega)
  unfold residue
  omega

/-- An interpolated read looks at no word beyond those in use (R74). -/
theorem interp_congr_inUse {m m' : Cells} {n : Nat} (hn : 0 < n)
    (h : ∀ a < n, ramRead m' a = ramRead m a) (w : Nat) (d : F32) :
    interp m' w n d = interp m w n d := by
  simp only [interp, h _ (residue_lt _ hn)]

theorem ramRead_ramWrite_congr {m m' : Cells} {n a : Nat} (hm : Memory.ramWf m = true)
    (hm' : Memory.ramWf m' = true) (h : ∀ b < n, ramRead m' b = ramRead m b) (w : Nat) (v : F32)
    (ha : a < n) : ramRead (ramWrite m' w v) a = ramRead (ramWrite m w v) a := by
  by_cases haw : a = w
  · rw [haw, ramRead_ramWrite_self w v (ramWf_iff.1 hm).1,
      ramRead_ramWrite_self w v (ramWf_iff.1 hm').1]
  · rw [ramRead_ramWrite_other haw, ramRead_ramWrite_other haw, h a ha]

/-! ### The micro-operations -/

theorem uCond_sameInUse {k : Conf} {c d : Channel} (h : SameInUse k c d) (sm : Vector F32 18) (x : F32) :
    (uCond k sm d x).2 = (uCond k sm c x).2 ∧ SameInUse k (uCond k sm c x).1 (uCond k sm d x).1 := by
  have hhp : condHp k d x = condHp k c x := by rw [condHp, condHp, h.hp]
  have hcor : condCor k sm d x = condCor k sm c x := by rw [condCor, condCor, hhp]
  have hbq (v : F32) : condBiquad k d v = condBiquad k c v := by
    rw [condBiquad, condBiquad, h.x1, h.x2, h.y1, h.y2]
  simp only [uCond, hhp, hcor, hbq]
  exact ⟨trivial, { h with hp := rfl, x1 := rfl, x2 := h.x1, y1 := rfl, y2 := h.y1 }⟩

theorem uEnv_sameInUse {k : Conf} {c d : Channel} (h : SameInUse k c d) (sm : Vector F32 18) (x : F32) :
    SameInUse k (uEnv k sm x c) (uEnv k sm x d) := by
  simp only [uEnv, h.env]
  exact { h with env := rfl, envOut := rfl }

theorem uDcb_sameInUse {k : Conf} {c d : Channel} (h : SameInUse k c d) (x : F32) :
    (uDcb d x).2 = (uDcb c x).2 ∧ SameInUse k (uDcb c x).1 (uDcb d x).1 := by
  simp only [uDcb, h.dx1, h.dy1]
  exact ⟨trivial, { h with dx1 := rfl, dy1 := rfl }⟩

/-- Two channels that agree, both with their cursors in the buffers and their RAMs in canonical form. -/
structure AgreeInUse (k : Conf) (c d : Channel) : Prop extends SameInUse k c d where
  cursors : CursorsInUse k c
  rams : RamsWf c
  rams' : RamsWf d

theorem tapTurn_congr {k : Conf} {c d : Channel} (h : AgreeInUse k c d) (N : NumFns) (g : Cfg)
    (sm : Vector F32 18) (dt dr : F32) (i : Fin 3) (r : U32) :
    tapTurn N g k sm dt dr d i r = tapTurn N g k sm dt dr c i r := by
  have hraw (t : Tap) : tapRaw N k dt d i t = tapRaw N k dt c i t := by
    rw [tapRaw, tapRaw, h.wv, interp_congr_inUse (Nat.zero_lt_of_lt h.cursors.delay) h.vbuf]
  rw [tapTurn, tapTurn, h.taps, tapFiltered, tapFiltered, hraw]

/-- The delay's elements replaced by the same ones, the RAM by words that agree below `NV`. -/
theorem SameInUse.withDelay {k : Conf} {c d : Channel} (h : SameInUse k c d) (taps : Vector Tap 3)
    (rng : U32) (wv : Nat) {m m' : Cells} (hm : ∀ a < k.nv, ramRead m' a = ramRead m a) :
    SameInUse k { c with taps := taps, rng := rng, vbuf := m, wv := wv }
      { d with taps := taps, rng := rng, vbuf := m', wv := wv } :=
  { h with taps := rfl, rng := rfl, wv := rfl, vbuf := hm }

/-- The three taps after their turns, and the generator after the draws of all (R185, R194). -/
def servedTaps (N : NumFns) (g : Cfg) (k : Conf) (sm : Vector F32 18) (dt dr : F32) (c : Channel) :
    Tap × Tap × Tap × U32 :=
  let t0 := tapTurn N g k sm dt dr c 0 c.rng
  let t1 := tapTurn N g k sm dt dr c 1 t0.2
  let t2 := tapTurn N g k sm dt dr c 2 t1.2
  (t0.1, t1.1, t2.1, t2.2)

/-- The channel and the output for taps that have been served (R201 to R203). -/
def delayOutput (N : NumFns) (g : Cfg) (k : Conf) (sm : Vector F32 18) (c : Channel) (x : F32)
    (q : Tap × Tap × Tap × U32) : Channel × F32 :=
  let avg := tapAverage N g sm q.1 q.2.1 q.2.2.1
  ({ c with
      taps := #v[q.1, q.2.1, q.2.2.1]
      rng := q.2.2.2
      vbuf := ramWrite c.vbuf c.wv (fadd x (fmul avg sm[delayFeedback]))
      wv := (c.wv + 1) % k.nv }, avg)

theorem uVdly_eq (N : NumFns) (g : Cfg) (k : Conf) (sm : Vector F32 18) (c : Channel) (x dt dr : F32) :
    uVdly N g k sm c x dt dr = delayOutput N g k sm c x (servedTaps N g k sm dt dr c) := rfl

theorem servedTaps_congr {k : Conf} {c d : Channel} (h : AgreeInUse k c d) (N : NumFns) (g : Cfg)
    (sm : Vector F32 18) (dt dr : F32) :
    servedTaps N g k sm dt dr d = servedTaps N g k sm dt dr c := by
  simp only [servedTaps, tapTurn_congr h, h.rng]

theorem uVdly_agree {k : Conf} {c d : Channel} (h : AgreeInUse k c d) (N : NumFns) (g : Cfg)
    (sm : Vector F32 18) (x dt dr : F32) :
    (uVdly N g k sm d x dt dr).2 = (uVdly N g k sm c x dt dr).2 ∧
      SameInUse k (uVdly N g k sm c x dt dr).1 (uVdly N g k sm d x dt dr).1 := by
  rw [uVdly_eq, uVdly_eq, servedTaps_congr h]
  generalize servedTaps N g k sm dt dr c = q
  simp only [delayOutput, h.wv]
  exact ⟨trivial, h.toSameInUse.withDelay _ _ _ fun _ ha =>
    ramRead_ramWrite_congr h.rams.2 h.rams'.2 h.vbuf _ _ ha⟩

theorem lineReads_congr {k : Conf} {c d : Channel} (h : AgreeInUse k c d) (N : NumFns)
    (sm : Vector F32 18) : lineReads N k sm d = lineReads N k sm c := by
  have hread (i : Fin 8) : lineRead N k sm i d.lines[i] = lineRead N k sm i c.lines[i] := by
    simp only [lineRead, lineDelay, linePhase, h.w i, h.ph i,
      interp_congr_inUse (Nat.zero_lt_of_lt (h.cursors.line i)) (h.buf i)]
  simp only [lineReads, hread]

theorem uFdn_agree {k : Conf} {c d : Channel} (h : AgreeInUse k c d) (N : NumFns) (g : Cfg)
    (sm : Vector F32 18) (x : F32) :
    (uFdn N g k sm d x).2 = (uFdn N g k sm c x).2 ∧
      SameInUse k (uFdn N g k sm c x).1 (uFdn N g k sm d x).1 := by
  simp only [uFdn, lineReads_congr h]
  refine ⟨trivial, { h.toSameInUse with
    w := fun i => ?_, ph := fun i => ?_, d1 := fun i => ?_, d2 := fun i => ?_, buf := fun i a ha => ?_ }⟩
  all_goals simp only [tab8_get, lineNext, linePhase, h.w i, h.ph i, h.d1 i, h.d2 i]
  exact ramRead_ramWrite_congr (h.rams.1 i) (h.rams'.1 i) (h.buf i) _ _ ha

/-! ### A channel's turn -/

theorem uRoute_agree {k : Conf} {c d : Channel} (h : AgreeInUse k c d) (N : NumFns) (g : Cfg)
    (sm : Vector F32 18) (ch : Chan) (dry : F32) :
    (uRoute N g k sm ch d dry).2 = (uRoute N g k sm ch c dry).2 ∧
      SameInUse k (uRoute N g k sm ch c dry).1 (uRoute N g k sm ch d dry).1 := by
  obtain ⟨hx, hcond⟩ := uCond_sameInUse h.toSameInUse sm dry
  simp only [uRoute, hx]
  generalize (uCond k sm c dry).2 = x
  have henv : AgreeInUse k (uEnv k sm x (uCond k sm c dry).1) (uEnv k sm x (uCond k sm d dry).1) :=
    ⟨uEnv_sameInUse hcond sm x, uEnv_cursors (uCond_cursors h.cursors sm dry) sm x,
      uEnv_ramsWf (uCond_ramsWf h.rams k sm dry) k sm x,
      uEnv_ramsWf (uCond_ramsWf h.rams' k sm dry) k sm x⟩
  obtain ⟨hy, hsame⟩ := uVdly_agree henv N g sm x (chanDelayTime sm ch) (chanDrift sm ch)
  have hdly : AgreeInUse k _ _ := ⟨hsame, uVdly_cursors henv.cursors N g sm x _ _,
    uVdly_ramsWf henv.rams N g k sm x _ _, uVdly_ramsWf henv.rams' N g k sm x _ _⟩
  have hz (y : F32) := uFdn_agree hdly N g sm y
  simp only [hy, hz]
  obtain ⟨hw, hdcb⟩ := uDcb_sameInUse (hz _).2 _
  exact ⟨congrArg _ hw, hdcb⟩

end Sys2Proof.Machine
end

section
/-! The commands between two runs that no rule can tell apart (10_state.md R52). -/

namespace Sys2Proof.Machine

/-! ### The sample steps of a legal block -/

/-- Two runs in the sample steps of a block of `n` pairs, in agreement. -/
structure SameProcessing (n : Nat) (s t : State) : Prop where
  specified : SameSpecified s t
  prepared : SamePrepared s t
  first : Processing n s
  second : Processing n t

theorem SamePrepared.chan {s t : State} (h : SamePrepared s t) (c : Chan) :
    SameInUse s.conf (s.chan c) (t.chan c) := by
  cases c with
  | left => exact h.chL
  | right => exact h.chR

theorem SameProcessing.agree {n : Nat} {s t : State} (h : SameProcessing n s t) (c : Chan) :
    AgreeInUse s.conf (s.chan c) (t.chan c) :=
  ⟨h.prepared.chan c, h.first.cursors c, h.first.rams c, h.second.rams c⟩

theorem SameProcessing.channelOut {n : Nat} {s t : State} (h : SameProcessing n s t) (N : NumFns)
    (c : Chan) (dry : F32) :
    (channelOut N c dry t).2 = (channelOut N c dry s).2 ∧
      SameInUse s.conf (channelOut N c dry s).1 (channelOut N c dry t).1 := by
  rw [Machine.channelOut, Machine.channelOut, h.specified.cfg, h.prepared.conf, h.prepared.sm]
  exact uRoute_agree (h.agree c) N s.cfg s.sm c dry

theorem SameSpecified.setChan {s t : State} (h : SameSpecified s t) (c : Chan) {x y : Channel}
    (hxy : y.envOut = x.envOut) : SameSpecified (s.setChan c x) (t.setChan c y) := by
  cases c with
  | left => exact { h with envL := hxy }
  | right => exact { h with envR := hxy }

theorem SamePrepared.setChan {s t : State} (h : SamePrepared s t) (c : Chan) {x y : Channel}
    (hxy : SameInUse s.conf x y) : SamePrepared (s.setChan c x) (t.setChan c y) := by
  cases c with
  | left => exact { h with chL := hxy }
  | right => exact { h with chR := hxy }

theorem SamePrepared.smooth {s t : State} (h : SamePrepared s t) (i : Nat) :
    SamePrepared (uSmooth { s with sidx := i }) (uSmooth { t with sidx := i }) :=
  { h with sm := by simp only [uSmooth_sm, h.conf, h.tgt, h.sm] }

theorem sampleRel_sameProcessing (N : NumFns) (n : Nat) : SampleRel N n (SameProcessing n) where
  toHostRel :=
    { memEq := fun h => h.specified.mem
      ctlEq := fun h => h.specified.ctl
      schedEq := fun h => h.specified.sched
      mem := fun {s t} h => ⟨h.specified.hostOp hostOp_serveMem,
        h.prepared.frame (serveMem_frame s) (serveMem_frame t),
        (hostKeeps_processing n).mem h.first, (hostKeeps_processing n).mem h.second⟩
      ctl := fun {s t} h => ⟨h.specified.hostOp hostOp_serveCtl,
        h.prepared.frame (serveCtl_frame s) (serveCtl_frame t),
        (hostKeeps_processing n).ctl h.first, (hostKeeps_processing n).ctl h.second⟩
      drawn := fun {s t} h => ⟨h.specified.hostOp hostOp_drawn,
        h.prepared.frame (drawn_frame s) (drawn_frame t),
        (hostKeeps_processing n).drawn h.first, (hostKeeps_processing n).drawn h.second⟩ }
  smooth := fun {s t} i h =>
    ⟨h.specified.withCore (u := uSmooth { s with sidx := i }) (v := uSmooth { t with sidx := i })
      h.specified.envL h.specified.envR, h.prepared.smooth i,
      (sampleKeeps_processing N n).smooth i h.first, (sampleKeeps_processing N n).smooth i h.second⟩
  read := fun c i h => h.specified.ioRead_eq c i
  out := fun c dry h => (h.channelOut N c dry).1
  turn := fun c dry h =>
    ⟨h.specified.setChan c (h.channelOut N c dry).2.envOut,
      h.prepared.setChan c (h.channelOut N c dry).2,
      (sampleKeeps_processing N n).turn c dry h.first, (sampleKeeps_processing N n).turn c dry h.second⟩
  write := fun {s t} c i w hi h =>
    ⟨h.specified.hostOp (hostOp_ioWrite c i w),
      h.prepared.frame (ioWrite_frame c i w s) (ioWrite_frame c i w t),
      (sampleKeeps_processing N n).write c w hi h.first,
      (sampleKeeps_processing N n).write c w hi h.second⟩

/-! ### The bodies -/

theorem SameToRules.raise {s t : State} (h : SameToRules s t) {f : U32} (hf : FaultMask f) :
    SameToRules (raiseFault f s) (raiseFault f t) :=
  h.hostOp (hostOp_raiseFault f) (raiseFault_prepared hf s)

theorem SameToRules.prepareBody {s t : State} (h : SameToRules s t) (fs : F32) (mb : U32) :
    SameToRules (prepareBody Config.num fs mb s) (prepareBody Config.num fs mb t) := by
  have hflags : prepareFlags t.cfg fs mb = prepareFlags s.cfg fs mb := by rw [h.specified.cfg]
  by_cases hf : prepareFlags s.cfg fs mb = 0#32
  · have hconf : (configure Config.num fs mb t).conf = (configure Config.num fs mb s).conf := by
      rw [configure_conf, configure_conf, h.specified.cfg]
    have hspec : SameSpecified (configure Config.num fs mb s) (configure Config.num fs mb t) :=
      h.specified.withCore (u := configure Config.num fs mb s) (v := configure Config.num fs mb t)
        h.specified.envL h.specified.envR
    obtain ⟨hs, hp⟩ := hspec.clearAll hconf
    rw [prepareBody_legal hf, prepareBody_legal (hflags.trans hf)]
    exact .of_prepared (hs.hostOp (hostOp_raiseFault maskPrepared))
      (hp.frame (raiseFault_frame maskPrepared _) (raiseFault_frame maskPrepared _))
  · rw [prepareBody_illegal hf, prepareBody_illegal (hflags ▸ hf), hflags]
    exact h.raise (prepareFlags_faultMask _ _ _)

theorem SameToRules.resetBody {s t : State} (h : SameToRules s t) :
    SameToRules (resetBody s) (resetBody t) := by
  have hprep := h.specified.prepared_eq
  cases hp : s.prepared with
  | false =>
    rw [resetBody_unprepared hp, resetBody_unprepared (hprep.trans hp)]
    exact h.raise ⟨by decide, by decide⟩
  | true =>
    obtain ⟨hs, hp'⟩ := h.specified.clearAll (h.prepared hp).conf
    rw [resetBody_prepared hp, resetBody_prepared (hprep.trans hp)]
    exact .of_prepared hs hp'

/-- Whether a block is legal does not depend on `MAXBLK` while it is unspecified (R120). -/
theorem SameToRules.pblockFlags_eq {s t : State} (h : SameToRules s t) (n : Nat) :
    pblockFlags t n = pblockFlags s n := by
  unfold pblockFlags
  rw [h.specified.prepared_eq]
  cases hp : s.prepared with
  | false => rfl
  | true => rw [(h.prepared hp).conf]

theorem SameToRules.pblockBody {s t : State} (h : SameToRules s t) (hs : Sound s) (ht : Sound t)
    (n : Nat) : SameToRules (pblockBody Config.num n s) (pblockBody Config.num n t) := by
  have hflags := h.pblockFlags_eq n
  by_cases hf : pblockFlags s n = 0#32
  · have hp := h.prepared (pblockFlags_eq_zero_iff.1 hf).1
    have hstart : SameProcessing n (uLatch s) (uLatch t) :=
      ⟨h.specified.latchAll.1, hp.latchAll h.specified, hs.processing hf,
        ht.processing (hflags.trans hf)⟩
    have hend := (sampleRel_sameProcessing Config.num n).steps n (i := 0) (by omega) hstart
    rw [pblockBody_legal hf, pblockBody_legal (hflags.trans hf)]
    exact .of_prepared hend.specified hend.prepared
  · rw [pblockBody_illegal hf, pblockBody_illegal (hflags ▸ hf), hflags]
    exact h.raise (pblockFlags_faultMask _ _)

theorem writeParam_prepared (k : Nat) (v : F32) (s : State) :
    (writeParam k v s).prepared = s.prepared := by
  unfold writeParam
  split
  · rfl
  · exact raiseFault_prepared ⟨by decide, by decide⟩ s

theorem SameToRules.body {s t : State} (h : SameToRules s t) (hs : Sound s) (ht : Sound t)
    (i : Instr) : SameToRules (commandBody i s) (commandBody i t) := by
  cases i with
  | prepare fs mb => exact h.prepareBody fs mb
  | reset => exact h.resetBody
  | pblock n => exact h.pblockBody hs ht n
  | psample => exact h.pblockBody hs ht 1
  | rdenv ch => exact h
  | wrparam k v => exact h.hostOp (hostOp_writeParam k v) (writeParam_prepared k v s)

/-! ### The commands -/

theorem SameToRules.begin {s t : State} (h : SameToRules s t) :
    SameToRules (beginCommand s) (beginCommand t) where
  specified := { h.specified with busy := rfl }
  prepared := fun hp => { h.prepared hp with }

theorem SameToRules.answer {s t : State} (h : SameToRules s t) (w : Word) :
    SameToRules (endCommand w s) (endCommand w t) where
  specified := { h.specified with
    busy := rfl
    rsp := congrArg (· ++ [w]) h.specified.rsp }
  prepared := fun hp => { h.prepared hp with }

/-- The response is one of the elements specified after power-on (R98). -/
theorem commandResponse_eq {s t : State} (h : SameSpecified s t) (i : Instr) :
    commandResponse i t = commandResponse i s := by
  cases i with
  | rdenv ch =>
    cases ch with
    | left => exact h.envL
    | right => exact h.envR
  | _ => exact h.status

theorem SameToRules.run {s t : State} (h : SameToRules s t) (hs : Sound s) (ht : Sound t) (i : Instr) :
    SameToRules (runCommand (commandBody i) (commandResponse i) s)
      (runCommand (commandBody i) (commandResponse i) t) := by
  have hs' : Sound (beginCommand s) := hs.congr rfl rfl rfl rfl (fun _ => rfl) fun _ => rfl
  have ht' : Sound (beginCommand t) := ht.congr rfl rfl rfl rfl (fun _ => rfl) fun _ => rfl
  have hpoint := hostRel_sameToRules.point (h.begin.body hs' ht' i)
  simp only [runCommand, commandResponse_eq hpoint.specified]
  exact hpoint.answer _

/-- Settles O57: the bodies, the hosts' actions and the response each keep the agreement. -/
theorem unspecifiedNeverRead : Obligations.UnspecifiedNeverRead := by
  intro i s t hs ht h
  obtain ⟨hs, -⟩ := inv_iff_sound.1 hs
  obtain ⟨ht, -⟩ := inv_iff_sound.1 ht
  refine ⟨_, _, exec_eq i s, exec_eq i t, ?_⟩
  split
  · exact h.run hs ht i
  · exact h.body hs ht i

end Sys2Proof.Machine
end

section
/-! The `MEM` port (20_memory.md R70, R71): what the core does with a transaction that is first there, and
which ports are ready while transactions wait (R80, R90, R91). -/

namespace Sys2Proof.Machine

/-! ### The address map (R71) -/

theorem memTarget_left {g : Cfg} {a : Word} (h : a.toNat < g.iobufCap) :
    memTarget g a = some (.left, a.toNat) := by
  rw [memTarget, if_pos h]

theorem memTarget_right {g : Cfg} {a : Word} (hlo : g.iobufCap ≤ a.toNat)
    (hhi : a.toNat < 2 * g.iobufCap) : memTarget g a = some (.right, a.toNat - g.iobufCap) := by
  rw [memTarget, if_neg hlo.not_gt, if_pos hhi]

theorem memTarget_eq_none {g : Cfg} {a : Word} (h : 2 * g.iobufCap ≤ a.toNat) :
    memTarget g a = none := by
  rw [memTarget, if_neg (by omega), if_neg (by omega)]

/-- Every address below twice the capacity selects a word. -/
theorem exists_memTarget {g : Cfg} {a : Word} (h : a.toNat < 2 * g.iobufCap) :
    ∃ c i, memTarget g a = some (c, i) := by
  rcases Nat.lt_or_ge a.toNat g.iobufCap with hlo | hlo
  · exact ⟨_, _, memTarget_left hlo⟩
  · exact ⟨_, _, memTarget_right hlo h⟩

/-! ### The step that serves a transaction -/

/-- What is read from `IOBUF` does not depend on what waits on `MEM`. -/
theorem ioRead_withMem (s : State) (mem : List MemTurn) (c : Chan) (i : Nat) :
    State.ioRead { s with mem := mem } c i = s.ioRead c i := by cases c <;> rfl

/-- A store to `IOBUF` changes nothing but the words listed there. -/
theorem ioWrite_eq (c : Chan) (i : Nat) (w : Word) (s : State) :
    s.ioWrite c i w = { s with iobL := (s.ioWrite c i w).iobL, iobR := (s.ioWrite c i w).iobR } := by
  cases c <;> rfl

/-- Where `MEM` alone is ready the step serves the transaction that is first. -/
theorem step_of_mem_source {s : State} {turn : MemTurn} {rest : List MemTurn}
    (hg : cfgOk s.cfg = true) (hs : s.sources = [.mem]) (hm : s.mem = turn :: rest) :
    step s = .next (memAccess turn.req { s with mem := rest }) := by
  rw [step_of_one_source hg hs]
  simp only [serve, serveMem, hm]

section
variable {s : State} {a w : Word} {p : Nat} {rest : List MemTurn} {c : Chan} {i : Nat}

theorem step_load_mapped (hg : cfgOk s.cfg = true) (hs : s.sources = [.mem])
    (hm : s.mem = ⟨.load a, p⟩ :: rest) (h : memTarget s.cfg a = some (c, i)) :
    step s = .next { s with mem := rest, memOut := s.memOut ++ [s.ioRead c i] } := by
  rw [step_of_mem_source hg hs hm]
  simp only [memAccess, h, ioRead_withMem]

theorem step_load_unmapped (hg : cfgOk s.cfg = true) (hs : s.sources = [.mem])
    (hm : s.mem = ⟨.load a, p⟩ :: rest) (h : memTarget s.cfg a = none) :
    step s = .next { s with
      mem := rest, memOut := s.memOut ++ [Config.freeWord s.sched], sched := s.sched + 1,
      status := s.status ||| maskBadAddr } := by
  rw [step_of_mem_source hg hs hm]
  simp only [memAccess, h]
  rfl

theorem step_store_mapped (hg : cfgOk s.cfg = true) (hs : s.sources = [.mem])
    (hm : s.mem = ⟨.store a w, p⟩ :: rest) (h : memTarget s.cfg a = some (c, i)) :
    step s = .next (State.ioWrite { s with mem := rest } c i w) := by
  rw [step_of_mem_source hg hs hm]
  simp only [memAccess, h]

theorem step_store_unmapped (hg : cfgOk s.cfg = true) (hs : s.sources = [.mem])
    (hm : s.mem = ⟨.store a w, p⟩ :: rest) (h : memTarget s.cfg a = none) :
    step s = .next { s with mem := rest, status := s.status ||| maskBadAddr } := by
  rw [step_of_mem_source hg hs hm]
  simp only [memAccess, h]
  rfl

end

/-- Settles O27: the three ranges of the address map, each with the outcome of a load there. -/
theorem memLoadReadsIobuf : Obligations.MemLoadReadsIobuf := by
  intro s a p rest hg hs hm
  exact ⟨fun h => step_load_mapped hg hs hm (memTarget_left h),
    fun hlo hhi => step_load_mapped hg hs hm (memTarget_right hlo hhi),
    fun h => ⟨Config.freeWord s.sched, step_load_unmapped hg hs hm (memTarget_eq_none h)⟩⟩

/-- Settles O28: a store inside `IOBUF` is the write of one word there, and one outside raises the flag. -/
theorem memStoreWritesOneWord : Obligations.MemStoreWritesOneWord := by
  intro s a w p rest hg hs hm
  refine ⟨fun c i h => ⟨_, step_store_mapped hg hs hm h, ioRead_ioWrite_self c i w _,
      fun d j hne => ?_, ioWrite_eq c i w { s with mem := rest }⟩,
    memTarget_left, memTarget_right,
    fun h => step_store_unmapped hg hs hm (memTarget_eq_none h)⟩
  have hother : d ≠ c ∨ j ≠ i := by
    rw [ne_eq, Prod.mk.injEq] at hne
    exact not_and_or.1 hne
  rw [ioRead_ioWrite_other hother, ioRead_withMem]

/-! ### Which ports are ready -/

theorem ctlReady_of_empty {s : State} (h : s.ctl = []) : s.ctlReady = false := by
  rw [State.ctlReady, h]
  rfl

theorem memReady_of_cons {s : State} {turn : MemTurn} {rest : List MemTurn} (h : s.mem = turn :: rest) :
    s.memReady = true := by
  rw [State.memReady, h]
  rfl

theorem cmdReady_of_empty {s : State} (h : s.cmd = []) : s.cmdReady = false := by
  rw [State.cmdReady, h]
  rfl

/-- No command is taken while a transaction from before its issue waits (R80, item 2; R91). -/
theorem cmdReady_of_mem_before {s : State} {turn : MemTurn} (hm : turn ∈ s.mem)
    (h : turn.after < cmdLength (s.cmd.headD 0)) : s.cmdReady = false := by
  rw [Bool.eq_false_iff]
  intro hc
  obtain ⟨-, -, hall⟩ := cmdReady_iff.1 hc
  exact absurd (hall turn hm) h.not_ge

theorem cmd_mem_sources_iff {s : State} : Source.cmd ∈ s.sources ↔ s.cmdReady = true := by
  rw [sources_eq]
  cases s.memReady <;> cases s.ctlReady <;> cases s.cmdReady <;> simp

theorem sources_eq_mem {s : State} {turn : MemTurn} {rest : List MemTurn} (hm : s.mem = turn :: rest)
    (hctl : s.ctl = []) (hcmd : s.cmdReady = false) : s.sources = [.mem] := by
  simp [sources_eq, memReady_of_cons hm, ctlReady_of_empty hctl, hcmd]

theorem sources_eq_nil {s : State} (hm : s.mem = []) (hcmd : s.cmd = []) (hctl : s.ctl = []) :
    s.sources = [] := by
  simp [sources_eq, State.memReady, hm, ctlReady_of_empty hctl, cmdReady_of_empty hcmd]

/-- Settles O29: after the step that stores, `MEM` alone is ready still and the load is first; and the store
holds back a command issued after it. -/
theorem storeThenLoadReturnsWord : Obligations.StoreThenLoadReturnsWord := by
  intro s a w p q hg hctl ha
  obtain ⟨c, i, htarget⟩ := exists_memTarget ha
  refine ⟨fun hm hcmd => ?_, fun hm hp => ?_⟩
  · have hs : s.sources = [.mem] := sources_eq_mem hm hctl (cmdReady_of_empty hcmd)
    have hs' : (State.ioWrite { s with mem := [⟨.load a, q⟩] } c i w).sources = [.mem] :=
      sources_eq_mem (ioWrite_mem ..) ((ioWrite_ctl ..).trans hctl)
        (cmdReady_of_empty ((ioWrite_cmd ..).trans hcmd))
    have hload := step_load_mapped (by rwa [ioWrite_cfg]) hs' (ioWrite_mem ..)
      (c := c) (i := i) (by rwa [ioWrite_cfg])
    rw [ioRead_ioWrite_self] at hload
    exact ⟨_, _, step_store_mapped hg hs hm htarget, hload, by simp, rfl, by simp⟩
  · have hcmd : s.cmdReady = false :=
      cmdReady_of_mem_before (turn := ⟨.store a w, p⟩) (by simp [hm]) hp
    refine ⟨_, step_store_mapped hg (sources_eq_mem hm hctl hcmd) hm htarget, by simp, by simp,
      by simp, fun d j hdj => ?_⟩
    obtain ⟨rfl, rfl⟩ : c = d ∧ i = j := by simpa [htarget] using hdj
    exact ioRead_ioWrite_self _ _ _ _

/-! ### The port a step serves (R80, R81, R90, R91) -/

theorem cmdLength_pos (w0 : Word) : 0 < cmdLength w0 := by
  unfold cmdLength
  split <;> decide

/-- Words that make no whole command are fewer than their head word says, whatever follows them (R91). -/
theorem length_lt_of_takeCommand_none {p : Port} {words : List Word} (h : takeCommand p words = none)
    (ws : List Word) : words.length < cmdLength ((words ++ ws).headD 0) := by
  cases words with
  | nil => exact cmdLength_pos _
  | cons w0 tail =>
    simpa [takeCommand, Nat.lt_sub_iff_add_lt] using h

/-- A step with something at the ports serves one of those that are ready (R90, R242). -/
theorem step_serves_source {s : State} (hg : cfgOk s.cfg = true) (hs : s.sources ≠ []) :
    ∃ src ∈ s.sources, ∃ r, (r = s ∨ (2 ≤ s.sources.length ∧ r = s.drawn)) ∧
      step s = serve src r := by
  match hsrc : s.sources with
  | [] => exact absurd hsrc hs
  | [a] => exact ⟨a, by simp, s, .inl rfl, step_of_one_source hg hsrc⟩
  | a :: b :: more =>
    refine ⟨_, ?_, s.drawn, .inr ⟨by simp, rfl⟩, step_of_more_sources hg hsrc⟩
    have hlt : Config.pick s.sched % (more.length + 2) < (a :: b :: more).length :=
      Nat.mod_lt _ (by omega)
    rw [List.getD_eq_getElem _ _ hlt]
    exact List.getElem_mem hlt

/-- Settles O7: a transaction presented before a command is whole follows fewer words than the command
has. -/
theorem stepServesAReadyPortOrWaits : Obligations.StepServesAReadyPortOrWaits := by
  have hwaits {s : State} {turn : MemTurn} (hm : turn ∈ s.mem)
      (h : turn.after < cmdLength (s.cmd.headD 0)) : Source.cmd ∉ s.sources := by
    rw [cmd_mem_sources_iff, cmdReady_of_mem_before hm h]
    exact Bool.false_ne_true
  intro s
  refine ⟨step_serves_source, fun _ => hwaits, fun hnone r ws => ?_, fun hm hcmd hctl => ?_⟩
  · exact hwaits (turn := ⟨r, s.cmd.length⟩) (by simp [State.host])
      (length_lt_of_takeCommand_none hnone ws)
  · exact step_of_no_source (sources_eq_nil hm hcmd hctl)

end Sys2Proof.Machine
end

section
/-! The snapshot where hosts store meanwhile (20_memory.md R79, 41_parameter_smoother.md R131): what has been
read, what is waiting, and what the target of one parameter holds on the way. -/

namespace Sys2Proof.Machine

/-- On the way from `s` to `u`, by the reads `done`, the parameter `k` was read in some state `v`, and its
target holds the clamp of what `PRM[k]` was there. -/
def ReadOnPath (s : State) (k : ParamIx) (done : List ParamIx) (u : State) : Prop :=
  ∃ (before after : List ParamIx) (v : State), done = before ++ k :: after ∧
    LatchPath s before v ∧ LatchPath (latchOne k v) after u ∧ u.tgt[k] = clampP k v.prm[k]

/-- A snapshot begun in `s` that has come to `u` with the parameters `waiting` not read yet: each of the
others has been read once, and `k`, if it is among them, has its target. -/
def SnapshotAt (s : State) (k : ParamIx) (waiting : List ParamIx) (u : State) : Prop :=
  ∃ done, LatchPath s done u ∧ (done ++ waiting).Perm allParams ∧
    (k ∈ waiting ∨ ReadOnPath s k done u)

theorem mem_allParams (k : ParamIx) : k ∈ allParams := by revert k; decide

theorem snapshotAt_start (s : State) (k : ParamIx) : SnapshotAt s k allParams s :=
  ⟨[], .start, .refl _, .inl (mem_allParams k)⟩

/-- An action that may stand anywhere on a path and writes no target keeps what the snapshot has done. -/
theorem SnapshotAt.extend {s u v : State} {k : ParamIx} {waiting : List ParamIx}
    (hpath : ∀ {r ks}, LatchPath r ks u → LatchPath r ks v) (htgt : v.tgt = u.tgt)
    (h : SnapshotAt s k waiting u) : SnapshotAt s k waiting v := by
  obtain ⟨done, hdone, hperm, hk⟩ := h
  refine ⟨done, hpath hdone, hperm, hk.imp_right ?_⟩
  rintro ⟨before, after, r, hsplit, hbefore, hafter, hval⟩
  exact ⟨before, after, r, hsplit, hbefore, hpath hafter, by rw [htgt, hval]⟩

theorem hostKeeps_snapshotAt (s : State) (k : ParamIx) (waiting : List ParamIx) :
    HostKeeps (SnapshotAt s k waiting) where
  mem := fun {u} h => h.extend .mem (serveMem_frame u).tgt
  ctl := fun {u} h => h.extend .ctl (serveCtl_frame u).tgt
  drawn := fun {u} h => h.extend .drawn (drawn_frame u).tgt

/-- Moving the parameter read from those waiting to those read leaves each of the 18 once. -/
theorem append_eraseIdx_perm {done waiting : List ParamIx} {j : Nat} {l : ParamIx}
    (hl : waiting[j]? = some l) : (done ++ [l] ++ waiting.eraseIdx j).Perm (done ++ waiting) := by
  obtain ⟨hj, rfl⟩ := List.getElem?_eq_some_iff.1 hl
  rw [List.append_assoc]
  exact (List.getElem_cons_eraseIdx_perm hj).append_left done

/-- A read of a parameter that waits: of `k` itself, or of another, which leaves `TGT[k]` alone. -/
theorem SnapshotAt.read {s u : State} {k l : ParamIx} {waiting : List ParamIx} {j : Nat}
    (hl : waiting[j]? = some l) (h : SnapshotAt s k waiting u) :
    SnapshotAt s k (waiting.eraseIdx j) (latchOne l u) := by
  obtain ⟨done, hdone, hperm, hk⟩ := h
  refine ⟨done ++ [l], hdone.read l, (append_eraseIdx_perm hl).trans hperm, ?_⟩
  by_cases hkl : k = l
  · subst hkl
    exact .inr ⟨done, [], u, rfl, hdone, .start, by rw [latchOne_tgt_get, if_pos rfl]⟩
  · rcases hk with hk | ⟨before, after, r, hsplit, hbefore, hafter, hval⟩
    · by_contra hc
      exact (eq_or_not_mem_of_not_mem_eraseIdx hl (not_or.1 hc).1).elim hkl (· hk)
    · refine .inr ⟨before, after ++ [l], r, by simp [hsplit], hbefore, hafter.read l, ?_⟩
      rw [latchOne_tgt_get, if_neg hkl, hval]

/-- Settles O33: every host action and every read keeps the account of the snapshot, at whose end no
parameter waits. -/
theorem snapshotTakesValuesPrmHeld : Obligations.SnapshotTakesValuesPrmHeld := by
  intro s k
  obtain ⟨done, -, hperm, hk⟩ : SnapshotAt s k [] (latchAll s) :=
    latchAll_keeps (hostKeeps_snapshotAt s k) SnapshotAt.read (snapshotAt_start s k)
  obtain ⟨before, after, u, rfl, hbefore, hafter, hval⟩ := hk.resolve_left List.not_mem_nil
  exact ⟨before, after, u, hbefore, hafter, by simpa using hperm, hval⟩

end Sys2Proof.Machine
end

section
/-! The interpolated read of a delay RAM (20_memory.md R74): the fraction of a delay is exact, since what
remains of a binary32 value under its whole part has no more digits than the value. -/

namespace Sys2Proof.Machine

/-! ### Exact differences -/

/-- Up to 24 binary digits at any binade of binary32 are the magnitude of a value. -/
theorem exists_unitsOfBits {a e : Nat} (ha : a < 2 ^ 24) (he : e < 254) :
    ∃ m ≤ 0x7F800000, unitsOfBits m = a * 2 ^ e := by
  induction e generalizing a with
  | zero =>
    refine ⟨a, by omega, ?_⟩
    unfold unitsOfBits
    split
    · simp
    · rw [show a / 2 ^ 23 = 1 by omega, show a % 2 ^ 23 + 2 ^ 23 = a by omega]
  | succ e ih =>
    by_cases hsmall : a < 2 ^ 23
    · obtain ⟨m, hm, hu⟩ := ih (a := 2 * a) (by omega) (by omega)
      exact ⟨m, hm, by rw [hu, pow_succ]; ring⟩
    · have hdiv : ((e + 1) * 2 ^ 23 + a) / 2 ^ 23 = e + 2 := by omega
      have hmod : ((e + 1) * 2 ^ 23 + a) % 2 ^ 23 + 2 ^ 23 = a := by omega
      refine ⟨(e + 1) * 2 ^ 23 + a, by omega, ?_⟩
      rw [unitsOfBits, hdiv, hmod, if_neg (by omega)]
      rfl

/-- The magnitude of a value that is no NaN has at most 24 binary digits. -/
theorem magUnits_eq_mul_pow {x : F32} (h : isNan x = false) :
    ∃ a e, a < 2 ^ 24 ∧ e < 255 ∧ magUnits x = a * 2 ^ e := by
  have hb : magBits x ≤ 0x7F800000 := by simpa [isNan] using h
  unfold magUnits
  split
  · exact ⟨magBits x, 0, by omega, by decide, by simp⟩
  · exact ⟨_, _, by omega, by omega, rfl⟩

/-- What remains of a magnitude under a power of two has no more digits than the magnitude. -/
theorem exists_unitsOfBits_mod {x : F32} (h : isNan x = false) {k : Nat} (hk : k < 254) :
    ∃ m ≤ 0x7F800000, unitsOfBits m = magUnits x % 2 ^ k := by
  obtain ⟨a, e, ha, -, hu⟩ := magUnits_eq_mul_pow h
  rcases Nat.le_total e k with hek | hek
  · have hmod : magUnits x % 2 ^ k = a % 2 ^ (k - e) * 2 ^ e := by
      rw [hu, ← Nat.mul_mod_mul_right, ← pow_add, Nat.sub_add_cancel hek]
    rw [hmod]
    exact exists_unitsOfBits (lt_of_le_of_lt (Nat.mod_le _ _) ha) (by omega)
  · have hmod : magUnits x % 2 ^ k = 0 :=
      Nat.mod_eq_zero_of_dvd (hu ▸ (pow_dvd_pow 2 hek).mul_left a)
    exact ⟨0, by decide, by rw [hmod]; decide⟩

/-- A sum that is not negative and is the magnitude of a value is not rounded. -/
theorem addWith_exact {x y : F32} (hx : isFinite x = true) (hy : isFinite y = true) {m : Nat}
    (hm : m ≤ 0x7F800000) (h : units x + units y = unitsOfBits m) (op : NanOp) (a b : F32) :
    isNan (addWith op a b x y) = false ∧ units (addWith op a b x y) = units x + units y := by
  by_cases h0 : units x + units y = 0
  · have hzero (b : Bool) : isNan (pack b 0) = false ∧ units (pack b 0) = 0 := by cases b <;> decide
    have hsum : addWith op a b x y = pack (isNeg x && isNeg y) 0 := by
      simp [addWith, (finite_cases hx).2, (finite_cases hy).2, h0]
    rw [hsum, h0]
    exact hzero _
  · have hround : magRound (unitsOfBits m) 1 = m := by simpa using magRound_exact hm Nat.one_pos
    have hlt : m < 2 ^ 31 := lt_of_le_of_lt hm (by decide)
    rw [addWith_finite hx hy op a b h0, h, Int.natAbs_natCast, hround,
      decide_eq_false (Int.natCast_nonneg _).not_gt]
    refine ⟨by simpa [isNan, magBits_pack _ hlt] using hm, ?_⟩
    rw [units_eq_magUnits (isNeg_pack _ hlt), magUnits_eq, magBits_pack _ hlt]

/-! ### The fraction of a delay -/

/-- Subtracting its whole part from a value that is not negative leaves the exact rest. -/
theorem fsub_wholeDown {x : F32} (hf : isFinite x = true) (hs : isNeg x = false)
    (hw : wholeDown x < 2 ^ 24) :
    isNan (fsub x (toF32 (wholeDown x))) = false ∧
      units (fsub x (toF32 (wholeDown x))) = units x - units (toF32 (wholeDown x)) ∧
      units x - units (toF32 (wholeDown x)) = (magUnits x % 2 ^ 149 : Nat) := by
  have hnan := (finite_cases hf).1
  have hwf := isFinite_toF32 hw
  have hrest : units x - units (toF32 (wholeDown x)) = (magUnits x % 2 ^ 149 : Nat) := by
    rw [units_eq_magUnits hs, units_toF32 hw]
    unfold wholeDown
    omega
  obtain ⟨m, hm, hu⟩ := exists_unitsOfBits_mod hnan (k := 149) (by decide)
  have hneg : isFinite (fneg (toF32 (wholeDown x))) = true := by
    simpa [isFinite] using hwf
  obtain ⟨h1, h2⟩ := addWith_exact hf hneg hm (by rw [units_fneg, hu]; omega) .sub x (toF32 (wholeDown x))
  have hsub : fsub x (toF32 (wholeDown x)) =
      addWith .sub x (toF32 (wholeDown x)) x (fneg (toF32 (wholeDown x))) := by
    simp [fsub, hnan, isNan_toF32]
  rw [hsub]
  exact ⟨h1, by rw [h2, units_fneg]; omega, hrest⟩

/-- A delay the callers guarantee is finite, and its whole part is that of its magnitude. -/
theorem delay_cases {n : Nat} {d : F32} (hn : n < 2 ^ 24) (h : within Lit.d1 (toF32 n) d = true) :
    isFinite d = true ∧ isNeg d = false ∧ toNat (ffloor d) = wholeDown d ∧
      1 ≤ wholeDown d ∧ wholeDown d ≤ n := by
  have hf : isFinite d = true := isFinite_of_within (by decide) (isFinite_toF32 hn) h
  obtain ⟨hs, hlo, hhi⟩ := magUnits_of_within (by decide) h
  rw [magUnits_toF32 hn] at hhi
  rw [show magUnits Lit.d1 = 2 ^ 149 by decide] at hlo
  have hw : 1 ≤ wholeDown d ∧ wholeDown d ≤ n := by unfold wholeDown; omega
  exact ⟨hf, hs, by rw [ffloor_of_not_neg hf hs, toNat_toF32 (by omega)], hw⟩

/-- Settles O40: the read is its definition, the fraction of the delay is exact, and a residue modulo the
length stays below it. -/
theorem interpBlendsTwoWords : Obligations.InterpBlendsTwoWords := by
  refine ⟨fun m w n d => rfl, fun n d h3 hn h => ?_,
    fun m m' w n d hn h => (interp_congr_inUse hn (fun a ha => (h a ha).symm) w d).symm⟩
  obtain ⟨hf, hs, hdi, hlo, hhi⟩ := delay_cases (by omega) h
  obtain ⟨hnan, hexact, hrest⟩ := fsub_wholeDown hf hs (by omega)
  have hlt : magUnits d % 2 ^ 149 < 2 ^ 149 := Nat.mod_lt _ (by decide)
  have hzero : units Lit.zero = 0 := by decide
  have hone : units Lit.d1 = 2 ^ 149 := by decide
  simp only [hdi]
  refine ⟨hlo, hhi, hexact, (fle_iff (by decide) hnan).2 ?_, (flt_iff hnan (by decide)).2 ?_⟩ <;> omega

end Sys2Proof.Machine
end

section
/-! Framing, decoding and encoding of the command words (30_encoding.md R91 to R97): a port takes as many
words as the head word says, and on those that R96 leaves legal decoding and encoding undo each other. -/

namespace Sys2Proof.Machine

/-! ### The fields of a head word (R92, R93) -/

theorem head_eq_ofNat_fields {w0 : Word} {op arg : Nat} (hop : opOf w0 = op) (harg : argOf w0 = arg) :
    w0 = BitVec.ofNat 32 (op * 2 ^ 24 + arg) := by
  rw [← hop, ← harg, opOf, argOf, Nat.div_add_mod', BitVec.ofNat_toNat, BitVec.setWidth_eq]

theorem argOf_ofNat_fields {op arg : Nat} (harg : arg < 2 ^ 24) :
    argOf (BitVec.ofNat 32 (op * 2 ^ 24 + arg)) = arg := by
  rw [argOf, BitVec.toNat_ofNat]
  omega

theorem chanOfBit_index (ch : Chan) : chanOfBit ch.index = ch := by cases ch <;> rfl

theorem index_chanOfBit {b : Nat} (h : b < 2) : (chanOfBit b).index = b := by
  interval_cases b <;> rfl

/-- A head word has one of the six opcodes of R94 or an undefined one. -/
theorem opOf_cases (w0 : Word) :
    opOf w0 = 0x01 ∨ opOf w0 = 0x02 ∨ opOf w0 = 0x03 ∨ opOf w0 = 0x04 ∨ opOf w0 = 0x05 ∨
      opOf w0 = 0x10 ∨ opOf w0 ∉ [0x01, 0x02, 0x03, 0x04, 0x05, 0x10] := by
  simp only [List.mem_cons, List.not_mem_nil, or_false]
  tauto

theorem cmdLength_eq_ite (w0 : Word) :
    cmdLength w0 = if opOf w0 = 0x01 then 3 else if opOf w0 = 0x10 then 2 else 1 := by
  unfold cmdLength
  split <;> simp_all

/-! ### The decoder, one equation per opcode (R94, R97) -/

section
variable {p : Port} {w0 : Word} {ext : List Word}

theorem decode_prepare (h : opOf w0 = 0x01) :
    decode p w0 ext = checked p (argOf w0 == 0) (.prepare (ext.getD 0 0) (ext.getD 1 0)) := by
  simp only [decode, h]

theorem decode_reset (h : opOf w0 = 0x02) : decode p w0 ext = checked p (argOf w0 == 0) .reset := by
  simp only [decode, h]

theorem decode_pblock (h : opOf w0 = 0x03) : decode p w0 ext = checked p true (.pblock (argOf w0)) := by
  simp only [decode, h]

theorem decode_psample (h : opOf w0 = 0x04) :
    decode p w0 ext = checked p (argOf w0 == 0) .psample := by
  simp only [decode, h]

theorem decode_rdenv (h : opOf w0 = 0x05) :
    decode p w0 ext = checked p (argOf w0 / 2 == 0) (.rdenv (chanOfBit (argOf w0))) := by
  simp only [decode, h]

theorem decode_wrparam (h : opOf w0 = 0x10) :
    decode p w0 ext =
      checked p (argOf w0 / 2 ^ 5 == 0) (.wrparam (argOf w0 % 2 ^ 5) (ext.getD 0 0)) := by
  simp only [decode, h]

theorem decode_undefined (h : opOf w0 ∉ [0x01, 0x02, 0x03, 0x04, 0x05, 0x10]) :
    decode p w0 ext = .illegal .undefinedOp := by
  unfold decode
  split <;> simp_all

end

theorem checked_eq_legal_iff {p : Port} {clear : Bool} {i j : Instr} :
    checked p clear i = .legal j ↔ clear = true ∧ i.port = p ∧ i = j := by
  cases clear with
  | false => simp [checked]
  | true => by_cases h : p = i.port <;> simp [checked, h, eq_comm]

theorem checked_illegal_iff {p : Port} {clear : Bool} {i : Instr} :
    (∃ why, checked p clear i = .illegal why) ↔ clear = false ∨ i.port ≠ p := by
  cases clear with
  | false => simp [checked]
  | true => by_cases h : p = i.port <;> simp [checked, h, eq_comm]

/-! ### Framing (R91) -/

/-- A port answers the command whose words, as many as its head word says, are first there. -/
theorem takeCommand_eq_some_iff {p : Port} {ws : List Word} {d : Decoded} {rest : List Word} :
    takeCommand p ws = some (d, rest) ↔
      ∃ w0 ext, ws = w0 :: ext ++ rest ∧ (w0 :: ext).length = cmdLength w0 ∧ decode p w0 ext = d := by
  constructor
  · intro h
    cases ws with
    | nil => cases h
    | cons w0 tail =>
      have hpos := cmdLength_pos w0
      simp only [takeCommand] at h
      split at h
      · cases h
      · cases h
        refine ⟨w0, tail.take (cmdLength w0 - 1), by simp, ?_, rfl⟩
        rw [List.length_cons, List.length_take]
        omega
  · rintro ⟨w0, ext, rfl, hlen, rfl⟩
    have hext : cmdLength w0 - 1 = ext.length := by rw [← hlen, List.length_cons, Nat.add_sub_cancel]
    simp [takeCommand, hext]

theorem takeCommand_of_short {p : Port} {w0 : Word} {ws : List Word} (h : 1 + ws.length < cmdLength w0) :
    takeCommand p (w0 :: ws) = none := by
  simp only [takeCommand]
  rw [if_pos (by omega)]

theorem takeCommand_of_whole (p : Port) {w0 : Word} {ws : List Word}
    (h : cmdLength w0 ≤ 1 + ws.length) :
    takeCommand p (w0 :: ws) =
      some (decode p w0 (ws.take (cmdLength w0 - 1)), (w0 :: ws).drop (cmdLength w0)) := by
  obtain ⟨n, hn⟩ : ∃ n, cmdLength w0 = n + 1 := Nat.exists_eq_add_one.2 (cmdLength_pos w0)
  simp only [takeCommand, hn, Nat.add_sub_cancel, List.drop_succ_cons]
  rw [if_neg (by omega)]

/-! ### Encodings are framed and decode (R94, R95, R97) -/

theorem encode_framing (i : Instr) : Laws.Framing.Statement i := by
  cases i with
  | prepare fs maxblk => exact Laws.Framing.prepare fs maxblk
  | reset => exact Laws.Framing.reset
  | pblock n => exact Laws.Framing.pblock n
  | psample => exact Laws.Framing.psample
  | rdenv ch => exact Laws.Framing.rdenv ch
  | wrparam k value => exact Laws.Framing.wrparam k value

theorem encode_ne_nil (i : Instr) : encode i ≠ [] := by cases i <;> exact List.cons_ne_nil _ _

/-- The decoder reads the fields and the extension words the encoder wrote. -/
theorem decode_encode {i : Instr} (h : i.wellFormed = true) :
    decode i.port ((encode i).headD 0) (encode i).tail = .legal i := by
  obtain ⟨-, hop⟩ := encode_framing i h
  cases i with
  | prepare fs maxblk =>
    have harg : argOf 0x01000000#32 = 0 := rfl
    rw [decode_prepare hop, checked_eq_legal_iff]
    exact ⟨beq_of_eq harg, rfl, rfl⟩
  | reset => rw [decode_reset hop]; rfl
  | pblock n =>
    have harg : argOf (BitVec.ofNat 32 (0x03000000 + n)) = n :=
      argOf_ofNat_fields (op := 0x03) (of_decide_eq_true h)
    rw [decode_pblock hop, checked_eq_legal_iff]
    exact ⟨rfl, rfl, congrArg _ harg⟩
  | psample => rw [decode_psample hop]; rfl
  | rdenv ch => rw [decode_rdenv hop]; cases ch <;> rfl
  | wrparam k value =>
    have hk : k < 2 ^ 5 := of_decide_eq_true h
    have harg : argOf (BitVec.ofNat 32 (0x10000000 + k)) = k :=
      argOf_ofNat_fields (op := 0x10) (by omega)
    rw [decode_wrparam hop, checked_eq_legal_iff]
    simp only [encode, List.headD_cons, harg]
    exact ⟨by simpa using Nat.div_eq_of_lt hk, rfl, by rw [Nat.mod_eq_of_lt hk]; rfl⟩

/-- Settles O2: an encoding is as long as its head word says, so the port takes exactly its words. -/
theorem decodeInvertsEncode : Obligations.DecodeInvertsEncode := by
  intro i rest h
  obtain ⟨w0, ext, hwords⟩ := List.exists_cons_of_ne_nil (encode_ne_nil i)
  have hlen := (encode_framing i h).1
  have hdec := decode_encode h
  rw [hwords] at hlen hdec ⊢
  exact takeCommand_eq_some_iff.2 ⟨w0, ext, rfl, hlen, hdec⟩

/-! ### Words that decode are an encoding (R93, R96) -/

/-- The words of a command are determined by what they decode to: the reserved bits are clear, so the
opcode and the operands are all there is in them. -/
theorem encode_of_decode {p : Port} {w0 : Word} {ext : List Word} {i : Instr}
    (hlen : (w0 :: ext).length = cmdLength w0) (h : decode p w0 ext = .legal i) :
    i.wellFormed = true ∧ i.port = p ∧ encode i = w0 :: ext := by
  rw [cmdLength_eq_ite, List.length_cons] at hlen
  rcases opOf_cases w0 with hop | hop | hop | hop | hop | hop | hop
  · rw [decode_prepare hop, checked_eq_legal_iff] at h
    obtain ⟨harg, hport, rfl⟩ := h
    simp only [hop, if_true] at hlen
    obtain ⟨fs, maxblk, rfl⟩ := List.length_eq_two.1 (Nat.succ.inj hlen)
    rw [head_eq_ofNat_fields hop (eq_of_beq harg)]
    exact ⟨rfl, hport, rfl⟩
  · rw [decode_reset hop, checked_eq_legal_iff] at h
    obtain ⟨harg, hport, rfl⟩ := h
    obtain rfl : ext = [] := by simpa [hop] using hlen
    rw [head_eq_ofNat_fields hop (eq_of_beq harg)]
    exact ⟨rfl, hport, rfl⟩
  · rw [decode_pblock hop, checked_eq_legal_iff] at h
    obtain ⟨-, hport, rfl⟩ := h
    obtain rfl : ext = [] := by simpa [hop] using hlen
    exact ⟨decide_eq_true (Nat.mod_lt _ (by decide)), hport,
      congrArg (· :: []) (head_eq_ofNat_fields hop rfl).symm⟩
  · rw [decode_psample hop, checked_eq_legal_iff] at h
    obtain ⟨harg, hport, rfl⟩ := h
    obtain rfl : ext = [] := by simpa [hop] using hlen
    rw [head_eq_ofNat_fields hop (eq_of_beq harg)]
    exact ⟨rfl, hport, rfl⟩
  · rw [decode_rdenv hop, checked_eq_legal_iff] at h
    obtain ⟨harg, hport, rfl⟩ := h
    obtain rfl : ext = [] := by simpa [hop] using hlen
    have hbit : argOf w0 < 2 := by simpa using harg
    refine ⟨rfl, hport, ?_⟩
    rw [encode, index_chanOfBit hbit]
    exact congrArg (· :: []) (head_eq_ofNat_fields hop rfl).symm
  · rw [decode_wrparam hop, checked_eq_legal_iff] at h
    obtain ⟨harg, hport, rfl⟩ := h
    obtain ⟨value, rfl⟩ := List.length_eq_one_iff.1 (show ext.length = 1 by simpa [hop] using hlen)
    have hk : argOf w0 < 2 ^ 5 := by simpa using harg
    refine ⟨decide_eq_true (Nat.mod_lt _ (by decide)), hport, ?_⟩
    rw [encode, Nat.mod_eq_of_lt hk]
    exact congrArg (· :: [value]) (head_eq_ofNat_fields hop rfl).symm
  · rw [decode_undefined hop] at h
    cases h

/-- Settles O3: the words taken are the encoding of what they decode to. -/
theorem legalWordsAreEncodings : Obligations.LegalWordsAreEncodings := by
  intro p ws i rest h
  obtain ⟨w0, ext, rfl, hlen, hdec⟩ := takeCommand_eq_some_iff.1 h
  obtain ⟨hwf, hport, hwords⟩ := encode_of_decode hlen hdec
  exact ⟨hwf, hport, by rw [hwords]⟩

/-- Settles O4, by the opcode: a defined one leaves the checks of the reserved bits and of the port. -/
theorem illegalEncodingCases : Obligations.IllegalEncodingCases := by
  intro p w0 ext
  rcases opOf_cases w0 with hop | hop | hop | hop | hop | hop | hop
  · rw [decode_prepare hop, checked_illegal_iff]
    cases p <;> simp [hop, Instr.port]
  · rw [decode_reset hop, checked_illegal_iff]
    cases p <;> simp [hop, Instr.port]
  · rw [decode_pblock hop, checked_illegal_iff]
    cases p <;> simp [hop, Instr.port]
  · rw [decode_psample hop, checked_illegal_iff]
    cases p <;> simp [hop, Instr.port]
  · rw [decode_rdenv hop, checked_illegal_iff]
    cases p <;> simp [hop, Instr.port]
  · rw [decode_wrparam hop, checked_illegal_iff]
    cases p <;> simp [hop, Instr.port]
  · rw [decode_undefined hop]
    exact iff_of_true ⟨_, rfl⟩ (.inl hop)

/-- Settles O5: what `takeCommand` does with a head word depends on the words after it by their number
only. -/
theorem opcodeAloneFramesCommands : Obligations.OpcodeAloneFramesCommands :=
  ⟨fun _ => rfl, fun p _ _ => ⟨takeCommand_of_short, fun h => ⟨_, takeCommand_of_whole p h⟩⟩,
    cmdLength_eq_ite⟩

/-- Settles O1: each worked encoding is the encoding of its command, which decodes to it (R100). -/
theorem workedEncodingsDecode : Obligations.WorkedEncodingsDecode :=
  ⟨decodeInvertsEncode (.prepare 0x472C4400#32 512#32) [] rfl, decodeInvertsEncode .reset [] rfl,
    decodeInvertsEncode (.pblock 4) [] rfl, decodeInvertsEncode .psample [] rfl,
    decodeInvertsEncode (.rdenv .right) [] rfl,
    decodeInvertsEncode (.wrparam 17 0x00000000#32) [] rfl,
    decodeInvertsEncode (.wrparam 10 0x43C80000#32) [] rfl, rfl⟩

end Sys2Proof.Machine
end

section
/-! The response of a command (30_encoding.md R98, 40_host_commands.md R110): a body answers nothing itself, so
a command on `CMD` answers the one word of its end; and the whole next state of an illegal encoding and of a
legal `PREPARE` where no host waits. -/

namespace Sys2Proof.Machine

/-! ### No body answers a word -/

theorem sampleKeeps_rsp (N : NumFns) (n : Nat) (words : List Word) :
    SampleKeeps N n fun s => s.rsp = words where
  toHostKeeps := hostKeeps_of_frame fun hf h => hf.rsp.trans h
  smooth := fun _ h => h
  turn := fun c _ h => (setChan_rsp c _ _).trans h
  write := fun c i w _ h => (ioWrite_rsp c i w _).trans h

theorem latchAll_rsp (s : State) : (latchAll s).rsp = s.rsp := (latchAll_frame s).rsp

theorem clearAll_rsp (s : State) : (clearAll s).rsp = s.rsp := latchAll_rsp s

theorem prepareBody_rsp (N : NumFns) (fs : F32) (mb : U32) (s : State) :
    (prepareBody N fs mb s).rsp = s.rsp := by
  by_cases h : prepareFlags s.cfg fs mb = 0#32
  · rw [prepareBody_legal h, markPrepared_rsp, clearAll_rsp, configure_rsp]
  · rw [prepareBody_illegal h, raiseFault_rsp]

theorem resetBody_rsp (s : State) : (resetBody s).rsp = s.rsp := by
  cases h : s.prepared with
  | false => rw [resetBody_unprepared h, raiseFault_rsp]
  | true => rw [resetBody_prepared h, clearAll_rsp]

theorem pblockBody_rsp (N : NumFns) (n : Nat) (s : State) : (pblockBody N n s).rsp = s.rsp := by
  by_cases h : pblockFlags s n = 0#32
  · rw [pblockBody_legal h]
    exact (sampleKeeps_rsp N n s.rsp).steps (latchAll_rsp s)
  · rw [pblockBody_illegal h, raiseFault_rsp]

theorem commandBody_rsp (i : Instr) (s : State) : (commandBody i s).rsp = s.rsp := by
  cases i with
  | prepare fs mb => exact prepareBody_rsp _ fs mb s
  | reset => exact resetBody_rsp s
  | pblock n => exact pblockBody_rsp _ n s
  | psample => exact pblockBody_rsp _ 1 s
  | rdenv ch => rfl
  | wrparam k v => exact writeParam_rsp k v s

/-! ### The one response word (R98) -/

/-- A command answers one word after those its body answers, read once the hosts are done (U6). -/
theorem runCommand_rsp (body : State → State) (response : State → Word) (s : State) :
    (runCommand body response s).rsp =
      (body (beginCommand s)).rsp ++ [response (hostPoint (body (beginCommand s)))] := by
  rw [runCommand, endCommand_rsp, hostPoint_rsp]

theorem commandResponse_of_ne_rdenv {i : Instr} (h : ∀ ch, i ≠ .rdenv ch) :
    commandResponse i = statusWord := by
  cases i with
  | rdenv ch => exact absurd rfl (h ch)
  | _ => rfl

/-- No host writes `ENVOUT`. -/
theorem envWord_hostPoint (ch : Chan) (s : State) : envWord ch (hostPoint s) = envWord ch s := by
  cases ch with
  | left => exact congrArg Channel.envOut (hostPoint_chL s)
  | right => exact congrArg Channel.envOut (hostPoint_chR s)

/-- Settles O30: a command on `CMD` is its body and its end, which answers the word; `WRPARAM` has no end. -/
theorem oneResponsePerCommand : Obligations.OneResponsePerCommand := by
  intro i s
  rw [exec_eq]
  cases hport : i.port with
  | cmd =>
    refine ⟨_, rfl, fun _ => ⟨runCommand_busy _ _ s,
      commandResponse i (hostPoint (commandBody i (beginCommand s))), ?_, fun ch hi => ?_,
      fun hne => ?_⟩, nofun⟩
    · rw [runCommand_rsp, commandBody_rsp, beginCommand_rsp]
    · subst hi
      exact envWord_hostPoint ch (beginCommand s)
    · rw [commandResponse_of_ne_rdenv hne]
      rfl
  | ctl => exact ⟨_, rfl, nofun, fun _ => commandBody_rsp i s⟩

/-! ### An illegal encoding (R96, R232) -/

theorem commandTurn_illegal {p : Port} {s t : State} {why : Illegal}
    (h : fetch p s = some (.illegal why, t)) : commandTurn p s = .next (illegalOn p t) := by
  simp [commandTurn, h]

/-- An illegal encoding on `CMD` where no host waits. -/
theorem illegalCommand_quiet {s : State} (h : s.quiet = true) :
    illegalCommand s = { s with
      busy := false
      status := s.status ||| maskBadOp
      rsp := s.rsp ++ [s.status ||| maskBadOp] } :=
  runCommand_quiet ((quiet_congr (s := s) rfl rfl).trans h)

/-- Where `CMD` alone has something no host waits. -/
theorem quiet_of_sources_cmd {s : State} (h : s.sources = [.cmd]) : s.quiet = true := by
  have hmem : s.memReady = false := by simp [State.memReady, mem_of_sources_cmd h]
  rw [sources_eq] at h
  cases hctl : s.ctlReady with
  | true => simp [hmem, hctl] at h
  | false => simp [State.quiet, hmem, hctl]

/-- Where `CMD` has something no command is in flight (R110). -/
theorem not_busy_of_sources_cmd {s : State} (h : s.sources = [.cmd]) : s.busy = false := by
  have hready : s.cmdReady = true := cmd_mem_sources_iff.1 (by simp [h])
  obtain ⟨-, hbusy, -⟩ := cmdReady_iff.1 hready
  exact hbusy

/-- Settles O8: the turn of a port with an illegal encoding raises the one flag, and with one port ready the
step is its turn. -/
theorem illegalEncodingSetsBadOp : Obligations.IllegalEncodingSetsBadOp := by
  intro s why rest hg
  refine ⟨fun hs h => ?_, fun hs h => ?_⟩
  · have hq : State.quiet { s with cmd := rest } = true :=
      (quiet_congr (s := s) rfl rfl).trans (quiet_of_sources_cmd hs)
    rw [step_of_one_source hg hs, serve, commandTurn_illegal (fetch_cmd h),
      tookCmd_of_no_mem (mem_of_sources_cmd hs), illegalOn, illegalCommand_quiet hq,
      ← not_busy_of_sources_cmd hs]
    rfl
  · rw [step_of_one_source hg hs, serve, commandTurn_illegal (fetch_ctl h)]
    rfl

/-! ### A legal `PREPARE` (R111, R112) -/

/-- The checks of `PREPARE` pass on a rate and a block length in range. -/
theorem prepareFlags_of_legal {g : Cfg} {fs : F32} {mb : U32} (hmin : fge fs g.fsMin = true)
    (hmax : fle fs g.fsMax = true) (hpos : 1 ≤ mb.toNat) (hcap : mb.toNat ≤ g.iobufCap) :
    prepareFlags g fs mb = 0#32 :=
  prepareFlags_eq_zero_iff.2 ⟨by simp [fsLegal, hmin, hmax], by simp [maxblkLegal, hpos, hcap]⟩

/-- The body of a legal `PREPARE` where no host waits. -/
theorem prepareBody_legal_quiet {N : NumFns} {fs : F32} {mb : U32} {s : State} (h : s.quiet = true)
    (hf : prepareFlags s.cfg fs mb = 0#32) :
    prepareBody N fs mb s = { s with
      conf := Conf.computed N s.cfg fs mb
      tgt := tab18 fun k => clampP k s.prm[k]
      sm := tab18 fun k => clampP k s.prm[k]
      chL := s.chL.cleared (Conf.computed N s.cfg fs mb) s.cfg.seedL
      chR := s.chR.cleared (Conf.computed N s.cfg fs mb) s.cfg.seedR
      status := s.status ||| maskPrepared } := by
  have hq : (configure N fs mb s).quiet = true := (quiet_congr (s := s) rfl rfl).trans h
  rw [prepareBody_legal hf, clearAll_quiet hq]
  rfl

/-- Settles O14: the body of a legal `PREPARE` lets no host wait, so the response follows at once. -/
theorem legalPrepareCompletes : Obligations.LegalPrepareCompletes := by
  intro fs mb s h hmin hmax hpos hcap
  have hq : (beginCommand s).quiet = true := (quiet_congr (s := s) rfl rfl).trans h
  have hbody := prepareBody_legal_quiet (N := Config.num) hq (prepareFlags_of_legal hmin hmax hpos hcap)
  have hrun := runCommand_quiet (response := statusWord) (body := prepareBody Config.num fs mb) (s := s)
    (by rw [hbody]; exact (quiet_congr (s := s) rfl rfl).trans h)
  rw [hbody] at hrun
  exact congrArg _ hrun

end Sys2Proof.Machine
end

section
/-! The outcomes of the commands where no host waits (40_host_commands.md R112, R118, R120, R123, R124, R126),
and two facts that hold whatever the hosts do: what a legal `PREPARE` computes (R113 to R116), and that
`RESET` is the `PREPARE` in force (R259). -/

namespace Sys2Proof.Machine

theorem beginCommand_quiet (s : State) : (beginCommand s).quiet = s.quiet := quiet_congr rfl rfl

/-- A command that only raises one flag, where no host waits: the flag is in the `STATUS` it answers (R98,
R231). -/
theorem runCommand_raise_quiet {body : State → State} {f : U32} {s : State} (h : s.quiet = true)
    (hb : body (beginCommand s) = raiseFault f (beginCommand s)) :
    runCommand body statusWord s =
      { s with status := s.status ||| f, busy := false, rsp := s.rsp ++ [s.status ||| f] } := by
  have hq : (body (beginCommand s)).quiet = true := by
    rw [hb]
    exact (quiet_congr (s := s) rfl rfl).trans h
  rw [runCommand_quiet hq, hb]
  rfl

/-! ### `PREPARE` (R111 to R116) -/

/-- The flags of a `PREPARE`, each by its own check (R112). -/
theorem prepareFlags_eq (g : Cfg) (fs : F32) (mb : U32) :
    prepareFlags g fs mb =
      (if fge fs g.fsMin = true ∧ fle fs g.fsMax = true then 0#32 else maskBadFs) |||
      (if 1 ≤ mb.toNat ∧ mb.toNat ≤ g.iobufCap then 0#32 else maskBadBlk) := by
  simp [prepareFlags, fsLegal, maxblkLegal]

/-- Settles O15: one of the two checks fails, so the body raises their flags and nothing else. -/
theorem illegalPrepareOnlyFlags : Obligations.IllegalPrepareOnlyFlags := by
  intro fs mb s h hbad
  have hf : prepareFlags s.cfg fs mb ≠ 0#32 := by
    intro hzero
    obtain ⟨hfs, hmb⟩ := prepareFlags_eq_zero_iff.1 hzero
    exact hbad (by simpa [fsLegal, maxblkLegal, and_assoc] using And.intro hfs hmb)
  have hrun := runCommand_raise_quiet h (prepareBody_illegal (N := Config.num) (s := beginCommand s) hf)
  rw [beginCommand_cfg, prepareFlags_eq] at hrun
  exact congrArg _ hrun

/-- A legal `PREPARE` leaves the computed configuration registers, whatever the hosts do (R111). -/
theorem execPrepare_conf {fs : F32} {mb : U32} {s : State} (hf : prepareFlags s.cfg fs mb = 0#32) :
    ∃ t, exec (.prepare fs mb) s = .next t ∧ t.conf = Conf.computed Config.num s.cfg fs mb := by
  have hclear := (commandKeeps_conf (Conf.computed Config.num s.cfg fs mb)).clear
    (s := configure Config.num fs mb (beginCommand s)) rfl
  refine ⟨_, rfl, ?_⟩
  rw [runCommand, endCommand_conf, hostPoint_conf, prepareBody_legal (s := beginCommand s) hf,
    markPrepared_conf, hclear]

theorem fneg_one : fneg Lit.d1 = Lit.n1 := by decide

theorem fneg_two : fneg Lit.d2 = Lit.n2 := by decide

/-- Settles O16: the registers are the computed ones, which are the formulas of R113 and R114. -/
theorem prepareCoefficients : Obligations.PrepareCoefficients := by
  intro fs mb s hf
  obtain ⟨t, ht, hconf⟩ := execPrepare_conf hf
  refine ⟨t, ht, ?_⟩
  rw [hconf, fneg_one, fneg_two]
  exact ⟨rfl, rfl, rfl, rfl, rfl, rfl, rfl, rfl, rfl, rfl, rfl⟩

theorem computed_len (N : NumFns) (g : Cfg) (fs : F32) (mb : U32) (i : Fin 8) :
    (Conf.computed N g fs mb).len[i] = lineLength g.fdnBase[i] fs :=
  tab8_get (fun i => lineLength g.fdnBase[i] fs) i

theorem computed_nbuf (N : NumFns) (g : Cfg) (fs : F32) (mb : U32) (i : Fin 8) :
    (Conf.computed N g fs mb).nbuf[i] = lineLength g.fdnBase[i] fs + guardLength fs :=
  tab8_get (fun i => lineLength g.fdnBase[i] fs + guardLength fs) i

/-- Settles O17: the registers are the computed ones, which are the formulas of R115 and R116. -/
theorem prepareGeometry : Obligations.PrepareGeometry := by
  intro fs mb s hf
  obtain ⟨t, ht, hconf⟩ := execPrepare_conf hf
  refine ⟨t, ht, ?_⟩
  rw [hconf]
  refine ⟨computed_len _ _ fs mb, rfl, fun i => ?_, rfl, rfl⟩
  rw [computed_nbuf, computed_len]
  rfl

/-! ### `RESET` (R118, R259) -/

/-- Settles O18: unprepared `RESET` raises its flag; prepared it is the clearing sequence and the response. -/
theorem resetCompletes : Obligations.ResetCompletes := by
  intro s h
  have hq := (beginCommand_quiet s).trans h
  refine ⟨fun hp => congrArg _ (runCommand_raise_quiet h (resetBody_unprepared hp)), fun hp => ?_⟩
  have hbody : resetBody (beginCommand s) = _ :=
    (resetBody_prepared (s := beginCommand s) hp).trans (clearAll_quiet hq)
  have hrun := runCommand_quiet (response := statusWord) (body := resetBody) (s := s)
    (by rw [hbody]; exact (quiet_congr (s := s) rfl rfl).trans h)
  rw [hbody] at hrun
  exact congrArg _ hrun

theorem prepared_iff_flagsSet {s : State} : s.prepared = true ↔ FlagsSet maskPrepared s := by
  rw [State.prepared, FlagsSet, BitVec.and_comm, beq_iff_eq]

theorem or_eq_of_and_eq {a b : U32} (h : a &&& b = a) : b ||| a = b := by
  rw [← h]
  ext i
  simp only [BitVec.getElem_or, BitVec.getElem_and]
  cases b[i] <;> simp

/-- A prepared core is as before when marked prepared again. -/
theorem markPrepared_of_prepared {s : State} (h : s.prepared = true) : markPrepared s = s := by
  rw [markPrepared, or_eq_of_and_eq (prepared_iff_flagsSet.1 h)]

/-- The clearing sequence leaves a prepared core prepared, whatever the hosts do (R118). -/
theorem clearAll_prepared {s : State} (h : s.prepared = true) : (clearAll s).prepared = true :=
  prepared_iff_flagsSet.2 ((commandKeeps_flagsSet maskPrepared).clear (prepared_iff_flagsSet.1 h))

/-- Configuring again with the rate and the block size in force changes nothing. -/
theorem configure_in_force {N : NumFns} {s : State}
    (h : s.conf = Conf.computed N s.cfg s.conf.fs s.conf.maxblk) :
    configure N s.conf.fs s.conf.maxblk s = s := by
  rw [configure, ← h]

/-- Settles O58: with the rate and block size in force `PREPARE` computes the registers that stand, and
`PREPARED` is set already, so the clearing sequence remains. -/
theorem resetIsPrepareAgain : Obligations.ResetIsPrepareAgain := by
  intro s hinv hp
  have hconf : configure Config.num s.conf.fs s.conf.maxblk (beginCommand s) = beginCommand s :=
    configure_in_force (s := beginCommand s) (hinv.conf hp)
  have hprepare : prepareBody Config.num s.conf.fs s.conf.maxblk (beginCommand s) =
      clearAll (beginCommand s) := by
    rw [prepareBody_legal (s := beginCommand s) (hinv.legal hp), hconf,
      markPrepared_of_prepared (clearAll_prepared (s := beginCommand s) hp)]
  have hreset : resetBody (beginCommand s) = clearAll (beginCommand s) := resetBody_prepared hp
  simp only [exec, execReset, execPrepare, runCommand, hprepare, hreset]

/-! ### `PBLOCK` and `PSAMPLE` (R120, R123) -/

theorem pblockFlags_unprepared {s : State} (h : s.prepared = false) (n : Nat) :
    pblockFlags s n = maskNotPrep := by simp [pblockFlags, h]

theorem pblockFlags_too_long {s : State} {n : Nat} (hp : s.prepared = true)
    (hn : s.conf.maxblk.toNat < n) : pblockFlags s n = maskBadLen := by simp [pblockFlags, hp, hn]

/-- A `PBLOCK` that faults, where no host waits. -/
theorem execPblock_fault {n : Nat} {f : U32} {s : State} (h : s.quiet = true)
    (hf : pblockFlags s n = f) (hne : f ≠ 0#32) :
    exec (.pblock n) s = .next
      { s with status := s.status ||| f, busy := false, rsp := s.rsp ++ [s.status ||| f] } := by
  subst hf
  exact congrArg _ (runCommand_raise_quiet h (pblockBody_illegal (s := beginCommand s) hne))

/-- Settles O20: the flag is that of the first check that fails. -/
theorem pblockFaults : Obligations.PblockFaults := fun n _ h =>
  ⟨fun hp => execPblock_fault h (pblockFlags_unprepared hp n) (by decide),
    fun hp hn => execPblock_fault h (pblockFlags_too_long hp hn) (by decide)⟩

/-- Settles O21: the sample steps of the legal block leave `STATUS` and the responses alone. -/
theorem legalPblockCompletes : Obligations.LegalPblockCompletes := by
  intro n s h hp hn
  have hframe := sampleSteps_blockFrame
    (uLatch_quiet_quiet ((beginCommand_quiet s).trans h)) Config.num (i := 0) (Nat.zero_add n).le
  rw [execPblock_legal h hp hn]
  rw [uLatch_beginCommand_quiet h] at hframe ⊢
  obtain ⟨_, _, _, _, _, _, hrest⟩ := hframe.rest
  rw [hrest]
  rfl

/-- Settles O24: `PSAMPLE` runs the body of `PBLOCK 1`; the block size in force is at least 1. -/
theorem psampleIsPblockOne : Obligations.PsampleIsPblockOne := by
  refine ⟨fun _ => rfl, fun s hinv h hp => ?_⟩
  obtain ⟨-, hmb⟩ := prepareFlags_eq_zero_iff.1 (hinv.legal hp)
  have hone : 1 ≤ s.conf.maxblk.toNat := by
    simp only [maxblkLegal, Bool.and_eq_true, decide_eq_true_eq] at hmb
    exact hmb.1
  exact legalPblockCompletes 1 s h hp hone

/-! ### `RDENV` and `WRPARAM` (R124, R126) -/

/-- Settles O25: the body does nothing, so the response is read from the state the command was taken in. -/
theorem rdenvAnswersEnvelope : Obligations.RdenvAnswersEnvelope := by
  intro ch s h
  have hrun := runCommand_quiet (body := rdenvBody) (response := envWord ch)
    ((beginCommand_quiet s).trans h)
  cases ch <;> exact congrArg _ hrun

theorem paramOf_of_lt {k : Nat} (h : k < 18) : paramOf k = some ⟨k, h⟩ := dif_pos h

theorem paramOf_of_le {k : Nat} (h : 18 ≤ k) : paramOf k = none := dif_neg (by omega)

theorem writeParam_of_lt {k : Nat} (h : k < 18) (v : F32) (s : State) :
    writeParam k v s = { s with prm := s.prm.set k v h } := by
  simp [writeParam, paramOf_of_lt h]

theorem writeParam_of_le {k : Nat} (h : 18 ≤ k) (v : F32) (s : State) :
    writeParam k v s = raiseFault maskBadIdx s := by
  simp [writeParam, paramOf_of_le h]

/-- Settles O26: the index names a parameter or it does not. -/
theorem wrparamStoresOrFaults : Obligations.WrparamStoresOrFaults := fun _ v s =>
  ⟨fun h => congrArg _ (writeParam_of_lt h v s), fun h => congrArg _ (writeParam_of_le h v s)⟩

end Sys2Proof.Machine
end

section
/-! Two blocks as one (40_host_commands.md R121): the sample steps of the second block, on samples moved to
the front of `IOBUF`, run beside those of the long block. -/

namespace Sys2Proof.Machine

/-! ### The sample steps of the long block -/

theorem sampleSteps_add (N : NumFns) (m n i : Nat) (s : State) :
    sampleSteps N (m + n) i s = sampleSteps N n (i + m) (sampleSteps N m i s) := by
  induction m generalizing i s with
  | zero => rw [Nat.zero_add]; rfl
  | succ m ih =>
    rw [Nat.add_right_comm, sampleSteps, ih, Nat.add_right_comm, sampleSteps, Nat.add_assoc]

theorem ioRead_channelTurn_other {s : State} (h : s.quiet = true) (N : NumFns) (c d : Chan)
    {i j : Nat} (hj : j ≠ i) : (channelTurn N c i s).ioRead d j = s.ioRead d j := by
  rw [channelTurn_quiet h, ioRead_ioWrite_other (.inr hj), ioRead_setChan]

theorem ioRead_sampleStep_other {s : State} (h : s.quiet = true) (N : NumFns) (c : Chan) {i j : Nat}
    (hj : j ≠ i) : (sampleStep N i s).ioRead c j = s.ioRead c j := by
  have hq : (uSmooth { s with sidx := i }).quiet = true := (quiet_congr (s := s) rfl rfl).trans h
  rw [sampleStep, ioRead_channelTurn_other (channelTurn_quiet_quiet hq N .left i) N .right c hj,
    ioRead_channelTurn_other hq N .left c hj]
  cases c <;> rfl

/-- Sample steps from an index upward leave the words below it alone. -/
theorem ioRead_sampleSteps_below {s : State} (h : s.quiet = true) (N : NumFns) (c : Chan)
    {n i j : Nat} (hj : j < i) : (sampleSteps N n i s).ioRead c j = s.ioRead c j := by
  induction n generalizing i s with
  | zero => rfl
  | succ n ih =>
    rw [sampleSteps, ih (sampleStep_quiet_quiet h N i) (by omega),
      ioRead_sampleStep_other h N c (by omega)]

/-! ### The second block beside the long one -/

/-- `t` is `s` but for `IOBUF`, `SIDX` and the responses, and its first `b` samples are those of `s` from
index `a` on. -/
structure ShiftedBy (a b : Nat) (s t : State) : Prop where
  rest : ∃ sidx iobL iobR rsp, t = { s with sidx := sidx, iobL := iobL, iobR := iobR, rsp := rsp }
  io : ∀ (c : Chan) (j : Nat), j < b → t.ioRead c j = s.ioRead c (a + j)

theorem ShiftedBy.quiet {a b : Nat} {s t : State} (hst : ShiftedBy a b s t) : t.quiet = s.quiet := by
  obtain ⟨_, _, _, _, rfl⟩ := hst.rest
  rfl

theorem ShiftedBy.same_end {a b : Nat} {s t : State} (hst : ShiftedBy a b s t) :
    t.chL = s.chL ∧ t.chR = s.chR ∧ t.sm = s.sm ∧ t.tgt = s.tgt ∧ t.status = s.status := by
  obtain ⟨_, _, _, _, rfl⟩ := hst.rest
  exact ⟨rfl, rfl, rfl, rfl, rfl⟩

theorem ShiftedBy.smooth {a b : Nat} {s t : State} (hst : ShiftedBy a b s t) (i j : Nat) :
    ShiftedBy a b (uSmooth { s with sidx := i }) (uSmooth { t with sidx := j }) := by
  obtain ⟨⟨_, _, _, _, rfl⟩, hio⟩ := hst
  exact ⟨⟨_, _, _, _, rfl⟩, fun c j hj => by cases c; exacts [hio .left j hj, hio .right j hj]⟩

/-- A turn at `a + i` beside one at `i` reads the same sample and writes the same output. -/
theorem ShiftedBy.channelTurn {a b : Nat} {s t : State} (hst : ShiftedBy a b s t)
    (h : s.quiet = true) (N : NumFns) (c : Chan) {i : Nat} (hi : i < b) :
    ShiftedBy a b (channelTurn N c (a + i) s) (channelTurn N c i t) := by
  have ht := hst.quiet.trans h
  obtain ⟨hrest, hio⟩ := hst
  rw [channelTurn_quiet h, channelTurn_quiet ht, hio c i hi]
  obtain ⟨_, _, _, _, rfl⟩ := hrest
  refine ⟨by cases c <;> exact ⟨_, _, _, _, rfl⟩, fun d j hj => ?_⟩
  by_cases hdj : d = c ∧ j = i
  · obtain ⟨rfl, rfl⟩ := hdj
    rw [ioRead_ioWrite_self, ioRead_ioWrite_self]
    cases d <;> rfl
  · have hne : d ≠ c ∨ j ≠ i := not_and_or.1 hdj
    rw [ioRead_ioWrite_other hne, ioRead_ioWrite_other (hne.imp_right (by omega)), ioRead_setChan,
      ioRead_setChan]
    exact hio d j hj

theorem ShiftedBy.sampleStep {a b : Nat} {s t : State} (hst : ShiftedBy a b s t)
    (h : s.quiet = true) (N : NumFns) {i : Nat} (hi : i < b) :
    ShiftedBy a b (sampleStep N (a + i) s) (sampleStep N i t) := by
  have hq : (uSmooth { s with sidx := a + i }).quiet = true :=
    (quiet_congr (s := s) rfl rfl).trans h
  have hleft := (hst.smooth (a + i) i).channelTurn hq N .left hi
  exact hleft.channelTurn (channelTurn_quiet_quiet hq N .left _) N .right hi

theorem ShiftedBy.sampleSteps {a b : Nat} {s t : State} (hst : ShiftedBy a b s t)
    (h : s.quiet = true) (N : NumFns) {n i : Nat} (hi : i + n ≤ b) :
    ShiftedBy a b (sampleSteps N n (a + i) s) (sampleSteps N n i t) := by
  induction n generalizing i s t with
  | zero => exact hst
  | succ n ih =>
    exact ih (i := i + 1) (hst.sampleStep h N (by omega)) (sampleStep_quiet_quiet h N _) (by omega)

/-- In the sample steps of a block `BUSY` is set and `TGT` is what the snapshot took (R110, R131). -/
theorem BlockFrame.latched {m : Nat} {s x : State} (h : s.quiet = true)
    (hx : BlockFrame m (uLatch (beginCommand s)) x) :
    x.busy = true ∧ x.tgt = tab18 fun k => clampP k x.prm[k] := by
  obtain ⟨_, _, _, _, _, _, hrest⟩ := hx.rest
  rw [hrest, uLatch_beginCommand_quiet h]
  exact ⟨rfl, rfl⟩

/-- The next block is legal where the long one was (R120). -/
theorem BlockFrame.prepared_conf {m : Nat} {s x : State} (h : s.quiet = true)
    (hx : BlockFrame m (uLatch (beginCommand s)) x) : x.prepared = s.prepared ∧ x.conf = s.conf := by
  obtain ⟨_, _, _, _, _, _, hrest⟩ := hx.rest
  rw [hrest, uLatch_beginCommand_quiet h]
  exact ⟨rfl, rfl⟩

/-- What the host does between two blocks: both sides of `IOBUF` hold other words (R71). -/
def State.withIobuf (mL mR : Cells) (s : State) : State := { s with iobL := mL, iobR := mR }

/-- The snapshot of the next block finds the same parameters, so that block starts where the last one
stopped. -/
theorem uLatch_next_block {x : State} (h : x.quiet = true) (hbusy : x.busy = true)
    (htgt : x.tgt = tab18 fun k => clampP k x.prm[k]) (w : Word) (mL mR : Cells) :
    uLatch (beginCommand ((endCommand w x).withIobuf mL mR)) =
      { x with iobL := mL, iobR := mR, rsp := x.rsp ++ [w] } := by
  have hq : ((endCommand w x).withIobuf mL mR).quiet = true := (quiet_congr (s := x) rfl rfl).trans h
  rw [uLatch_beginCommand_quiet hq]
  exact State.ext rfl rfl htgt.symm rfl rfl hbusy.symm rfl rfl rfl rfl rfl rfl rfl rfl rfl rfl rfl rfl rfl

/-- The second block, on the moved samples, starts shifted against the end `x` of the first. -/
theorem ShiftedBy.next_block {a b : Nat} {s x : State} {w : Word} {mL mR : Cells}
    (h : s.quiet = true) (hx : BlockFrame a (uLatch (beginCommand s)) x) (hxq : x.quiet = true)
    (hmoved : ∀ (c : Chan) (j : Nat), j < b →
      ((endCommand w x).withIobuf mL mR).ioRead c j = s.ioRead c (a + j)) :
    ShiftedBy a b x (uLatch (beginCommand ((endCommand w x).withIobuf mL mR))) := by
  obtain ⟨hbusy, htgt⟩ := hx.latched h
  rw [uLatch_next_block hxq hbusy htgt]
  refine ⟨⟨_, _, _, _, rfl⟩, fun c j hj => ?_⟩
  have hkept : s.ioRead c (a + j) = x.ioRead c (a + j) := by
    rw [hx.io c (a + j) (Nat.le_add_right a j), uLatch_beginCommand_quiet h]
    cases c <;> rfl
  rw [← hkept, ← hmoved c j hj]
  cases c <;> rfl

theorem ioRead_endCommand (w : Word) (c : Chan) (i : Nat) (s : State) :
    (endCommand w s).ioRead c i = s.ioRead c i := by cases c <;> rfl

/-- Settles O60: the long block is its first `a` sample steps and `b` more from index `a`, beside which run
those of the second block. -/
theorem blocksCanBeSplit : Obligations.BlocksCanBeSplit := by
  intro a b s h hp hab
  have hq := uLatch_quiet_quiet ((beginCommand_quiet s).trans h)
  have hframe := sampleSteps_blockFrame hq Config.num (i := 0) (Nat.zero_add a).le
  have hxq := sampleSteps_quiet_quiet hq Config.num a 0
  have hlong := execPblock_legal h hp hab
  have hfirst := execPblock_legal h hp ((Nat.le_add_right a b).trans hab)
  rw [sampleSteps_add, Nat.zero_add] at hlong
  generalize sampleSteps Config.num a 0 (uLatch (beginCommand s)) = x at hlong hfirst hframe hxq
  refine ⟨_, _, hlong, hfirst, fun c j hj => ?_, fun mL mR hmoved => ?_⟩
  · rw [ioRead_endCommand, ioRead_endCommand, ioRead_sampleSteps_below hxq Config.num c hj]
  · obtain ⟨hprep, hconf⟩ := hframe.prepared_conf h
    have hend := (ShiftedBy.next_block h hframe hxq hmoved).sampleSteps hxq Config.num
      (i := 0) (Nat.zero_add b).le
    have hsecond := execPblock_legal (n := b) (s := (endCommand x.status x).withIobuf mL mR)
      ((quiet_congr (s := x) rfl rfl).trans hxq) (hprep.trans hp)
      (((Nat.le_add_left b a).trans hab).trans_eq (congrArg (·.maxblk.toNat) hconf.symm))
    obtain ⟨hL, hR, hsm, htgt, hstatus⟩ := hend.same_end
    refine ⟨_, hsecond, hL, hR, hsm, htgt, hstatus, fun c j hj => ?_⟩
    rw [ioRead_endCommand, ioRead_endCommand, hend.io c j hj]
    rfl

end Sys2Proof.Machine
end

section
/-! The parameter smoother (41_parameter_smoother.md): one step moves a value by a rounded multiple of its
distance from the target (R133), and a distance of zero adds a zero, which only a `−0` notices (R134). -/

namespace Sys2Proof.Machine

/-! ### Zeros of either sign -/

theorem eq_zero_or_negZero {z : F32} (h : magBits z = 0) :
    z = 0x00000000#32 ∨ z = 0x80000000#32 := by
  rw [← pack_self z, h]
  cases isNeg z with
  | false => exact .inl rfl
  | true => exact .inr rfl

/-- An exact sum of zero is a zero, negative where both operands are (R11). -/
theorem addWith_sum_zero {x y : F32} (hx : isFinite x = true) (hy : isFinite y = true)
    (h : units x + units y = 0) (op : NanOp) (a b : F32) :
    addWith op a b x y = pack (isNeg x && isNeg y) 0 := by
  simp [addWith, (finite_cases hx).2, (finite_cases hy).2, h]

/-- The product of a zero and a finite value is a zero. -/
theorem magBits_fmul_of_zero {z x : F32} (hz : magBits z = 0) (hx : isFinite x = true) :
    magBits (fmul z x) = 0 := by
  have hzf : isFinite z = true := by simp [isFinite, hz]
  rw [fmul_finite hzf hx, magUnits_zero_iff.2 hz, Nat.zero_mul, magRound_zero,
    magBits_pack _ (by decide)]

/-- Adding a zero leaves the bits of every finite value but `−0`. -/
theorem fadd_zero {y z : F32} (hy : isFinite y = true) (hz : magBits z = 0)
    (hne : y ≠ 0x80000000#32) : fadd y z = y := by
  by_cases h0 : magBits y = 0
  · obtain rfl := (eq_zero_or_negZero h0).resolve_right hne
    obtain rfl | rfl := eq_zero_or_negZero hz <;> decide
  · have hzn : isNan z = false := by simp [isNan, hz]
    simp only [fadd, (finite_cases hy).1, hzn, Bool.or_false, Bool.false_eq_true, if_false]
    exact addWith_zero hy hz h0 .add y z

/-! ### Equality of values (R13) -/

theorem feq_refl {x : F32} (h : isNan x = false) : feq x x = true := feq_iff_key.2 ⟨h, h, rfl⟩

theorem feq_trans {x y z : F32} (h : feq x y = true) (k : feq y z = true) : feq x z = true := by
  obtain ⟨hx, -, hxy⟩ := feq_iff_key.1 h
  obtain ⟨-, hz, hyz⟩ := feq_iff_key.1 k
  exact feq_iff_key.2 ⟨hx, hz, hxy.trans hyz⟩

theorem feq_iff {x y : F32} (hx : isNan x = false) (hy : isNan y = false) :
    feq x y = true ↔ units x = units y := by
  have hkey : feq x y = true ↔ fle x y = true ∧ fle y x = true := by
    simp [feq_iff_key, fle_iff_key, hx, hy, Int.le_antisymm_iff]
  rw [hkey, fle_iff hx hy, fle_iff hy hx, ← le_antisymm_iff]

theorem isFinite_of_feq {x y : F32} (hx : isFinite x = true) (h : feq x y = true) :
    isFinite y = true := by
  obtain ⟨-, -, hk⟩ := feq_iff_key.1 h
  rwa [isFinite_iff_key, ← hk, ← isFinite_iff_key]

/-- Adding a zero leaves every finite value, `−0` included, though not its bits. -/
theorem feq_fadd_zero {y z : F32} (hy : isFinite y = true) (hz : magBits z = 0) :
    feq (fadd y z) y = true := by
  by_cases hne : y = 0x80000000#32
  · subst hne
    obtain rfl | rfl := eq_zero_or_negZero hz <;> decide
  · rw [fadd_zero hy hz hne]
    exact feq_refl (finite_cases hy).1

/-- The difference of two equal finite values is a zero. -/
theorem magBits_fsub_of_feq {x y : F32} (hy : isFinite y = true) (h : feq y x = true) :
    magBits (fsub x y) = 0 := by
  have hx := isFinite_of_feq hy h
  have hnx := (finite_cases hx).1
  have hny := (finite_cases hy).1
  have hneg : isFinite (fneg y) = true := by simpa [isFinite] using hy
  have hsum : units x + units (fneg y) = 0 := by
    rw [units_fneg, (feq_iff hny hnx).1 h, add_neg_cancel]
  have hsub : fsub x y = addWith .sub x y x (fneg y) := by simp [fsub, hnx, hny]
  rw [hsub, addWith_sum_zero hx hneg hsum, magBits_pack _ (by decide)]

/-! ### One step of the smoother -/

theorem smoothed_get (csm : F32) (tgt sm : Vector F32 18) (k : ParamIx) :
    (smoothed csm tgt sm)[k] = onepole sm[k] tgt[k] csm := tab18_get _ k

/-- Settles O42: the distance is a zero, and so is the step, which is added to the value. -/
theorem smootherRestsAtTarget : Obligations.SmootherRestsAtTarget := by
  intro y x c hy hyx hc
  have hstep : magBits (fmul (fsub x y) (fsub Lit.d1 c)) = 0 :=
    magBits_fmul_of_zero (magBits_fsub_of_feq hy hyx) hc
  exact ⟨feq_trans (feq_fadd_zero hy hstep) hyx, fadd_zero hy hstep⟩

/-- Settles O41: the file written is the smoothed one, each of whose values is one step of the one-pole. -/
theorem smootherMovesTowardTarget : Obligations.SmootherMovesTowardTarget := fun s =>
  ⟨smoothed s.conf.csm s.tgt s.sm, rfl, smoothed_get s.conf.csm s.tgt s.sm⟩

end Sys2Proof.Machine
end

section
/-! The input conditioner (42_input_conditioner.md R140 to R144): its three stages are the formulas of
R140, and the last of its two clamps bounds every output that is no NaN. -/

namespace Sys2Proof.Machine

/-! ### The clamp of a sample (R14) -/

theorem clamp_of_nan {x : F32} (h : isNan x = true) (lo hi : F32) : clamp x lo hi = x := by
  simp [clamp, fgt, flt, h]

theorem clamp_of_lt {x lo : F32} (h : flt x lo = true) (hi : F32) : clamp x lo hi = lo := by
  simp [clamp, h]

theorem clamp_of_gt {x lo hi : F32} (hb : fle lo hi = true) (h : fgt x hi = true) :
    clamp x lo hi = hi := by
  have hlo : flt x lo = false := flt_eq_false_of_fle (fle_trans hb (fle_of_flt h))
  simp [clamp, hlo, h]

theorem clamp_of_within {x lo hi : F32} (h : within lo hi x = true) : clamp x lo hi = x := by
  obtain ⟨hl, hh⟩ := within_iff.1 h
  simp [clamp, fgt, flt_eq_false_of_fle hl, flt_eq_false_of_fle hh]

/-- A clamped sample is a NaN, which the clamp passes, or in range. -/
theorem clamp_nan_or_within (x : F32) {lo hi : F32} (hb : fle lo hi = true) :
    isNan (clamp x lo hi) = true ∨ within lo hi (clamp x lo hi) = true := by
  obtain h | h | h | h := nan_or_lt_or_gt_or_within x hb
  · rw [clamp_of_nan h]
    exact .inl h
  · rw [clamp_of_lt h]
    exact .inr (lower_within hb)
  · rw [clamp_of_gt hb h]
    exact .inr (upper_within hb)
  · rw [clamp_of_within h]
    exact .inr h

/-! ### The three stages -/

theorem fneg_ten : fneg Lit.d10 = Lit.n10 := by decide

theorem condMix_eq (sm : Vector F32 18) (cor bq : F32) :
    condMix sm cor bq =
      clamp (fadd (fmul cor (fsub Lit.d1 sm[1])) (fmul bq sm[1])) (fneg Lit.d10) Lit.d10 := by
  rw [fneg_ten]; rfl

theorem condOut_eq (sm : Vector F32 18) (mix : F32) :
    condOut sm mix =
      clamp (fmul mix (fadd Lit.d1 (fmul sm[2] Lit.d0_3))) (fneg Lit.d1) Lit.d1 := by
  rw [fneg_one]; rfl

/-- The bound of R144 holds of the last stage alone, whatever the blend it is given. -/
theorem condOut_nan_or_within (sm : Vector F32 18) (mix : F32) :
    isNan (condOut sm mix) = true ∨ within (fneg Lit.d1) Lit.d1 (condOut sm mix) = true := by
  rw [condOut_eq]
  exact clamp_nan_or_within _ (by decide)

/-- Settles O43: the stages are those of R140 with the two negated bounds as patterns, and the output is
that of the last stage. -/
theorem conditionerStateAndOutput : Obligations.ConditionerStateAndOutput := by
  intro k sm c x hp cor bq mix
  refine ⟨?_, condOut_nan_or_within sm (condMix sm cor bq)⟩
  have hmix : condMix sm cor bq = mix := condMix_eq sm cor bq
  rw [← condOut_eq, ← hmix]
  rfl

end Sys2Proof.Machine
end

section
/-! The envelope follower (43_envelope_follower.md): one step of R155, and why it keeps an envelope from
becoming negative (R157). Rounding is monotone, so a bound that is itself a value survives it: the rounded
distance is at least minus the envelope, a factor in `[0, 1]` keeps it so, and the sum is at least zero. -/

namespace Sys2Proof.Machine

/-! ### Changes of sign (R11) -/

@[simp] theorem isFinite_fneg (x : F32) : isFinite (fneg x) = isFinite x := by simp [isFinite]

@[simp] theorem isFinite_fabs (x : F32) : isFinite (fabs x) = isFinite x := by simp [isFinite]

theorem units_fabs (x : F32) : units (fabs x) = magUnits x := by
  simp [units_eq_magUnits (isNeg_fabs x), magUnits]

theorem fneg_pack (neg : Bool) {m : Nat} (h : m < 2 ^ 31) : fneg (pack neg m) = pack (!neg) m :=
  ext_sign_mag (by simp [isNeg_pack _ h]) (by simp [magBits_pack _ h])

theorem key_fneg (x : F32) : key (fneg x) = -key x := by
  simp only [key, isNeg_fneg, magBits_fneg]
  cases isNeg x <;> simp

theorem fle_fneg_fneg (x y : F32) : fle (fneg x) (fneg y) = fle y x := by
  simp only [fle, isNan_fneg, key_fneg, neg_le_neg_iff, Bool.and_comm (!isNan x)]

/-! ### Bounds that are values survive rounding (R11) -/

/-- The integer of sign `neg` and magnitude `n`. -/
def signedInt (neg : Bool) (n : Nat) : Int := if neg then -(n : Int) else (n : Int)

theorem units_eq_signedInt (x : F32) : units x = signedInt (isNeg x) (magUnits x) := rfl

theorem signedInt_not (neg : Bool) (n : Nat) : signedInt (!neg) n = -signedInt neg n := by
  cases neg <;> simp [signedInt]

theorem signedInt_mul (p q : Bool) (m n : Nat) :
    signedInt (p != q) (m * n) = signedInt p m * signedInt q n := by
  cases p <;> cases q <;> simp [signedInt]

theorem isNan_pack_magRound (neg : Bool) (n d : Nat) : isNan (pack neg (magRound n d)) = false := by
  simpa [isNan, magBits_pack _ (magRound_lt n d)] using magRound_le n d

theorem key_pack_magRound (neg : Bool) (n d : Nat) :
    key (pack neg (magRound n d)) = signedInt neg (magRound n d) := by
  simp [key, signedInt, isNeg_pack _ (magRound_lt n d), magBits_pack _ (magRound_lt n d)]

/-- A value at most the fraction `n / d` of sign `neg` is at most its rounding. -/
theorem fle_pack_magRound {z : F32} {neg : Bool} {n d : Nat} (hz : isNan z = false) (hd : 0 < d)
    (h : units z * d ≤ signedInt neg n) : fle z (pack neg (magRound n d)) = true := by
  refine fle_iff_key.2 ⟨hz, isNan_pack_magRound neg n d, ?_⟩
  rw [key_pack_magRound]
  rw [units_eq_signedInt] at h
  cases hs : isNeg z <;> cases neg <;> simp only [key, signedInt, hs, if_true, if_false,
    Bool.false_eq_true] at h ⊢
  case false.false =>
    exact_mod_cast le_magRound_of_le hz hd (by exact_mod_cast h)
  case false.true =>
    have hle : magUnits z * d + n ≤ 0 := by zify; linarith
    have hn : n = 0 := by omega
    have hm : magUnits z = 0 := (Nat.mul_eq_zero.1 (by omega)).resolve_right hd.ne'
    simp [magUnits_zero_iff.1 hm, hn, magRound_zero]
  case true.false => omega
  case true.true =>
    have hle : n ≤ magUnits z * d := by zify; linarith
    have := magRound_le_of_le hz hd hle
    omega

/-- A value at least the fraction `n / d` of sign `neg` is at least its rounding. -/
theorem pack_magRound_fle {w : F32} {neg : Bool} {n d : Nat} (hw : isNan w = false) (hd : 0 < d)
    (h : signedInt neg n ≤ units w * d) : fle (pack neg (magRound n d)) w = true := by
  rw [← fle_fneg_fneg, fneg_pack neg (magRound_lt n d)]
  refine fle_pack_magRound (by simpa using hw) hd ?_
  rw [units_fneg, signedInt_not]
  linarith

/-- A finite sum, a zero one included, is its exact value rounded. -/
theorem addWith_eq_round {x y : F32} (hx : isFinite x = true) (hy : isFinite y = true) (op : NanOp)
    (a b : F32) : ∃ neg, addWith op a b x y = pack neg (magRound (units x + units y).natAbs 1) ∧
      signedInt neg (units x + units y).natAbs = units x + units y := by
  by_cases h0 : units x + units y = 0
  · refine ⟨isNeg x && isNeg y, ?_, by simp [h0, signedInt]⟩
    rw [addWith_sum_zero hx hy h0, h0, Int.natAbs_zero, magRound_zero]
  · refine ⟨_, addWith_finite hx hy op a b h0, ?_⟩
    by_cases hs : units x + units y < 0
    · simp only [signedInt, hs, decide_true, if_true]
      omega
    · simp only [signedInt, hs, decide_false, Bool.false_eq_true, if_false]
      omega

theorem fle_fadd {x y z : F32} (hx : isFinite x = true) (hy : isFinite y = true)
    (hz : isNan z = false) (h : units z ≤ units x + units y) : fle z (fadd x y) = true := by
  obtain ⟨neg, hr, hs⟩ := addWith_eq_round hx hy .add x y
  have hadd : fadd x y = addWith .add x y x y := by simp [fadd, (finite_cases hx).1, (finite_cases hy).1]
  rw [hadd, hr]
  exact fle_pack_magRound hz Nat.one_pos (by simpa [hs] using h)

theorem fsub_within {x y z w : F32} (hx : isFinite x = true) (hy : isFinite y = true)
    (hz : isNan z = false) (hw : isNan w = false) (hlo : units z ≤ units x - units y)
    (hhi : units x - units y ≤ units w) : within z w (fsub x y) = true := by
  have hny : isFinite (fneg y) = true := by rwa [isFinite_fneg]
  obtain ⟨neg, hr, hs⟩ := addWith_eq_round hx hny .sub x y
  have hsub : fsub x y = addWith .sub x y x (fneg y) := by
    simp [fsub, (finite_cases hx).1, (finite_cases hy).1]
  rw [units_fneg, ← sub_eq_add_neg] at hr hs
  rw [hsub, hr]
  exact within_iff.2 ⟨fle_pack_magRound hz Nat.one_pos (by simpa [hs] using hlo),
    pack_magRound_fle hw Nat.one_pos (by simpa [hs] using hhi)⟩

theorem fmul_within {x y z w : F32} (hx : isFinite x = true) (hy : isFinite y = true)
    (hz : isNan z = false) (hw : isNan w = false) (hlo : units z * 2 ^ 149 ≤ units x * units y)
    (hhi : units x * units y ≤ units w * 2 ^ 149) : within z w (fmul x y) = true := by
  have hs : signedInt (isNeg x != isNeg y) (magUnits x * magUnits y) = units x * units y :=
    signedInt_mul _ _ _ _
  rw [fmul_finite hx hy]
  exact within_iff.2 ⟨fle_pack_magRound hz (Nat.two_pow_pos 149) (by rw [hs]; exact_mod_cast hlo),
    pack_magRound_fle hw (Nat.two_pow_pos 149) (by rw [hs]; exact_mod_cast hhi)⟩

/-! ### A one-pole between values that are not negative (R19) -/

theorem units_nonneg_iff {x : F32} (h : isNan x = false) :
    fle Lit.zero x = true ↔ 0 ≤ units x := by
  rw [fle_iff (by decide) h, show units Lit.zero = 0 by decide]

/-- A factor in `[0, 1]` keeps a value in every range that holds zero. -/
theorem fmul_unit_within {z w x f : F32} (hx : isFinite x = true) (h : within z w x = true)
    (hz : units z ≤ 0) (hw : 0 ≤ units w) (hf : within Lit.zero Lit.d1 f = true) :
    within z w (fmul x f) = true := by
  have hff : isFinite f = true := isFinite_of_within (by decide) (by decide) hf
  obtain ⟨hlo, hhi⟩ := within_iff.1 h
  obtain ⟨hf0, hf1⟩ := within_iff.1 hf
  have hnan := (finite_cases hx).1
  have hnf := (finite_cases hff).1
  have hnz := isNan_left_of_fle hlo
  have hnw := isNan_right_of_fle hhi
  rw [fle_iff hnz hnan] at hlo
  rw [fle_iff hnan hnw] at hhi
  rw [units_nonneg_iff hnf] at hf0
  rw [fle_iff hnf (by decide), show units Lit.d1 = 2 ^ 149 by decide] at hf1
  refine fmul_within hx hff hnz hnw ?_ ?_
  · calc units z * 2 ^ 149 ≤ units z * units f := mul_le_mul_of_nonpos_left hf1 hz
      _ ≤ units x * units f := mul_le_mul_of_nonneg_right hlo hf0
  · calc units x * units f ≤ units w * units f := mul_le_mul_of_nonneg_right hhi hf0
      _ ≤ units w * 2 ^ 149 := mul_le_mul_of_nonneg_left hf1 hw

/-- The factor of a pole between 0 and 1 is in range itself. -/
theorem one_sub_pole_within {c : F32} (h : strictlyBetween Lit.zero Lit.d1 c = true) :
    within Lit.zero Lit.d1 (fsub Lit.d1 c) = true := by
  have hc := within_of_strictlyBetween h
  obtain ⟨h0, h1⟩ := within_iff.1 hc
  have hnan := isNan_right_of_fle h0
  rw [units_nonneg_iff hnan] at h0
  rw [fle_iff hnan (by decide)] at h1
  have hzero : units Lit.zero = 0 := by decide
  exact fsub_within (by decide) (isFinite_of_within (by decide) (by decide) hc) (by decide) (by decide)
    (by omega) (by omega)

/-- The step is at least minus the value it is added to. -/
theorem onepole_nonneg {y x c : F32} (hy : isFinite y = true) (hx : isFinite x = true)
    (hy0 : 0 ≤ units y) (hx0 : 0 ≤ units x) (hc : strictlyBetween Lit.zero Lit.d1 c = true) :
    fle Lit.zero (onepole y x c) = true := by
  have hny : isFinite (fneg y) = true := by rwa [isFinite_fneg]
  have hneg : units (fneg y) = -units y := units_fneg y
  have hdist : within (fneg y) x (fsub x y) = true :=
    fsub_within hx hy (finite_cases hny).1 (finite_cases hx).1 (by omega) (by omega)
  have hstep : within (fneg y) x (fmul (fsub x y) (fsub Lit.d1 c)) = true :=
    fmul_unit_within (isFinite_of_within hny hx hdist) hdist (by omega) hx0 (one_sub_pole_within hc)
  have hsf := isFinite_of_within hny hx hstep
  have hlow := (fle_iff (finite_cases hny).1 (finite_cases hsf).1).1 (within_iff.1 hstep).1
  refine fle_fadd hy hsf (by decide) ?_
  rw [show units Lit.zero = 0 by decide]
  omega

/-! ### The envelope -/

theorem envPole_of_above {env a : F32} (h : fgt a env = true) (k : Conf) : envPole k env a = k.catt := by
  simp [envPole, h]

theorem envPole_of_not_above {env a : F32} (h : fgt a env = false) (k : Conf) :
    envPole k env a = k.crel := by
  simp [envPole, h]

theorem envNext_eq (k : Conf) (env x : F32) :
    envNext k env x = fadd env (fmul (fsub (fabs x) env) (fsub Lit.d1 (envPole k env (fabs x)))) := rfl

theorem envPole_strictlyBetween {k : Conf} (ha : strictlyBetween Lit.zero Lit.d1 k.catt = true)
    (hr : strictlyBetween Lit.zero Lit.d1 k.crel = true) (env a : F32) :
    strictlyBetween Lit.zero Lit.d1 (envPole k env a) = true := by
  cases h : fgt a env with
  | true => rwa [envPole_of_above h]
  | false => rwa [envPole_of_not_above h]

/-- Settles O44: the pole is chosen by the comparison, and the envelope and its scaling are all that is
written. -/
theorem envelopeFollowsInput : Obligations.EnvelopeFollowsInput := by
  intro k sm c x pole env
  have hpole : envPole k c.env (fabs x) = pole := by
    cases h : fgt (fabs x) c.env with
    | true => simp [pole, h, envPole_of_above]
    | false => simp [pole, h, envPole_of_not_above]
  have henv : envNext k c.env x = env := by rw [envNext_eq, hpole]
  rw [uEnv, henv]
  rfl

/-- Settles O45: either pole is between 0 and 1, so the step toward the rectified input is one of a
one-pole between values that are not negative. -/
theorem envelopeNonNegative : Obligations.EnvelopeNonNegative := by
  intro k env x hx hfin hnonneg hatt hrel
  have henv := (units_nonneg_iff (finite_cases hfin).1).1 hnonneg
  have habs : 0 ≤ units (fabs x) := by rw [units_fabs]; exact Int.natCast_nonneg _
  exact onepole_nonneg hfin ((isFinite_fabs x).trans hx) henv habs (envPole_strictlyBetween hatt hrel env _)

end Sys2Proof.Machine
end

section
/-! The feedback delay network reverb (44_fdn_reverb.md): the sign matrix (R168) and the sums its rows stand
for (R169, R176), one line's turn (R164 to R175), and why zeros stay `+0.0` in it (R177): in a blend of two
of them with the weights `1 − k` and `k` at most one product is `−0`. -/

namespace Sys2Proof.Machine

/-! ### The sign matrix (R168) -/

theorem hadamardPlus_comm (i j : Nat) : hadamardPlus i j = hadamardPlus j i := by
  rw [hadamardPlus, hadamardPlus, Nat.and_comm]

theorem hadamardPlus_zero_right (i : Nat) : hadamardPlus i 0 = true := by
  rw [hadamardPlus, Nat.and_zero]; rfl

theorem hadamardPlus_zero_left (j : Nat) : hadamardPlus 0 j = true :=
  (hadamardPlus_comm 0 j).trans (hadamardPlus_zero_right j)

theorem invSqrt8_eq : Lit.invSqrt8 = 0x3EB504F3#32 := rfl

/-- Settles O46: table and square are finite facts, symmetry is that of the bitwise and, and the fold over
the lines after line 0 unrolls to the sum. -/
theorem signMatrixAndFeedback : Obligations.SignMatrixAndFeedback := by
  refine ⟨by decide, fun i j => hadamardPlus_comm i j, fun i => hadamardPlus_zero_right i, by decide,
    fun r i => ?_⟩
  rw [feedback, invSqrt8_eq]
  rfl

/-! ### The output (R176) -/

/-- Row 0 has no subtraction. -/
theorem reverbSum_eq_feedback (r : Vector F32 8) : reverbSum r = feedback r 0 := by
  simp [reverbSum, feedback, hadamardRow, hadamardPlus_zero_left]

theorem uFdn_output (N : NumFns) (g : Cfg) (k : Conf) (sm : Vector F32 18) (c : Channel) (x : F32) :
    (uFdn N g k sm c x).2 = feedback (lineReads N k sm c) 0 := by
  rw [uFdn, reverbSum_eq_feedback]

/-- Settles O48: the output is row 0 of the matrix, which has no subtraction, and the reads are made before
the input is used. -/
theorem reverbOutputIsFirstRow : Obligations.ReverbOutputIsFirstRow := by
  intro N g k sm c x y r
  have hrow (z : F32) : (uFdn N g k sm c z).2 = feedback r 0 := uFdn_output N g k sm c z
  refine ⟨?_, hrow x, (hrow x).trans (hrow y).symm⟩
  rw [hrow, ← reverbSum_eq_feedback, reverbSum, invSqrt8_eq, linesAfter0]
  simp only [List.foldl_cons, List.foldl_nil]
  rfl

/-! ### One line's turn (R164 to R175) -/

theorem uFdn_line (N : NumFns) (g : Cfg) (k : Conf) (sm : Vector F32 18) (c : Channel) (x : F32)
    (i : Fin 8) :
    (uFdn N g k sm c x).1.lines[i] = lineNext N g k sm (lineReads N k sm c) x i c.lines[i] :=
  tab8_get (fun i => lineNext N g k sm (lineReads N k sm c) x i c.lines[i]) i

theorem lineReads_get (N : NumFns) (k : Conf) (sm : Vector F32 18) (c : Channel) (i : Fin 8) :
    (lineReads N k sm c)[i] = lineRead N k sm i c.lines[i] :=
  tab8_get (fun i => lineRead N k sm i c.lines[i]) i

section
variable (N : NumFns) (g : Cfg) (k : Conf) (sm : Vector F32 18) (r : Vector F32 8) (x : F32) (i : Fin 8)

theorem lineNext_d1 (l : Line) : (lineNext N g k sm r x i l).d1 =
    damper l.d1 (lineInput N k sm r x i) (fmul sm[reverbDampHigh] g.kHigh) := by
  rw [lineNext]

theorem lineNext_d2 (l : Line) : (lineNext N g k sm r x i l).d2 =
    damper l.d2 (lineNext N g k sm r x i l).d1 (fmul sm[reverbDampLow] g.kLow) := by
  rw [lineNext]

theorem lineNext_buf (l : Line) : (lineNext N g k sm r x i l).buf =
    ramWrite l.buf l.w (lineNext N g k sm r x i l).d2 := by
  rw [lineNext]

end

theorem fneg_three : fneg Lit.d3 = Lit.n3 := by decide

/-- Settles O47: each element of the line is that of `lineNext`, and the word written is the only one of the
RAM that changes. -/
theorem reverbUpdatesLines : Obligations.ReverbUpdatesLines := by
  intro N g k sm c x i hwf
  rw [uFdn_line, lineReads_get, fneg_three]
  refine ⟨by rfl, by rfl, by rfl, by rfl, ?_, fun a ha => ?_, by rfl, by rfl⟩
  · rw [lineNext_buf]
    exact ramRead_ramWrite_self _ _ hwf
  · rw [lineNext_buf]
    exact ramRead_ramWrite_other ha _ _

/-! ### Zeros in a blend (R11) -/

theorem fmul_zero_left {x : F32} (hx : isFinite x = true) : fmul Lit.zero x = pack (isNeg x) 0 := by
  rw [fmul_finite (by decide) hx, show magUnits Lit.zero = 0 by decide, Nat.zero_mul, magRound_zero,
    show isNeg Lit.zero = false by decide, Bool.false_bne]

theorem fadd_zeros (p q : Bool) : fadd (pack p 0) (pack q 0) = pack (p && q) 0 := by
  cases p <;> cases q <;> decide

/-- A finite difference, a zero one included, is its exact value rounded. -/
theorem fsub_eq_round {x y : F32} (hx : isFinite x = true) (hy : isFinite y = true) :
    ∃ neg, fsub x y = pack neg (magRound (units x - units y).natAbs 1) ∧
      signedInt neg (units x - units y).natAbs = units x - units y := by
  have hny : isFinite (fneg y) = true := by rwa [isFinite_fneg]
  have hround := addWith_eq_round hx hny .sub x y
  rw [units_fneg, ← sub_eq_add_neg] at hround
  simpa [fsub, (finite_cases hx).1, (finite_cases hy).1] using hround

theorem magUnits_le_greatest {x : F32} (h : isFinite x = true) :
    magUnits x ≤ magUnits 0x7F7FFFFF#32 := by
  by_contra hlt
  have hbits := (magUnits_lt_iff (by decide) (finite_cases h).1).1 (Nat.lt_of_not_le hlt)
  rw [show magBits 0x7F7FFFFF#32 = 0x7F7FFFFF by decide] at hbits
  have hfin : magBits x < 0x7F800000 := of_decide_eq_true h
  omega

/-- A `1` more than the greatest magnitude is rounded away, so `1 − k` does not overflow. -/
theorem one_sub_finite {k : F32} (hk : isFinite k = true) : isFinite (fsub Lit.d1 k) = true := by
  obtain ⟨neg, hr, -⟩ := fsub_eq_round (x := Lit.d1) (by decide) hk
  have hone : units Lit.d1 = 2 ^ 149 := by decide
  have hsum : (units Lit.d1 - units k).natAbs ≤ 2 ^ 149 + magUnits 0x7F7FFFFF#32 := by
    have habs := natAbs_units k
    have hmax := magUnits_le_greatest hk
    omega
  have hround : magRound (2 ^ 149 + magUnits 0x7F7FFFFF#32) 1 = 0x7F7FFFFF := by decide
  have hle := magRound_mono Nat.one_pos Nat.one_pos (Nat.mul_le_mul_right 1 hsum)
  rw [hround] at hle
  rw [hr]
  simp only [isFinite, magBits_pack _ (magRound_lt _ _), decide_eq_true_eq]
  omega

theorem one_sub_not_neg {k : F32} (hk : isFinite k = true) (hneg : isNeg k = true) :
    isNeg (fsub Lit.d1 k) = false := by
  obtain ⟨neg, hr, hs⟩ := fsub_eq_round (x := Lit.d1) (by decide) hk
  have hone : units Lit.d1 = 2 ^ 149 := by decide
  have hnonpos : units k ≤ 0 := by simp [units, hneg]
  rw [hr, isNeg_pack _ (magRound_lt _ _)]
  cases neg with
  | false => rfl
  | true => simp only [signedInt, if_true] at hs; omega

/-- Two zeros blended with the weights `1 − k` and `k`: of the two products only one can be `−0`. -/
theorem damper_zero {k : F32} (hk : isFinite k = true) : damper Lit.zero Lit.zero k = Lit.zero := by
  have hsigns : (isNeg (fsub Lit.d1 k) && isNeg k) = false := by
    cases hneg : isNeg k with
    | false => exact Bool.and_false _
    | true => rw [one_sub_not_neg hk hneg, Bool.false_and]
  rw [damper, fmul_zero_left (one_sub_finite hk), fmul_zero_left hk, fadd_zeros, hsigns]
  rfl

/-! ### A silent reverb (R177) -/

/-- The fraction of a delay that the callers guarantee is finite (R74). -/
theorem delayFraction_finite {n : Nat} {d : F32} (h3 : 3 ≤ n) (hn : n < 2 ^ 24)
    (h : within Lit.d1 (toF32 (n - 1)) d = true) :
    isFinite (fsub d (toF32 (toNat (ffloor d)))) = true := by
  obtain ⟨-, -, -, h0, h1⟩ := interpBlendsTwoWords.2.1 n d h3 hn h
  exact isFinite_of_within (by decide) (by decide) (within_iff.2 ⟨h0, fle_of_flt h1⟩)

/-- Between two words that are `+0.0` an interpolated read is `+0.0`. -/
theorem interp_zero {m : Cells} {n : Nat} {d : F32} (h3 : 3 ≤ n) (hn : n < 2 ^ 24)
    (hm : ∀ a < n, ramRead m a = Lit.zero) (h : within Lit.d1 (toF32 (n - 1)) d = true) (w : Nat) :
    interp m w n d = Lit.zero := by
  have hread (a : Int) : ramRead m (residue a n) = Lit.zero := hm _ (residue_lt a (by omega))
  simp only [interp, hread]
  exact damper_zero (delayFraction_finite h3 hn h)

/-- The read delay of a line is in its buffer, whatever the modulation (R166). -/
theorem lineDelay_within {k : Conf} {i : Fin 8} (h3 : 3 ≤ k.nbuf[i]) (hn : k.nbuf[i] < 2 ^ 24)
    (N : NumFns) (sm : Vector F32 18) (l : Line) :
    within Lit.d1 (toF32 (k.nbuf[i] - 1)) (lineDelay N k sm i l) = true := by
  have hbounds : fle Lit.d1 (toF32 (k.nbuf[i] - 1)) = true := by
    rw [show Lit.d1 = toF32 1 by decide]
    exact fle_toF32 (by decide) (by omega) (by omega)
  exact clampIdx_within _ hbounds

/-- Every row of the matrix sums `+0.0` to `+0.0`, with either sign. -/
theorem feedback_zero {r : Vector F32 8} (hr : ∀ i : Fin 8, r[i] = Lit.zero) (i : Fin 8) :
    feedback r i = Lit.zero := by
  have hadd : fadd Lit.zero Lit.zero = Lit.zero := by decide
  have hsub : fsub Lit.zero Lit.zero = Lit.zero := by decide
  have hfold (js : List (Fin 8)) : js.foldl (fun (acc : F32) (j : Fin 8) =>
      if hadamardPlus i j then fadd acc r[j] else fsub acc r[j]) Lit.zero = Lit.zero := by
    induction js with
    | nil => rfl
    | cons j js ih => rw [List.foldl_cons, hr j, hadd, hsub, ite_self, ih]
  have h0 : r[0] = Lit.zero := hr 0
  rw [feedback, hadamardRow, h0, hfold linesAfter0]
  decide

/-- A line at rest: its words in use and its dampers `+0.0`, its RAM in canonical form. -/
structure Line.Silent (n : Nat) (l : Line) : Prop where
  wf : Memory.wf l.buf = true
  d1 : l.d1 = Lit.zero
  d2 : l.d2 = Lit.zero
  buf : ∀ a < n, ramRead l.buf a = Lit.zero

theorem lineRead_silent {k : Conf} {i : Fin 8} {l : Line} (h3 : 3 ≤ k.nbuf[i])
    (hn : k.nbuf[i] < 2 ^ 24) (hl : l.Silent k.nbuf[i]) (N : NumFns) (sm : Vector F32 18) :
    lineRead N k sm i l = Lit.zero :=
  interp_zero h3 hn hl.buf (lineDelay_within h3 hn N sm l) l.w

/-- The new input of a line for an input of `+0.0`: a zero of either sign plus `+0.0`. -/
theorem lineInput_zero {N : NumFns} {k : Conf} {sm : Vector F32 18} {r : Vector F32 8} {i : Fin 8}
    (hr : ∀ j : Fin 8, r[j] = Lit.zero) (hg : isFinite (decayGain N k sm k.len[i]) = true) :
    lineInput N k sm r Lit.zero i = Lit.zero := by
  have hdiv : fdiv Lit.zero Lit.d8 = pack false 0 := by decide
  rw [lineInput, feedback_zero hr, fmul_zero_left hg, hdiv, fadd_zeros, Bool.and_false]
  rfl

theorem ramRead_ramWrite_zero {m : Cells} {n : Nat} (hwf : Memory.wf m = true)
    (hm : ∀ a < n, ramRead m a = Lit.zero) (w : Nat) :
    ∀ a < n, ramRead (ramWrite m w Lit.zero) a = Lit.zero := by
  intro a ha
  by_cases haw : a = w
  · rw [haw, ramRead_ramWrite_self w _ hwf]
  · rw [ramRead_ramWrite_other haw, hm a ha]

/-- Settles O49: the delays are in range, so the reads are `+0.0`; the signed sums keep that, and so do the
new input and the two dampers, whose output is the word written. -/
theorem silentReverbStaysSilent : Obligations.SilentReverbStaysSilent := by
  intro N g k sm c hlen hsilent hgain hhigh hlow
  have hline (i : Fin 8) : c.lines[i].Silent k.nbuf[i] := by
    obtain ⟨hwf, hd1, hd2, hbuf⟩ := hsilent i
    exact ⟨hwf, hd1, hd2, hbuf⟩
  have hreads (i : Fin 8) : (lineReads N k sm c)[i] = Lit.zero := by
    obtain ⟨h3, hn⟩ := hlen i
    rw [lineReads_get, lineRead_silent h3 hn (hline i)]
  refine ⟨(uFdn_output N g k sm c _).trans (feedback_zero hreads 0), fun i => ?_⟩
  rw [uFdn_line]
  have hin := lineInput_zero hreads (hgain i)
  have hd1 : (lineNext N g k sm (lineReads N k sm c) Lit.zero i c.lines[i]).d1 = Lit.zero := by
    rw [lineNext_d1, (hline i).d1, hin, damper_zero hhigh]
  have hd2 : (lineNext N g k sm (lineReads N k sm c) Lit.zero i c.lines[i]).d2 = Lit.zero := by
    rw [lineNext_d2, (hline i).d2, hd1, damper_zero hlow]
  refine ⟨hd1, hd2, ?_⟩
  rw [lineNext_buf, show (0x00000000#32 : F32) = Lit.zero from rfl, hd2]
  exact ramRead_ramWrite_zero (hline i).wf (hline i).buf c.lines[i].w

end Sys2Proof.Machine
end

section
/-! The draws of the vanishing delay (45_vanishing_delay.md R188, R190 to R192): a draw is a 24-bit natural
scaled by a power of two, so nothing of it is rounded, and a countdown at 0 makes two draws or three. -/

namespace Sys2Proof.Machine

/-! ### The generator and its draw (R188) -/

theorem rngNext_toNat (r : U32) :
    (rngNext r).toNat = (r.toNat * 1664525 + 1013904223) % 2 ^ 32 := by
  rw [rngNext, BitVec.toNat_add, BitVec.toNat_mul, Nat.mod_add_mod, BitVec.toNat_ofNat, BitVec.toNat_ofNat]

/-- The scaling by 2^-24 is exact: the product has the 24 digits of the natural. -/
theorem uniform_eq_pack (r : U32) :
    ∃ m ≤ 0x7F800000, unitsOfBits m = r.toNat / 256 * 2 ^ 125 ∧ uniform r = pack false m := by
  have hlt : r.toNat / 256 < 2 ^ 24 := by have := r.isLt; omega
  obtain ⟨m, hm, hu⟩ := exists_unitsOfBits hlt (e := 125) (by decide)
  have hscale : magUnits Lit.twoPowNeg24 = 2 ^ 125 ∧ isNeg Lit.twoPowNeg24 = false := by decide
  have hprod : r.toNat / 256 * 2 ^ 149 * 2 ^ 125 = unitsOfBits m * 2 ^ 149 := by rw [hu]; ring
  refine ⟨m, hm, hu, ?_⟩
  rw [uniform, show (2 : Nat) ^ 8 = 256 by decide, fmul_finite (isFinite_toF32 hlt) (by decide),
    isNeg_toF32, hscale.2, magUnits_toF32 hlt, hscale.1, hprod, magRound_exact hm (Nat.two_pow_pos 149)]
  rfl

theorem isNeg_uniform (r : U32) : isNeg (uniform r) = false := by
  obtain ⟨m, hm, -, hr⟩ := uniform_eq_pack r
  rw [hr, isNeg_pack _ (by omega)]

theorem isNan_uniform (r : U32) : isNan (uniform r) = false := by
  obtain ⟨m, hm, -, hr⟩ := uniform_eq_pack r
  simpa [isNan, hr, magBits_pack _ (show m < 2 ^ 31 by omega)] using hm

theorem magUnits_uniform (r : U32) : magUnits (uniform r) = r.toNat / 256 * 2 ^ 125 := by
  obtain ⟨m, hm, hu, hr⟩ := uniform_eq_pack r
  rw [hr, magUnits_eq, magBits_pack _ (by omega), hu]

/-- A draw lies between zero and one unit in the last place below 1.0. -/
theorem uniform_within (r : U32) : within Lit.zero 0x3F7FFFFF#32 (uniform r) = true := by
  have hlt := r.isLt
  have hunits : units (uniform r) = (r.toNat / 256 * 2 ^ 125 : Nat) := by
    rw [units_eq_magUnits (isNeg_uniform r), magUnits_uniform]
  have htop : units 0x3F7FFFFF#32 = (2 ^ 24 - 1) * 2 ^ 125 := by decide
  refine within_iff.2 ⟨(units_nonneg_iff (isNan_uniform r)).2 ?_,
    (fle_iff (isNan_uniform r) (by decide)).2 ?_⟩ <;> omega

theorem isFinite_uniform (r : U32) : isFinite (uniform r) = true :=
  isFinite_of_within (by decide) (by decide) (uniform_within r)

/-- Settles O37: the generator wraps with its 32 bits, and no step of the draw rounds. -/
theorem uniformDrawExact : Obligations.UniformDrawExact := by
  intro r
  obtain ⟨-, hbelow⟩ := within_iff.1 (uniform_within r)
  exact ⟨rngNext_toNat r, isNeg_uniform r, isFinite_uniform r, magUnits_uniform r, flt_one_iff.2 hbelow⟩

/-! ### The target of a returning tap (R191) -/

/-- Rounding is monotone, so a product of values that are not negative is monotone in a factor. -/
theorem fmul_mono_right {x y z : F32} (hx : isFinite x = true) (hy : isFinite y = true)
    (hz : isFinite z = true) (sx : isNeg x = false) (sy : isNeg y = false) (sz : isNeg z = false)
    (h : fle y z = true) : fle (fmul x y) (fmul x z) = true := by
  have hle := (fle_iff (finite_cases hy).1 (finite_cases hz).1).1 h
  rw [units_eq_magUnits sy, units_eq_magUnits sz] at hle
  have hmul : magUnits x * magUnits y ≤ magUnits x * magUnits z :=
    Nat.mul_le_mul_left _ (by exact_mod_cast hle)
  rw [fmul_finite hx hy, fmul_finite hx hz, sx, sy, sz, fle_iff_key, key_pack_magRound,
    key_pack_magRound]
  exact ⟨isNan_pack_magRound _ _ _, isNan_pack_magRound _ _ _,
    Int.ofNat_le.2 (magRound_mono (Nat.two_pow_pos 149) (Nat.two_pow_pos 149)
      (Nat.mul_le_mul_right _ hmul))⟩

/-- Settles O38: the product with 0.7 is at most that of the largest draw, 0x3F333332, and adding 0.3 to
that gives exactly the value below 1.0 (90_conflicts.md C6). -/
theorem returnTargetRange : Obligations.ReturnTargetRange := by
  intro r
  have hfin := isFinite_uniform r
  obtain ⟨hzero, htop⟩ := within_iff.1 (uniform_within r)
  have hlow : fle (fmul Lit.d0_7 Lit.zero) (fmul Lit.d0_7 (uniform r)) = true :=
    fmul_mono_right (by decide) (by decide) hfin (by decide) (by decide) (isNeg_uniform r) hzero
  have hhigh : fle (fmul Lit.d0_7 (uniform r)) (fmul Lit.d0_7 0x3F7FFFFF#32) = true :=
    fmul_mono_right (by decide) hfin (by decide) (by decide) (isNeg_uniform r) (by decide) htop
  rw [show fmul Lit.d0_7 Lit.zero = Lit.zero by decide] at hlow
  rw [show fmul Lit.d0_7 0x3F7FFFFF#32 = 0x3F333332#32 by decide] at hhigh
  have hpf : isFinite (fmul Lit.d0_7 (uniform r)) = true :=
    isFinite_of_within (by decide) (by decide) (within_iff.2 ⟨hlow, hhigh⟩)
  have hnan := (finite_cases hpf).1
  rw [units_nonneg_iff hnan] at hlow
  rw [fle_iff hnan (by decide)] at hhigh
  have hsum : units Lit.d0_3 + units 0x3F333332#32 = units 0x3F7FFFFF#32 ∧ 0 ≤ units Lit.d0_3 := by decide
  have hadd : fadd Lit.d0_3 (fmul Lit.d0_7 (uniform r)) =
      addWith .add Lit.d0_3 (fmul Lit.d0_7 (uniform r)) Lit.d0_3 (fmul Lit.d0_7 (uniform r)) := by
    simp [fadd, hnan, show isNan Lit.d0_3 = false by decide]
  refine ⟨fle_fadd (by decide) hpf (by decide) (by omega), ?_⟩
  rw [returnTarget, hadd]
  exact (within_iff.1 (addWith_within (by decide) hpf (by decide) (by omega) (by omega) _ _ _)).2

/-! ### The countdown (R190 to R192) -/

theorem tapTick_of_vanishing {t : Tap} {vr : F32} {r : U32} (h : t.timer = 0#32)
    (hv : flt (uniform (rngNext r)) vr = true) (fs : F32) :
    tapTick fs vr r t =
      { t with target := Lit.zero, timer := countdown fs (uniform (rngNext (rngNext r))) } := by
  simp [tapTick, rerolled, vanishes, h, hv]

theorem tapTick_of_returning {t : Tap} {vr : F32} {r : U32} (h : t.timer = 0#32)
    (hv : flt (uniform (rngNext r)) vr = false) (fs : F32) :
    tapTick fs vr r t =
      { t with
        target := returnTarget (uniform (rngNext (rngNext r)))
        timer := countdown fs (uniform (rngNext (rngNext (rngNext r)))) } := by
  simp [tapTick, rerolled, vanishes, h, hv]

theorem tapTick_of_counting {t : Tap} (h : t.timer ≠ 0#32) (fs vr : F32) (r : U32) :
    tapTick fs vr r t = { t with timer := t.timer - 1#32 } := if_neg h

/-- Two draws for a tap that vanishes, three for one that returns (R192). -/
theorem tapTickRng_of_zero {t : Tap} (h : t.timer = 0#32) (vr : F32) (r : U32) :
    tapTickRng vr r t = if flt (uniform (rngNext r)) vr then rngNext (rngNext r)
      else rngNext (rngNext (rngNext r)) := if_pos h

theorem tapTickRng_of_counting {t : Tap} (h : t.timer ≠ 0#32) (vr : F32) (r : U32) :
    tapTickRng vr r t = r := if_neg h

/-- Settles O50: the first draw decides between the two re-rolls, and there is none before the countdown
has run out. -/
theorem tapRerollsAtZero : Obligations.TapRerollsAtZero := by
  intro fs vr r t r1 r2 r3 load
  refine ⟨fun h hv => ⟨tapTick_of_vanishing h hv fs, ?_⟩,
    fun h hv => ⟨tapTick_of_returning h hv fs, ?_⟩, fun h => ?_⟩
  · rw [tapTickRng_of_zero h, if_pos hv]
  · rw [tapTickRng_of_zero h, hv]
    rfl
  · have hsub : (t.timer - 1#32).toNat = t.timer.toNat - 1 := by bv_omega
    rw [tapTick_of_counting h]
    exact ⟨hsub, rfl, tapTickRng_of_counting h vr r⟩

end Sys2Proof.Machine
end

section
/-! The vanishing delay's turn (45_vanishing_delay.md R185 to R203): the taps share one generator in the order
0, 1, 2, so a tap's turn depends on those before it through the generator alone. -/

namespace Sys2Proof.Machine

/-! ### The generator between the taps (R194) -/

/-- The generator state tap `i` begins with, as the taps before it left it. -/
def rngBefore (vr : F32) (c : Channel) : Fin 3 → U32
  | 0 => c.rng
  | 1 => tapTickRng vr c.rng c.taps[0]
  | 2 => tapTickRng vr (tapTickRng vr c.rng c.taps[0]) c.taps[1]

theorem uVdly_tap (N : NumFns) (g : Cfg) (k : Conf) (sm : Vector F32 18) (c : Channel) (x dt dr : F32)
    (i : Fin 3) : (uVdly N g k sm c x dt dr).1.taps[i] =
      (tapTurn N g k sm dt dr c i (rngBefore sm[vanishRate] c i)).1 := by
  match i with
  | 0 => rfl
  | 1 => rfl
  | 2 => rfl

theorem uVdly_rng (N : NumFns) (g : Cfg) (k : Conf) (sm : Vector F32 18) (c : Channel) (x dt dr : F32) :
    (uVdly N g k sm c x dt dr).1.rng =
      tapTickRng sm[vanishRate] (rngBefore sm[vanishRate] c 2) c.taps[(2 : Fin 3)] := rfl

/-! ### What a countdown step leaves alone (R190) -/

/-- Neither a re-roll nor a decrement looks at or writes anything but the target and the countdown. -/
theorem tapTick_eq (fs vr : F32) (r : U32) (t : Tap) : tapTick fs vr r t =
    { t with target := (tapTick fs vr r t).target, timer := (tapTick fs vr r t).timer } := by
  simp only [tapTick, rerolled]
  split
  · split <;> rfl
  · rfl

theorem tapTick_gain (fs vr : F32) (r : U32) (t : Tap) : (tapTick fs vr r t).gain = t.gain := by
  rw [tapTick_eq]

theorem tapTick_dph (fs vr : F32) (r : U32) (t : Tap) : (tapTick fs vr r t).dph = t.dph := by
  rw [tapTick_eq]

theorem tapTick_dlp (fs vr : F32) (r : U32) (t : Tap) : (tapTick fs vr r t).dlp = t.dlp := by
  rw [tapTick_eq]

/-! ### One tap's turn (R193 to R199) -/

section
variable (N : NumFns) (g : Cfg) (k : Conf) (sm : Vector F32 18) (dt dr : F32) (c : Channel) (i : Fin 3)
  (r : U32)

theorem tapTurn_target : (tapTurn N g k sm dt dr c i r).1.target =
    (tapTick k.fs sm[vanishRate] r c.taps[i]).target := rfl

theorem tapTurn_timer : (tapTurn N g k sm dt dr c i r).1.timer =
    (tapTick k.fs sm[vanishRate] r c.taps[i]).timer := rfl

theorem tapTurn_gain : (tapTurn N g k sm dt dr c i r).1.gain =
    gainNext c.taps[i].gain (tapTick k.fs sm[vanishRate] r c.taps[i]).target := by
  simp only [tapTurn, tapFiltered, tapDrive, tapTick_gain]

theorem tapTurn_dph : (tapTurn N g k sm dt dr c i r).1.dph = driftPhase k.fs dr c.taps[i].dph := by
  simp only [tapTurn, tapFiltered, tapDrive, tapTick_dph]

/-- The read uses the phase and the gain of this turn, and the RAM before its write. -/
theorem tapTurn_dlp : (tapTurn N g k sm dt dr c i r).1.dlp =
    degraded g sm[degradeAmount] c.taps[i].dlp
      (tapRaw N k dt c i (tapTurn N g k sm dt dr c i r).1) := by
  simp only [tapTurn, tapFiltered, tapDrive, tapRaw, tapTick_dlp]

end

/-! ### The channel -/

section
variable (N : NumFns) (g : Cfg) (k : Conf) (sm : Vector F32 18) (c : Channel) (x dt dr : F32)

/-- The channel after the delay holds the served taps (R185 to R199). -/
theorem uVdly_serves_tap (i : Fin 3) :
    let u := tapTick k.fs sm[vanishRate] (rngBefore sm[vanishRate] c i) c.taps[i]
    let v := (uVdly N g k sm c x dt dr).1.taps[i]
    v.target = u.target ∧ v.timer = u.timer ∧ v.gain = gainNext c.taps[i].gain u.target ∧
    v.dph = driftPhase k.fs dr c.taps[i].dph ∧
    v.dlp = degraded g sm[degradeAmount] c.taps[i].dlp (tapRaw N k dt c i v) := by
  intro u v
  have hv : v = (tapTurn N g k sm dt dr c i (rngBefore sm[vanishRate] c i)).1 := uVdly_tap ..
  rw [hv]
  exact ⟨tapTurn_target .., tapTurn_timer .., tapTurn_gain .., tapTurn_dph .., tapTurn_dlp ..⟩

theorem uVdly_vbuf : (uVdly N g k sm c x dt dr).1.vbuf =
    ramWrite c.vbuf c.wv (fadd x (fmul (uVdly N g k sm c x dt dr).2 sm[delayFeedback])) := by
  rw [uVdly]

end

/-- Settles O51: each tap is served from the generator state the taps before it left, the output is the
average of the served taps, and the word at the cursor is the only one of the RAM that changes. -/
theorem delayServesTapsAndWrites : Obligations.DelayServesTapsAndWrites := by
  intro N g k sm c x dt dr hwf
  refine ⟨uVdly_serves_tap N g k sm c x dt dr 0, uVdly_serves_tap N g k sm c x dt dr 1,
    uVdly_serves_tap N g k sm c x dt dr 2, uVdly_rng N g k sm c x dt dr, by rfl, by rfl, ?_,
    fun a ha => ?_, by rfl, by rfl⟩
  · rw [uVdly_vbuf, ramRead_ramWrite_self _ _ hwf]
    rfl
  · rw [uVdly_vbuf, ramRead_ramWrite_other ha]

end Sys2Proof.Machine
end

section
/-! The audio never reaches control (70_reset_and_hazards.md R273; 45_vanishing_delay.md R194): where no host
waits, two runs of a block that begin the same but for samples, filter states and delay contents stay so. -/

namespace Sys2Proof.Machine

/-! ### The taps: all but the low-pass state is control -/

/-- A tap's drive commutes with replacing its low-pass state (R190 to R195). -/
theorem tapDrive_withDlp (k : Conf) (vr dr : F32) (r : U32) (t : Tap) (q : F32) :
    tapDrive k vr dr r { t with dlp := q } = { tapDrive k vr dr r t with dlp := q } := by
  simp only [tapDrive, tapTick, rerolled]
  split
  · split <;> rfl
  · rfl

theorem SameControl.tap_eq {c d : Channel} (h : SameControl c d) (i : Fin 3) :
    d.taps[i] = { c.taps[i] with dlp := d.taps[i].dlp } :=
  Tap.ext (h.gain i) (h.target i) (h.timer i) (h.dph i) rfl

theorem SameControl.tapTickRng_eq {c d : Channel} (h : SameControl c d) (vr : F32) (r : U32) (i : Fin 3) :
    tapTickRng vr r d.taps[i] = tapTickRng vr r c.taps[i] := by
  rw [h.tap_eq i]
  rfl

theorem SameControl.rngBefore_eq {c d : Channel} (h : SameControl c d) (vr : F32) (i : Fin 3) :
    rngBefore vr d i = rngBefore vr c i := by
  have h1 : rngBefore vr d 1 = rngBefore vr c 1 :=
    (h.tapTickRng_eq vr d.rng 0).trans (congrArg (tapTickRng vr · c.taps[(0 : Fin 3)]) h.rng)
  match i with
  | 0 => exact h.rng
  | 1 => exact h1
  | 2 => exact (h.tapTickRng_eq vr _ 1).trans (congrArg (tapTickRng vr · c.taps[(1 : Fin 3)]) h1)

/-- What a tap reads of the delay RAM goes into its low-pass state only. -/
theorem SameControl.tapTurn_eq {c d : Channel} (h : SameControl c d) (N : NumFns) (g : Cfg) (k : Conf)
    (sm : Vector F32 18) (dt dr : F32) (i : Fin 3) (r : U32) :
    (tapTurn N g k sm dt dr d i r).1 =
      { (tapTurn N g k sm dt dr c i r).1 with dlp := (tapTurn N g k sm dt dr d i r).1.dlp } := by
  have hdrive : tapDrive k sm[vanishRate] dr r d.taps[i] =
      { tapDrive k sm[vanishRate] dr r c.taps[i] with dlp := d.taps[i].dlp } := by
    rw [← tapDrive_withDlp, ← h.tap_eq i]
  simp only [tapTurn, tapFiltered, hdrive]

/-! ### The micro-operations -/

theorem SameControl.uCond {c d : Channel} (h : SameControl c d) (k : Conf) (sm : Vector F32 18) (x y : F32) :
    SameControl (uCond k sm c x).1 (uCond k sm d y).1 := { h with }

theorem SameControl.uEnv {c d : Channel} (h : SameControl c d) (k : Conf) (sm : Vector F32 18) (x y : F32) :
    SameControl (uEnv k sm x c) (uEnv k sm y d) := { h with }

theorem SameControl.uDcb {c d : Channel} (h : SameControl c d) (x y : F32) :
    SameControl (uDcb c x).1 (uDcb d y).1 := { h with }

/-- The cursor advances and the taps draw alike, whatever is written at the cursor (R194, R202). -/
theorem SameControl.uVdly {c d : Channel} (h : SameControl c d) (N : NumFns) (g : Cfg) (k : Conf)
    (sm : Vector F32 18) (x y dt dr : F32) :
    SameControl (uVdly N g k sm c x dt dr).1 (uVdly N g k sm d y dt dr).1 := by
  have htap (i : Fin 3) : (Machine.uVdly N g k sm d y dt dr).1.taps[i] =
      { (Machine.uVdly N g k sm c x dt dr).1.taps[i] with
        dlp := (Machine.uVdly N g k sm d y dt dr).1.taps[i].dlp } := by
    rw [uVdly_tap, uVdly_tap, h.rngBefore_eq, ← h.tapTurn_eq]
  have hrng : (Machine.uVdly N g k sm d y dt dr).1.rng = (Machine.uVdly N g k sm c x dt dr).1.rng := by
    rw [uVdly_rng, uVdly_rng, h.rngBefore_eq, h.tapTickRng_eq]
  exact { h with
    wv := congrArg (fun w => (w + 1) % k.nv) h.wv
    rng := hrng
    gain := fun i => by rw [htap]
    target := fun i => by rw [htap]
    timer := fun i => by rw [htap]
    dph := fun i => by rw [htap] }

/-- A line's cursor and phase move with no regard to what is read or written (R164, R175). -/
theorem SameControl.uFdn {c d : Channel} (h : SameControl c d) (N : NumFns) (g : Cfg) (k : Conf)
    (sm : Vector F32 18) (x y : F32) : SameControl (uFdn N g k sm c x).1 (uFdn N g k sm d y).1 :=
  { h with
    w := fun i => by rw [uFdn_line, uFdn_line, lineNext, lineNext, h.w i]
    ph := fun i => by rw [uFdn_line, uFdn_line, lineNext, lineNext, linePhase, linePhase, h.ph i] }

/-- A channel's turn keeps control the same for any two input samples (R218). -/
theorem SameControl.uRoute {c d : Channel} (h : SameControl c d) (N : NumFns) (g : Cfg) (k : Conf)
    (sm : Vector F32 18) (ch : Chan) (x y : F32) :
    SameControl (uRoute N g k sm ch c x).1 (uRoute N g k sm ch d y).1 := by
  simp only [Machine.uRoute]
  exact ((((h.uCond k sm x y).uEnv k sm _ _).uVdly N g k sm _ _ _ _).uFdn N g k sm _ _).uDcb _ _

/-! ### A block -/

/-- `t` is `s` but for the audio of both sides. -/
def SameButAudio (s t : State) : Prop :=
  ∃ cL cR mL mR, t = { s with chL := cL, chR := cR, iobL := mL, iobR := mR } ∧
    SameControl s.chL cL ∧ SameControl s.chR cR

theorem SameButAudio.quiet {s t : State} (h : SameButAudio s t) : t.quiet = s.quiet := by
  obtain ⟨cL, cR, mL, mR, rfl, -, -⟩ := h
  exact quiet_congr rfl rfl

/-- An operation that commutes with replacing the channels and `IOBUF` keeps the relation. -/
theorem SameButAudio.map {s t : State} (h : SameButAudio s t) {f : State → State}
    (hL : (f s).chL = s.chL) (hR : (f s).chR = s.chR)
    (hf : ∀ cL cR mL mR, f { s with chL := cL, chR := cR, iobL := mL, iobR := mR } =
      { f s with chL := cL, chR := cR, iobL := mL, iobR := mR }) : SameButAudio (f s) (f t) := by
  obtain ⟨cL, cR, mL, mR, rfl, hcL, hcR⟩ := h
  exact ⟨cL, cR, mL, mR, hf cL cR mL mR, by rwa [hL], by rwa [hR]⟩

theorem SameButAudio.chan {s t : State} (h : SameButAudio s t) (ch : Chan) :
    SameControl (s.chan ch) (t.chan ch) := by
  obtain ⟨cL, cR, mL, mR, rfl, hcL, hcR⟩ := h
  cases ch with
  | left => exact hcL
  | right => exact hcR

theorem SameButAudio.setChan {s t : State} (h : SameButAudio s t) (ch : Chan) {x y : Channel}
    (hxy : SameControl x y) : SameButAudio (s.setChan ch x) (t.setChan ch y) := by
  obtain ⟨cL, cR, mL, mR, rfl, hcL, hcR⟩ := h
  cases ch with
  | left => exact ⟨y, cR, mL, mR, rfl, hxy, hcR⟩
  | right => exact ⟨cL, y, mL, mR, rfl, hcL, hxy⟩

/-- The two runs need not write the same sample. -/
theorem SameButAudio.ioWrite {s t : State} (h : SameButAudio s t) (ch : Chan) (i : Nat) (v w : Word) :
    SameButAudio (s.ioWrite ch i v) (t.ioWrite ch i w) := by
  obtain ⟨cL, cR, mL, mR, rfl, hcL, hcR⟩ := h
  cases ch with
  | left => exact ⟨cL, cR, insertCell i w mL, mR, rfl, hcL, hcR⟩
  | right => exact ⟨cL, cR, mL, insertCell i w mR, rfl, hcL, hcR⟩

theorem SameButAudio.channelTurn {s t : State} (h : s.quiet = true) (hst : SameButAudio s t)
    (N : NumFns) (ch : Chan) (i : Nat) :
    SameButAudio (channelTurn N ch i s) (channelTurn N ch i t) := by
  have hroute (x y : F32) : SameControl (uRoute N s.cfg s.conf s.sm ch (s.chan ch) x).1
      (uRoute N t.cfg t.conf t.sm ch (t.chan ch) y).1 := by
    have hchan := hst.chan ch
    obtain ⟨cL, cR, mL, mR, rfl, -, -⟩ := hst
    exact hchan.uRoute N s.cfg s.conf s.sm ch x y
  rw [channelTurn_quiet h, channelTurn_quiet (hst.quiet.trans h)]
  exact (hst.setChan ch (hroute _ _)).ioWrite ch i _ _

theorem SameButAudio.sampleStep {s t : State} (h : s.quiet = true) (hst : SameButAudio s t)
    (N : NumFns) (i : Nat) : SameButAudio (sampleStep N i s) (sampleStep N i t) := by
  have hs : (uSmooth { s with sidx := i }).quiet = true := (quiet_congr (s := s) rfl rfl).trans h
  have hsmooth : SameButAudio (uSmooth { s with sidx := i }) (uSmooth { t with sidx := i }) :=
    hst.map (f := fun s => uSmooth { s with sidx := i }) rfl rfl fun _ _ _ _ => rfl
  exact (hsmooth.channelTurn hs N .left i).channelTurn (channelTurn_quiet_quiet hs N .left i) N .right i

theorem SameButAudio.sampleSteps {s t : State} (h : s.quiet = true) (hst : SameButAudio s t)
    (N : NumFns) (n i : Nat) : SameButAudio (sampleSteps N n i s) (sampleSteps N n i t) := by
  induction n generalizing i s t with
  | zero => exact hst
  | succ n ih => exact ih (sampleStep_quiet_quiet h N i) (hst.sampleStep h N i) (i + 1)

theorem SameButAudio.uLatch {s t : State} (h : s.quiet = true) (hst : SameButAudio s t) :
    SameButAudio (uLatch s) (uLatch t) := by
  rw [Machine.uLatch, Machine.uLatch, latchAll_quiet h, latchAll_quiet (hst.quiet.trans h)]
  exact hst.map (f := fun s => { s with tgt := tab18 fun k => clampP k s.prm[k] }) rfl rfl
    fun _ _ _ _ => rfl

/-- Whether a block is legal does not depend on the audio (R120). -/
theorem SameButAudio.pblockBody {s t : State} (h : s.quiet = true) (hst : SameButAudio s t)
    (N : NumFns) (n : Nat) : SameButAudio (pblockBody N n s) (pblockBody N n t) := by
  have hflags : pblockFlags t n = pblockFlags s n := by
    obtain ⟨cL, cR, mL, mR, rfl, -, -⟩ := hst
    rfl
  by_cases hf : pblockFlags s n = 0#32
  · rw [pblockBody_legal hf, pblockBody_legal (hflags.trans hf)]
    exact (hst.uLatch h).sampleSteps (uLatch_quiet_quiet h) N n 0
  · rw [pblockBody_illegal hf, pblockBody_illegal (hflags ▸ hf), hflags]
    exact hst.map rfl rfl fun _ _ _ _ => rfl

theorem SameButAudio.pblock {s t : State} (h : s.quiet = true) (hst : SameButAudio s t) (n : Nat) :
    SameButAudio (runCommand (Machine.pblockBody Config.num n) statusWord s)
      (runCommand (Machine.pblockBody Config.num n) statusWord t) := by
  have hq : (beginCommand s).quiet = true := (quiet_congr (s := s) rfl rfl).trans h
  have hbody := (hst.map (f := beginCommand) rfl rfl fun _ _ _ _ => rfl).pblockBody hq Config.num n
  have hend := pblockBody_quiet_quiet hq Config.num n
  rw [runCommand_quiet hend, runCommand_quiet (hbody.quiet.trans hend)]
  exact hbody.map (f := fun s => endCommand (statusWord s) s) rfl rfl fun _ _ _ _ => rfl

/-- Settles O56: the two runs stay the same state but for the audio in which they began to differ. -/
theorem audioNeverReachesControl : Obligations.AudioNeverReachesControl := by
  intro n s cL cR mL mR h hL hR
  have hst : SameButAudio s { s with chL := cL, chR := cR, iobL := mL, iobR := mR } :=
    ⟨cL, cR, mL, mR, rfl, hL, hR⟩
  obtain ⟨dL, dR, kL, kR, hv, hdL, hdR⟩ := hst.pblock h n
  exact ⟨_, _, rfl, congrArg Host.Outcome.next hv, hdL, hdR, rfl, rfl, rfl, rfl⟩

end Sys2Proof.Machine
end

section
/-! The DC blocker (46_dc_blocker.md): after a clearing its feedback is the exact zero `0.995 × +0`, so what
comes out is `(x − +0) + +0` (R210, R212). -/

namespace Sys2Proof.Machine

/-! ### Zeros beside a value that may be an infinity (R11) -/

theorem isFinite_or_isInf {x : F32} (h : isNan x = false) : isFinite x = true ∨ isInf x = true := by
  simp only [isNan, isFinite, isInf, decide_eq_false_iff_not, decide_eq_true_eq, beq_iff_eq] at *
  omega

theorem addWith_inf_left {x y : F32} (hx : isInf x = true) (hy : isInf y = false) (op : NanOp)
    (a b : F32) : addWith op a b x y = x := by
  simp [addWith, hx, hy]

/-- Taking `+0` away is adding `−0`, which leaves the bits of both zeros too. -/
theorem fsub_posZero {x : F32} (h : isNan x = false) : fsub x Lit.zero = x := by
  have hneg : fneg Lit.zero = 0x80000000#32 := by decide
  have hsub : fsub x Lit.zero = addWith .sub x Lit.zero x 0x80000000#32 := by
    simp [fsub, h, hneg, show isNan Lit.zero = false by decide]
  obtain hfin | hinf := isFinite_or_isInf h
  · by_cases h0 : magBits x = 0
    · obtain rfl | rfl := eq_zero_or_negZero h0 <;> decide
    · rw [hsub, addWith_zero hfin (by decide) h0]
  · rw [hsub, addWith_inf_left hinf (by decide)]

/-- Adding `+0` leaves the bits of every value that is no NaN but `−0`, infinities included. -/
theorem fadd_posZero {x : F32} (h : isNan x = false) :
    fadd x Lit.zero = if x = 0x80000000#32 then 0x00000000#32 else x := by
  obtain hfin | hinf := isFinite_or_isInf h
  · split
    · next hx => rw [hx]; decide
    · next hx => exact fadd_zero hfin (by decide) hx
  · have hne : x ≠ 0x80000000#32 := by
      rintro rfl
      exact absurd hinf (by decide)
    have hadd : fadd x Lit.zero = addWith .add x Lit.zero x Lit.zero := by
      simp [fadd, h, show isNan Lit.zero = false by decide]
    rw [if_neg hne, hadd, addWith_inf_left hinf (by decide)]

/-! ### One step of the blocker -/

theorem uDcb_output (c : Channel) (x : F32) :
    (uDcb c x).2 = fadd (fsub x c.dx1) (fmul Lit.d0_995 c.dy1) := rfl

theorem uDcb_channel (c : Channel) (x : F32) :
    (uDcb c x).1 = { c with dx1 := x, dy1 := (uDcb c x).2 } := rfl

/-- Settles O52: the step is its definition, and with both registers `+0` neither the difference nor the
feedback changes the input, but for `−0`, which the sum with `+0` turns into `+0`. -/
theorem dcBlockerFirstSample : Obligations.DcBlockerFirstSample := by
  refine ⟨fun c x => Prod.ext (uDcb_channel c x) (uDcb_output c x), fun c x hdx hdy hx => ?_⟩
  have hdiff : fsub x c.dx1 = x := by rw [hdx]; exact fsub_posZero hx
  have hfeedback : fmul Lit.d0_995 c.dy1 = Lit.zero := by rw [hdy]; decide
  rw [uDcb_output, hdiff, hfeedback, fadd_posZero hx]

end Sys2Proof.Machine
end

section
/-! The router (47_signal_router.md): a channel's turn and the sample step in their fixed order (R216, R218),
and the output blend, whose two products at `masterMix` `+0.0` are the dry input and a zero (R222, R223). -/

namespace Sys2Proof.Machine

/-! ### A channel's turn and the sample step -/

/-- Settles O53: the turn is written in the order of R218, and the two sides differ in the delay time and the
drift they are given. -/
theorem routerComposesModules : Obligations.RouterComposesModules := by
  intro N g k sm ch c dry
  cases ch with
  | left => rfl
  | right => rfl

/-- Settles O23: where no host waits each turn is its read, its processing and its write, and the left turn
leaves what the right one reads. -/
theorem sampleStepRunsBothChannels : Obligations.SampleStepRunsBothChannels := by
  intro N i s h
  have hq : (uSmooth { s with sidx := i }).quiet = true := (quiet_congr (s := s) rfl rfl).trans h
  rw [sampleStep, channelTurn_quiet (channelTurn_quiet_quiet hq N .left i), channelTurn_quiet hq]
  rfl

/-! ### The output blend -/

/-- Adding a zero of either sign leaves the bits of every value that is neither a zero nor a NaN, infinities
included. -/
theorem fadd_zero_of_ne_zero {x z : F32} (hx : isNan x = false) (hne : isZero x = false)
    (hz : magBits z = 0) : fadd x z = x := by
  obtain hfin | hinf := isFinite_or_isInf hx
  · refine fadd_zero hfin hz ?_
    rintro rfl
    exact absurd hne (by decide)
  · have hzf : isFinite z = true := by simp [isFinite, hz]
    obtain ⟨hzn, hzi⟩ := finite_cases hzf
    have hadd : fadd x z = addWith .add x z x z := by simp [fadd, hx, hzn]
    rw [hadd, addWith_inf_left hinf hzi]

theorem isNan_of_isZero {x : F32} (h : isZero x = true) : isNan x = false := by
  simp [isNan, beq_iff_eq.1 h]

theorem isZero_fadd_of_isZero {x : F32} (h : isZero x = true) (q : Bool) :
    isZero (fadd x (pack q 0)) = true := by
  have hx : x = pack (isNeg x) 0 := by
    rw [← beq_iff_eq.1 h, pack_self]
  rw [hx, fadd_zeros, isZero, magBits_pack _ (by decide), beq_self_eq_true]

/-- With the master mix `+0.0` the dry input is taken whole and the wet signal is a zero of its sign. -/
theorem blend_mix_zero {sm : Vector F32 18} {dry w : F32} (hmix : sm[masterMix] = Lit.zero)
    (hdry : isNan dry = false) (hw : isFinite w = true) :
    blend sm dry w = fadd dry (pack (isNeg w) 0) := by
  have hrest : fsub Lit.d1 Lit.zero = Lit.d1 := fsub_posZero (by decide)
  have hwet : fmul w Lit.zero = pack (isNeg w) 0 := by
    rw [fmul_zero hw (by decide), show isNeg Lit.zero = false by decide, Bool.bne_false]
  rw [blend, hmix, hrest, fmul_one hdry, hwet]

/-- Settles O54: what remains is the dry input plus a zero. -/
theorem masterMixZeroIsDry : Obligations.MasterMixZeroIsDry := by
  intro sm dry w hmix hw
  refine ⟨fun hn hne => ?_, fun hz => ?_⟩
  · rw [blend_mix_zero hmix hn hw, fadd_zero_of_ne_zero hn hne (magBits_pack _ (by decide))]
  · rw [blend_mix_zero hmix (isNan_of_isZero hz) hw, isZero_fadd_of_isZero hz]

end Sys2Proof.Machine
end

section
/-! Nothing stops the core (60_exceptions.md R230, R240): every part of a step answers a next state, and the
one refusal, of an instance that breaks R8, is excluded by the invariant. -/

namespace Sys2Proof.Machine

theorem commandTurn_of_no_command {p : Port} {s : State} (h : fetch p s = none) :
    commandTurn p s = .next s := by simp [commandTurn, h]

theorem commandTurn_answers (p : Port) (s : State) : ∃ t, commandTurn p s = .next t := by
  cases h : fetch p s with
  | none => exact ⟨s, commandTurn_of_no_command h⟩
  | some x =>
    obtain ⟨d, t⟩ := x
    cases d with
    | legal i => exact ⟨_, (commandTurn_legal h).trans (exec_eq i t)⟩
    | illegal why => exact ⟨_, commandTurn_illegal h⟩

theorem serve_answers (a : Source) (s : State) : ∃ t, serve a s = .next t := by
  cases a with
  | mem => exact ⟨serveMem s, rfl⟩
  | ctl => exact commandTurn_answers .ctl s
  | cmd => exact commandTurn_answers .cmd s

/-- Settles O11: the step waits or serves one of the ports that are ready, which answers a next state. -/
theorem noStepStops : Obligations.NoStepStops := by
  intro s hinv
  match h : s.sources with
  | [] => exact ⟨s, step_of_no_source h⟩
  | [a] =>
    rw [step_of_one_source hinv.cfg h]
    exact serve_answers a s
  | a :: b :: more =>
    rw [step_of_more_sources hinv.cfg h]
    exact serve_answers _ s.drawn

end Sys2Proof.Machine
end

section
/-! The clearing sequence a second time (70_reset_and_hazards.md R258, R259): what it leaves in a channel it
leaves there again. -/

namespace Sys2Proof.Machine

theorem ramClear_ramClear (n : Nat) (m : Cells) : ramClear n (ramClear n m) = ramClear n m := by
  simp [ramClear, List.filter_filter]

theorem Line.cleared_cleared (n : Nat) (l : Line) : (l.cleared n).cleared n = l.cleared n := by
  simp only [Line.cleared, ramClear_ramClear]

theorem Channel.cleared_cleared (k : Conf) (seed : U32) (c : Channel) :
    (c.cleared k seed).cleared k seed = c.cleared k seed := by
  simp only [Channel.cleared, tab8_get, Line.cleared_cleared, ramClear_ramClear]

/-- `s` is idle and holds already what the clearing sequence leaves (R258). -/
structure State.Cleared (s : State) : Prop where
  idle : s.busy = false
  tgt : (tab18 fun k => clampP k s.prm[k]) = s.tgt
  sm : (tab18 fun k => clampP k s.prm[k]) = s.sm
  chL : s.chL.cleared s.conf s.cfg.seedL = s.chL
  chR : s.chR.cleared s.conf s.cfg.seedR = s.chR

theorem execReset_of_cleared {s : State} (h : s.quiet = true) (hp : s.prepared = true)
    (hc : s.Cleared) : exec .reset s = .next { s with rsp := s.rsp ++ [s.status] } := by
  obtain ⟨-, hreset⟩ := resetCompletes s h
  rw [hreset hp]
  exact congrArg _ (State.ext rfl rfl hc.tgt hc.sm rfl hc.idle.symm rfl rfl hc.chL hc.chR rfl rfl rfl rfl
    rfl rfl rfl rfl rfl)

/-- Settles O59: the first `RESET` leaves a cleared state, in which a second one only answers. -/
theorem resetIdempotent : Obligations.ResetIdempotent := by
  intro s h hp
  obtain ⟨-, hfirst⟩ := resetCompletes s h
  refine ⟨_, hfirst hp, execReset_of_cleared ((quiet_congr (s := s) rfl rfl).trans h) hp ?_⟩
  exact ⟨rfl, rfl, rfl, Channel.cleared_cleared s.conf s.cfg.seedL s.chL,
    Channel.cleared_cleared s.conf s.cfg.seedR s.chR⟩

end Sys2Proof.Machine
end
